-- ==== Sys2Proof/Word.lean ====
section
/-! DEFINITION. The word types of the VZC crypto core, named as the spec names them. -/

namespace Sys2Proof

/-- One byte of DM, CM or a byte string (spec/00_scope.md R9). -/
abbrev Byte := BitVec 8

/-- A 7-bit slot field `D`, `A`, `B` or `C` of a command word (spec/30_encoding.md R111, R113). -/
abbrev Slot := BitVec 7

/-- A 12-bit length or index field `L1` or `L2` (spec/30_encoding.md R111, R113). -/
abbrev Len := BitVec 12

/-- One 64-bit command word (spec/30_encoding.md R110). -/
abbrev CmdWord := BitVec 64

/-- One 32-bit word of the host port (spec/20_memory.md R90). -/
abbrev HostWord := BitVec 32

/-- A 32-bit working word of SHA-256, BLAKE3 and ChaCha20. -/
abbrev W32 := BitVec 32

/-- A 64-bit Keccak lane (spec/45_keccak.md R312). -/
abbrev W64 := BitVec 64

end Sys2Proof
end

