-- ==== Sys2Proof/Syntax.lean ====
section
/-! DEFINITION. The 41 commands of VZC command set version 1, one constructor per row of spec/opcode_table.json.
Operands stand in the order of the command word's fields: D, A, B, C, L1, L2, F.0 (spec/30_encoding.md R111, R112). -/

namespace Sys2Proof

inductive Instr where
  /-- END (spec/40_sequencer.md R151). -/
  | endSeq
  /-- NOP (R152). -/
  | nop
  /-- LDC wD, #index (R157). -/
  | ldc (d : Slot) (index : Len)
  /-- ADD wD, wA, wB (spec/41_bigint_modular.md R170). -/
  | add (d a b : Slot)
  /-- SUB wD, wA, wB (R171). -/
  | sub (d a b : Slot)
  /-- MUL wD, wA, wB (R172). -/
  | mul (d a b : Slot)
  /-- CMP wA, wB (R173). -/
  | cmp (a b : Slot)
  /-- MODADD wD, wA, wB, wC (R174). -/
  | modadd (d a b c : Slot)
  /-- MODSUB wD, wA, wB, wC (R175). -/
  | modsub (d a b c : Slot)
  /-- MODMUL wD, wA, wB, wC (R176). -/
  | modmul (d a b c : Slot)
  /-- MONTMUL wD, wA, wB, wC (R177). -/
  | montmul (d a b c : Slot)
  /-- MONTIN wD, wA, wC (R178). -/
  | montin (d a c : Slot)
  /-- MONTOUT wD, wA, wC (R179). -/
  | montout (d a c : Slot)
  /-- MODEXP wD, wA, wB, wC (R180). -/
  | modexp (d a b c : Slot)
  /-- GCD wD, wA, wB (R181). -/
  | gcd (d a b : Slot)
  /-- MODINV wD, wA, wC (R182). -/
  | modinv (d a c : Slot)
  /-- MODINVVT wD, wA, wC (R183). -/
  | modinvvt (d a c : Slot)
  /-- ECADD wD, wA, wB (spec/42_curve.md R225). -/
  | ecadd (d a b : Slot)
  /-- ECDBL wD, wA (R226). -/
  | ecdbl (d a : Slot)
  /-- ECMUL wD, wA, wB (R228). -/
  | ecmul (d a b : Slot)
  /-- ECMULG wD, wB (R229). -/
  | ecmulg (d b : Slot)
  /-- ECCHK wA (R230). -/
  | ecchk (a : Slot)
  /-- PKENC wD, wA; `compressed` is F.0 (R231). -/
  | pkenc (d a : Slot) (compressed : Bool)
  /-- PKDEC wD, wA, #L1 (R232). -/
  | pkdec (d a : Slot) (l1 : Len)
  /-- ECDSA_SIGN wD, wA, wB, wC; `lows` is F.0 (spec/43_ecdsa.md R261). -/
  | ecdsaSign (d a b c : Slot) (lows : Bool)
  /-- ECDSA_VERIFY wA, wB, wC; `lows` is F.0 (R262). -/
  | ecdsaVerify (a b c : Slot) (lows : Bool)
  /-- SHA256_INIT wC (spec/44_sha256.md R286). -/
  | sha256Init (c : Slot)
  /-- SHA256_UPDATE wC, wA, #L1 (R287). -/
  | sha256Update (a c : Slot) (l1 : Len)
  /-- SHA256_FINAL wD, wC (R288). -/
  | sha256Final (d c : Slot)
  /-- SHA256_COMPRESS wC, wA (R289). -/
  | sha256Compress (a c : Slot)
  /-- KECCAK_INIT wC (spec/45_keccak.md R315). -/
  | keccakInit (c : Slot)
  /-- KECCAK_UPDATE wC, wA, #L1 (R316). -/
  | keccakUpdate (a c : Slot) (l1 : Len)
  /-- KECCAK_FINAL wD, wC (R317). -/
  | keccakFinal (d c : Slot)
  /-- KECCAKF wC (R318). -/
  | keccakf (c : Slot)
  /-- B3_COMPRESS wD, wA, wB, wC (spec/46_blake3.md R345). -/
  | b3Compress (d a b c : Slot)
  /-- CHACHA_QR wD, wA (spec/47_chacha20.md R374). -/
  | chachaQr (d a : Slot)
  /-- CHACHA_BLOCK wD, wC (R375). -/
  | chachaBlock (d c : Slot)
  /-- CHACHA_XOR wD, wA, wC, #L1 (R376). -/
  | chachaXor (d a c : Slot) (l1 : Len)
  /-- POLY1305 wD, wA, wC, #L1 (spec/48_poly1305_aead.md R402). -/
  | poly1305 (d a c : Slot) (l1 : Len)
  /-- AEAD_ENC wD, wA, wB, wC, #L1, #L2 (R405). -/
  | aeadEnc (d a b c : Slot) (l1 l2 : Len)
  /-- AEAD_DEC wD, wA, wB, wC, #L1, #L2 (R406). -/
  | aeadDec (d a b c : Slot) (l1 l2 : Len)
deriving DecidableEq, Repr

end Sys2Proof
end

