-- ==== Sys2Proof/WellFormed.lean ====
section
/-! DEFINITION. Which commands a command word can stand for. The types of the operands bound every field; the one
further check is the opcode-specific value check of spec/30_encoding.md R114 (4): LDC's index is at most 4. -/

namespace Sys2Proof

/-- `Instr.wellFormed i`: some legal command word decodes to `i` (spec/30_encoding.md R114 (4), R157). -/
def Instr.wellFormed : Instr → Bool
  | .ldc _ index => index.toNat ≤ 4
  | .endSeq | .nop => true
  | .add _ _ _ | .sub _ _ _ | .mul _ _ _ | .cmp _ _ => true
  | .modadd _ _ _ _ | .modsub _ _ _ _ | .modmul _ _ _ _ => true
  | .montmul _ _ _ _ | .montin _ _ _ | .montout _ _ _ => true
  | .modexp _ _ _ _ | .gcd _ _ _ | .modinv _ _ _ | .modinvvt _ _ _ => true
  | .ecadd _ _ _ | .ecdbl _ _ | .ecmul _ _ _ | .ecmulg _ _ | .ecchk _ => true
  | .pkenc _ _ _ | .pkdec _ _ _ => true
  | .ecdsaSign _ _ _ _ _ | .ecdsaVerify _ _ _ _ => true
  | .sha256Init _ | .sha256Update _ _ _ | .sha256Final _ _ | .sha256Compress _ _ => true
  | .keccakInit _ | .keccakUpdate _ _ _ | .keccakFinal _ _ | .keccakf _ => true
  | .b3Compress _ _ _ _ => true
  | .chachaQr _ _ | .chachaBlock _ _ | .chachaXor _ _ _ _ => true
  | .poly1305 _ _ _ _ | .aeadEnc _ _ _ _ _ _ | .aeadDec _ _ _ _ _ _ => true

end Sys2Proof
end

