-- ==== Sys2Proof/Decode.lean ====
section
/-! DEFINITION. The command word: its fields (spec/30_encoding.md R111), the table of opcodes and field use (R112,
R118), the decoder (R115) with its refusals by name (R114), and the encoder. -/

namespace Sys2Proof

/-- The eight fields of a command word (spec/30_encoding.md R111). -/
structure Fields where
  opc : BitVec 8
  d : Slot
  a : Slot
  b : Slot
  c : Slot
  l1 : Len
  l2 : Len
  f : BitVec 4
deriving DecidableEq, Repr

/-- Why a command word is ILLEGAL (spec/30_encoding.md R114; the order of R434). -/
inductive DecodeError where
  /-- R114 (1): OPC is not in the opcode map of R118. -/
  | reservedOpcode
  /-- R114 (2): a slot or length field the opcode does not use is non-zero. -/
  | unusedField
  /-- R114 (3): F[3:1] is non-zero, or F.0 is non-zero for an opcode that does not use F. -/
  | reservedFlag
  /-- R114 (4): LDC's index is above 4. -/
  | ldcIndex
deriving DecidableEq, Repr

/-- Which fields an opcode uses: one row of the table of spec/30_encoding.md R112. -/
structure FieldUse where
  d : Bool
  a : Bool
  b : Bool
  c : Bool
  l1 : Bool
  l2 : Bool
  f : Bool
deriving DecidableEq, Repr

/-- One row of the opcode table: opcode, field use (R112), and the command its fields make. -/
structure OpRow where
  opc : BitVec 8
  use : FieldUse
  build : Fields → Instr

/-- The fields of a command word (spec/30_encoding.md R111). -/
def splitWord (w : CmdWord) : Fields :=
  { opc := w.extractLsb' 56 8, d := w.extractLsb' 49 7, a := w.extractLsb' 42 7, b := w.extractLsb' 35 7,
    c := w.extractLsb' 28 7, l1 := w.extractLsb' 16 12, l2 := w.extractLsb' 4 12, f := w.extractLsb' 0 4 }

/-- The command word with given fields: `enc(o, D, A, B, C, L1, L2, F)` of spec/95_test_vectors.md, R111. -/
def joinFields (x : Fields) : CmdWord :=
  BitVec.ofNat 64 (x.opc.toNat * 2 ^ 56 + x.d.toNat * 2 ^ 49 + x.a.toNat * 2 ^ 42 + x.b.toNat * 2 ^ 35 +
    x.c.toNat * 2 ^ 28 + x.l1.toNat * 2 ^ 16 + x.l2.toNat * 2 ^ 4 + x.f.toNat)

/-- Rows 0x01 to 0x1D of spec/30_encoding.md R112: the sequencer and integer families. -/
def opRowsSeqBig : List OpRow :=
  [ ⟨0x01, ⟨false, false, false, false, false, false, false⟩, fun _ => .endSeq⟩,
    ⟨0x02, ⟨false, false, false, false, false, false, false⟩, fun _ => .nop⟩,
    ⟨0x03, ⟨true, false, false, false, true, false, false⟩, fun x => .ldc x.d x.l1⟩,
    ⟨0x10, ⟨true, true, true, false, false, false, false⟩, fun x => .add x.d x.a x.b⟩,
    ⟨0x11, ⟨true, true, true, false, false, false, false⟩, fun x => .sub x.d x.a x.b⟩,
    ⟨0x12, ⟨true, true, true, false, false, false, false⟩, fun x => .mul x.d x.a x.b⟩,
    ⟨0x13, ⟨false, true, true, false, false, false, false⟩, fun x => .cmp x.a x.b⟩,
    ⟨0x14, ⟨true, true, true, true, false, false, false⟩, fun x => .modadd x.d x.a x.b x.c⟩,
    ⟨0x15, ⟨true, true, true, true, false, false, false⟩, fun x => .modsub x.d x.a x.b x.c⟩,
    ⟨0x16, ⟨true, true, true, true, false, false, false⟩, fun x => .modmul x.d x.a x.b x.c⟩,
    ⟨0x17, ⟨true, true, true, true, false, false, false⟩, fun x => .montmul x.d x.a x.b x.c⟩,
    ⟨0x18, ⟨true, true, false, true, false, false, false⟩, fun x => .montin x.d x.a x.c⟩,
    ⟨0x19, ⟨true, true, false, true, false, false, false⟩, fun x => .montout x.d x.a x.c⟩,
    ⟨0x1A, ⟨true, true, true, true, false, false, false⟩, fun x => .modexp x.d x.a x.b x.c⟩,
    ⟨0x1B, ⟨true, true, true, false, false, false, false⟩, fun x => .gcd x.d x.a x.b⟩,
    ⟨0x1C, ⟨true, true, false, true, false, false, false⟩, fun x => .modinv x.d x.a x.c⟩,
    ⟨0x1D, ⟨true, true, false, true, false, false, false⟩, fun x => .modinvvt x.d x.a x.c⟩ ]

/-- Rows 0x20 to 0x31 of spec/30_encoding.md R112: the curve and signature families. -/
def opRowsCurve : List OpRow :=
  [ ⟨0x20, ⟨true, true, true, false, false, false, false⟩, fun x => .ecadd x.d x.a x.b⟩,
    ⟨0x21, ⟨true, true, false, false, false, false, false⟩, fun x => .ecdbl x.d x.a⟩,
    ⟨0x22, ⟨true, true, true, false, false, false, false⟩, fun x => .ecmul x.d x.a x.b⟩,
    ⟨0x23, ⟨true, false, true, false, false, false, false⟩, fun x => .ecmulg x.d x.b⟩,
    ⟨0x24, ⟨false, true, false, false, false, false, false⟩, fun x => .ecchk x.a⟩,
    ⟨0x25, ⟨true, true, false, false, false, false, true⟩, fun x => .pkenc x.d x.a (x.f.getLsbD 0)⟩,
    ⟨0x26, ⟨true, true, false, false, true, false, false⟩, fun x => .pkdec x.d x.a x.l1⟩,
    ⟨0x30, ⟨true, true, true, true, false, false, true⟩, fun x => .ecdsaSign x.d x.a x.b x.c (x.f.getLsbD 0)⟩,
    ⟨0x31, ⟨false, true, true, true, false, false, true⟩, fun x => .ecdsaVerify x.a x.b x.c (x.f.getLsbD 0)⟩ ]

/-- Rows 0x40 to 0x55 of spec/30_encoding.md R112: the hash, cipher and MAC families. -/
def opRowsHash : List OpRow :=
  [ ⟨0x40, ⟨false, false, false, true, false, false, false⟩, fun x => .sha256Init x.c⟩,
    ⟨0x41, ⟨false, true, false, true, true, false, false⟩, fun x => .sha256Update x.a x.c x.l1⟩,
    ⟨0x42, ⟨true, false, false, true, false, false, false⟩, fun x => .sha256Final x.d x.c⟩,
    ⟨0x43, ⟨false, true, false, true, false, false, false⟩, fun x => .sha256Compress x.a x.c⟩,
    ⟨0x44, ⟨false, false, false, true, false, false, false⟩, fun x => .keccakInit x.c⟩,
    ⟨0x45, ⟨false, true, false, true, true, false, false⟩, fun x => .keccakUpdate x.a x.c x.l1⟩,
    ⟨0x46, ⟨true, false, false, true, false, false, false⟩, fun x => .keccakFinal x.d x.c⟩,
    ⟨0x47, ⟨false, false, false, true, false, false, false⟩, fun x => .keccakf x.c⟩,
    ⟨0x48, ⟨true, true, true, true, false, false, false⟩, fun x => .b3Compress x.d x.a x.b x.c⟩,
    ⟨0x50, ⟨true, true, false, false, false, false, false⟩, fun x => .chachaQr x.d x.a⟩,
    ⟨0x51, ⟨true, false, false, true, false, false, false⟩, fun x => .chachaBlock x.d x.c⟩,
    ⟨0x52, ⟨true, true, false, true, true, false, false⟩, fun x => .chachaXor x.d x.a x.c x.l1⟩,
    ⟨0x53, ⟨true, true, false, true, true, false, false⟩, fun x => .poly1305 x.d x.a x.c x.l1⟩,
    ⟨0x54, ⟨true, true, true, true, true, true, false⟩, fun x => .aeadEnc x.d x.a x.b x.c x.l1 x.l2⟩,
    ⟨0x55, ⟨true, true, true, true, true, true, false⟩, fun x => .aeadDec x.d x.a x.b x.c x.l1 x.l2⟩ ]

/-- OPTABLE (spec/30_encoding.md R112, R118): every opcode not listed is reserved. -/
def opTable : List OpRow := opRowsSeqBig ++ (opRowsCurve ++ opRowsHash)

/-- Every slot and length field the opcode does not use is zero (spec/30_encoding.md R114 (2)). -/
def unusedFieldsZero (u : FieldUse) (x : Fields) : Bool :=
  (u.d || x.d == 0) && (u.a || x.a == 0) && (u.b || x.b == 0) && (u.c || x.c == 0) &&
    (u.l1 || x.l1 == 0) && (u.l2 || x.l2 == 0)

/-- F[3:1] is zero, and F.0 too where the opcode does not use F (spec/30_encoding.md R114 (3)). -/
def flagBitsLegal (u : FieldUse) (x : Fields) : Bool :=
  x.f == 0 || (u.f && x.f == 1)

/-- The command given fields stand for, or why they are ILLEGAL: the checks of spec/30_encoding.md R115 in the order of
spec/60_exceptions.md R434 (1). -/
def decodeFields (x : Fields) : Except DecodeError Instr :=
  match opTable.find? (fun r => r.opc == x.opc) with
  | none => .error .reservedOpcode
  | some r =>
    if !unusedFieldsZero r.use x then .error .unusedField
    else if !flagBitsLegal r.use x then .error .reservedFlag
    else if !(r.build x).wellFormed then .error .ldcIndex
    else .ok (r.build x)

/-- The decoder of spec/30_encoding.md R115, up to its ILLEGAL checks. -/
def decode (w : CmdWord) : Except DecodeError Instr := decodeFields (splitWord w)

/-- The command a word names by its opcode and the fields that opcode uses, whether or not the word is legal; none for a
reserved opcode (spec/30_encoding.md R112, R118). What a warm reset leaves unspecified depends on it alone
(spec/70_reset_and_hazards.md R472, log entry 6). -/
def namedCommand (w : CmdWord) : Option Instr :=
  (opTable.find? fun r => r.opc == (splitWord w).opc).map fun r => r.build (splitWord w)

/-- Fields with an opcode and nothing else. -/
def blankFields (opc : BitVec 8) : Fields :=
  { opc := opc, d := 0, a := 0, b := 0, c := 0, l1 := 0, l2 := 0, f := 0 }

/-- F.0 as the F field (spec/30_encoding.md R113). -/
def flagField (f0 : Bool) : BitVec 4 := if f0 then 1 else 0

/-- The fields of a command's word: opcode of spec/30_encoding.md R118, operands where R112 puts them, zero elsewhere. -/
def fieldsOf : Instr → Fields
  | .endSeq => blankFields 0x01
  | .nop => blankFields 0x02
  | .ldc d i => { blankFields 0x03 with d := d, l1 := i }
  | .add d a b => { blankFields 0x10 with d := d, a := a, b := b }
  | .sub d a b => { blankFields 0x11 with d := d, a := a, b := b }
  | .mul d a b => { blankFields 0x12 with d := d, a := a, b := b }
  | .cmp a b => { blankFields 0x13 with a := a, b := b }
  | .modadd d a b c => { blankFields 0x14 with d := d, a := a, b := b, c := c }
  | .modsub d a b c => { blankFields 0x15 with d := d, a := a, b := b, c := c }
  | .modmul d a b c => { blankFields 0x16 with d := d, a := a, b := b, c := c }
  | .montmul d a b c => { blankFields 0x17 with d := d, a := a, b := b, c := c }
  | .montin d a c => { blankFields 0x18 with d := d, a := a, c := c }
  | .montout d a c => { blankFields 0x19 with d := d, a := a, c := c }
  | .modexp d a b c => { blankFields 0x1A with d := d, a := a, b := b, c := c }
  | .gcd d a b => { blankFields 0x1B with d := d, a := a, b := b }
  | .modinv d a c => { blankFields 0x1C with d := d, a := a, c := c }
  | .modinvvt d a c => { blankFields 0x1D with d := d, a := a, c := c }
  | .ecadd d a b => { blankFields 0x20 with d := d, a := a, b := b }
  | .ecdbl d a => { blankFields 0x21 with d := d, a := a }
  | .ecmul d a b => { blankFields 0x22 with d := d, a := a, b := b }
  | .ecmulg d b => { blankFields 0x23 with d := d, b := b }
  | .ecchk a => { blankFields 0x24 with a := a }
  | .pkenc d a compressed => { blankFields 0x25 with d := d, a := a, f := flagField compressed }
  | .pkdec d a l1 => { blankFields 0x26 with d := d, a := a, l1 := l1 }
  | .ecdsaSign d a b c lows => { blankFields 0x30 with d := d, a := a, b := b, c := c, f := flagField lows }
  | .ecdsaVerify a b c lows => { blankFields 0x31 with a := a, b := b, c := c, f := flagField lows }
  | .sha256Init c => { blankFields 0x40 with c := c }
  | .sha256Update a c l1 => { blankFields 0x41 with a := a, c := c, l1 := l1 }
  | .sha256Final d c => { blankFields 0x42 with d := d, c := c }
  | .sha256Compress a c => { blankFields 0x43 with a := a, c := c }
  | .keccakInit c => { blankFields 0x44 with c := c }
  | .keccakUpdate a c l1 => { blankFields 0x45 with a := a, c := c, l1 := l1 }
  | .keccakFinal d c => { blankFields 0x46 with d := d, c := c }
  | .keccakf c => { blankFields 0x47 with c := c }
  | .b3Compress d a b c => { blankFields 0x48 with d := d, a := a, b := b, c := c }
  | .chachaQr d a => { blankFields 0x50 with d := d, a := a }
  | .chachaBlock d c => { blankFields 0x51 with d := d, c := c }
  | .chachaXor d a c l1 => { blankFields 0x52 with d := d, a := a, c := c, l1 := l1 }
  | .poly1305 d a c l1 => { blankFields 0x53 with d := d, a := a, c := c, l1 := l1 }
  | .aeadEnc d a b c l1 l2 => { blankFields 0x54 with d := d, a := a, b := b, c := c, l1 := l1, l2 := l2 }
  | .aeadDec d a b c l1 l2 => { blankFields 0x55 with d := d, a := a, b := b, c := c, l1 := l1, l2 := l2 }

/-- The command word of a well-formed command (spec/30_encoding.md R111, R112). -/
def encode (i : Instr) : CmdWord := joinFields (fieldsOf i)

/-- The command the decoder reads from a table word `w` of `nbits` bits, the bits above `nbits` zero. A command is
one 64-bit word (spec/30_encoding.md R110). -/
def decodeTableWord (nbits w : Nat) : Option Instr :=
  match decode (BitVec.ofNat 64 (w % 2 ^ nbits)) with
  | .ok i => some i
  | .error _ => none

end Sys2Proof
end

