-- ==== Sys2Proof/Machine/Bytes.lean ====
section
/-! DEFINITION. Byte strings and byte orders (spec/00_scope.md R9, spec/20_memory.md R81 to R83). -/

namespace Sys2Proof.Machine

/-- `zeros(n)` (spec/00_scope.md R9). -/
def zeros (n : Nat) : List Byte := List.replicate n 0

/-- `le(s)`: the integer whose little-endian representation is `s` (spec/00_scope.md R9). -/
def le : List Byte → Nat
  | [] => 0
  | b :: bs => b.toNat + 256 * le bs

/-- `be(s)`: the integer whose big-endian representation is `s` (spec/00_scope.md R9). -/
def be (bs : List Byte) : Nat := le bs.reverse

/-- `le_n(v)`: the n-byte little-endian representation of `v` (spec/00_scope.md R9). -/
def leBytes : Nat → Nat → List Byte
  | 0, _ => []
  | n + 1, v => BitVec.ofNat 8 v :: leBytes n (v / 256)

/-- `be_n(v)`: the n-byte big-endian representation of `v` (spec/00_scope.md R9). -/
def beBytes (n v : Nat) : List Byte := (leBytes n v).reverse

/-- `s[i:j]` (spec/00_scope.md R9). -/
def slice (s : List Byte) (i j : Nat) : List Byte := (s.take j).drop i

/-- `s[i]` (spec/00_scope.md R9). -/
def byteAt (s : List Byte) (i : Nat) : Byte := s.getD i 0

/-- `le32_words(s)`: little-endian 32-bit words (spec/00_scope.md R9). -/
def le32Words : List Byte → List W32
  | b0 :: b1 :: b2 :: b3 :: rest => BitVec.ofNat 32 (le [b0, b1, b2, b3]) :: le32Words rest
  | _ => []

/-- `be32_words(s)`: big-endian 32-bit words (spec/00_scope.md R9). -/
def be32Words : List Byte → List W32
  | b0 :: b1 :: b2 :: b3 :: rest => BitVec.ofNat 32 (be [b0, b1, b2, b3]) :: be32Words rest
  | _ => []

/-- `le64_words(s)`: little-endian 64-bit words (spec/00_scope.md R9). -/
def le64Words : List Byte → List W64
  | b0 :: b1 :: b2 :: b3 :: b4 :: b5 :: b6 :: b7 :: rest =>
    BitVec.ofNat 64 (le [b0, b1, b2, b3, b4, b5, b6, b7]) :: le64Words rest
  | _ => []

/-- `words_le32(ws)` (spec/00_scope.md R9). -/
def wordsLe32 (ws : List W32) : List Byte := ws.flatMap fun w => leBytes 4 w.toNat

/-- `words_be32(ws)` (spec/00_scope.md R9). -/
def wordsBe32 (ws : List W32) : List Byte := ws.flatMap fun w => beBytes 4 w.toNat

/-- `words_le64(ws)` (spec/00_scope.md R9). -/
def wordsLe64 (ws : List W64) : List Byte := ws.flatMap fun w => leBytes 8 w.toNat

/-- The bytewise XOR of two byte strings, as long as the shorter. -/
def xorBytes (s t : List Byte) : List Byte := List.zipWith (fun x y => x ^^^ y) s t

end Sys2Proof.Machine
end

