-- ==== Sys2Proof/Config.lean ====
section
/-! DEFINITION. What is fixed for one VZC core: the constants of spec/00_scope.md R7, the identification
words, and the values the spec leaves open, as opaque constants (nothing can prove what they are). Of the OPEN parameters
of R7, `DM_INIT` and `CM_INIT` are arguments of `State.powerOn`, and three have no definition: `LIMB`, the internal limb
width, left out as unobservable (DESIGN CHOICE, log entry 14), and `IRQ_ROUTE` and `PLATFORM_IN_ORDER`, which belong to
the platform (log entry 10). -/

namespace Sys2Proof.Config

/-- `DM_BYTES` (spec/00_scope.md R7). -/
def dmBytes : Nat := 4096

/-- The 256 command words of CM, in bytes (`CM_WORDS`, `CMD_BITS`, spec/00_scope.md R7). -/
def cmBytes : Nat := 2048

/-- `APERTURE`: bytes of host address space the core decodes (spec/00_scope.md R7). -/
def apertureBytes : Nat := 16384

/-- The ID register (spec/10_state.md R41). -/
def idWord : HostWord := 0x565A4301

/-- The CONFIG register (spec/10_state.md R42). -/
def configWord : HostWord := 0x01000080

/-- What a byte of DM or CM that no write has listed reads as. DESIGN CHOICE, unsafe (log entry 1): the spec leaves
the power-on contents open (R472); `State.powerOn` takes them as arguments, and only `State.reset`, which
lists nothing, shows this byte. -/
def unlistedByte : Byte := 0

/-- `BASE` counted in apertures: the platform chooses it (spec/00_scope.md R7, OPEN). Log entry 9. -/
opaque baseIndex : Nat

/-- `BASE`: the host address of offset 0, a multiple of 16384 (spec/00_scope.md R7). -/
def base : Nat := apertureBytes * baseIndex

/-- The k-th free byte: the value of a disabled byte lane (spec/20_memory.md R90), or a byte of a write region of a
command that a warm reset cut short (spec/70_reset_and_hazards.md R472). Log entry 5. -/
opaque freeByte : Nat → Byte

/-- `LAT(op, L1, L2, F) - 1` for every command but GCD and MODINVVT (spec/70_reset_and_hazards.md R480, R481).
Log entry 8. -/
opaque latency (opc l1 l2 : Nat) (f : Bool) : Nat

/-- Latency less 1 of the variable-time commands, which may depend on the two operand values
(spec/70_reset_and_hazards.md R482). Log entry 8. -/
opaque variableLatency (opc x y : Nat) : Nat

/-- `SEQ_OVH - 1`: sequencer cycles added per command (spec/70_reset_and_hazards.md R480). Log entry 8. -/
opaque sequencerOverhead : Nat

end Sys2Proof.Config
end

