-- ==== Sys2Proof/Machine/State.lean ====
section
/-! DEFINITION. The machine's state as plain data (spec/10_state.md R31), the inputs of the host and the platform,
the reasons a step can stop, and the state right after reset (spec/70_reset_and_hazards.md R471). -/

namespace Sys2Proof.Machine

/-- DM or CM: the bytes that differ from what an unlisted address reads as, addresses strictly rising
(`Memory.wf` in Ops.lean). -/
abbrev Memory := List Host.Cell

/-- STATUS.CMP: 0b00 equal, 0b01 less, 0b10 greater; it never holds 0b11 (spec/10_state.md R44, R48; log entry 11). -/
inductive CmpResult where
  | equal
  | less
  | greater
deriving DecidableEq, Repr

/-- STATUS.ERRCODE: codes 0 to 7 of spec/60_exceptions.md R430; 8 to 15 are never written (log entry 11). -/
inductive ErrCode where
  /-- Code 0: no error. -/
  | ok
  /-- Code 1: undefined operation. -/
  | domain
  /-- Code 2: AEAD tag mismatch. -/
  | auth
  /-- Code 3: malformed input bytes. -/
  | encoding
  /-- Code 4: misuse of a context. -/
  | misuse
  /-- Code 5: reserved opcode, non-zero unused field, LDC index above 4. -/
  | illegal
  /-- Code 6: an operand region passes the end of DM. -/
  | range
  /-- Code 7: a command other than END completed at CM index 255. -/
  | overrun
deriving DecidableEq, Repr

/-- What the host and the platform can do to the core, one at a time, in arrival order (spec/20_memory.md R95,
spec/70_reset_and_hazards.md R470; log entries 3 and 13). Offsets are relative to BASE (R86). -/
inductive Input where
  /-- Nothing arrives before the sequencer's next command. -/
  | pass
  /-- A host read of the word at an offset. -/
  | read (offset : Nat)
  /-- A host write of a word at an offset; `lanes` marks the enabled byte lanes (spec/20_memory.md R90). -/
  | write (offset : Nat) (lanes : BitVec 4) (data : HostWord)
  /-- The reset input asserts after power was absent; DM and CM hold DM_INIT and CM_INIT (R470, R472), here given
  as byte strings from address 0. -/
  | powerOnReset (dmInit cmInit : List Byte)
  /-- The reset input asserts with power present (R470). -/
  | warmReset
  /-- The reset input is released (R470). -/
  | releaseReset
deriving DecidableEq, Repr

/-- The whole machine. The first eleven fields are the spec's (spec/10_state.md R31), `inReset` is its reset input
(R470), the last three are the model's own (log entries 3, 4, 5). -/
structure State where
  /-- Data memory, `DM[0..4095]` (R32). -/
  dm : Memory
  /-- Command memory, 256 words as 2048 bytes, byte `8i + k` holding bits `8k+7..8k` of `CM[i]` (R34; log entry 7). -/
  cm : Memory
  /-- PC (R35). -/
  pc : BitVec 8
  /-- ERRPC (R46). -/
  errpc : BitVec 8
  /-- STATUS.BUSY, which is also the sequencer mode: Running when true (R44, R51). -/
  busy : Bool
  /-- STATUS.DONE (R44). -/
  done : Bool
  /-- STATUS.ERR (R44). -/
  err : Bool
  /-- STATUS.C (R44, R48). -/
  c : Bool
  /-- STATUS.V (R44, R48). -/
  v : Bool
  /-- STATUS.CMP (R44, R48). -/
  cmp : CmpResult
  /-- STATUS.ERRCODE (R44, R430). -/
  errcode : ErrCode
  /-- IRQEN.DONEIE (R47). -/
  doneie : Bool
  /-- The reset input is asserted (R470; log entry 13). -/
  inReset : Bool
  /-- The model's own: the inputs not yet taken (log entry 3). -/
  pending : List Input
  /-- The model's own: the word last driven in answer to a host read (log entry 4). -/
  busData : HostWord
  /-- The model's own: how many free bytes have been drawn (log entry 5). -/
  freeCount : Nat
deriving DecidableEq, Repr

/-- Why a step stops. No command raises one: every error of the spec is an error halt, a next state
(spec/60_exceptions.md R431). -/
inductive Fault where
  /-- Raised by `hostReadStep` and `hostWriteStep` for a host access whose offset is not in the 16 KiB aperture the core decodes
  (spec/00_scope.md R7, spec/20_memory.md R86). Safe: the model stops where no rule of the spec speaks (log entry 9). -/
  | outsideAperture
deriving DecidableEq, Repr

/-- Why an instruction has no meaning. Every command of the table has one, so nothing raises this. -/
inductive Refusal where
  /-- An instruction the model gives no meaning, by mnemonic; raised by no arm of `exec`. Safe. -/
  | notModelled (mnemonic : String)
deriving DecidableEq, Repr

/-- The machine right after reset: every register at its value of spec/70_reset_and_hazards.md R471, Idle, the reset
input released, no input waiting, nothing listed in DM and CM (their contents are the OPEN parameters of R472:
`State.powerOn` takes them as arguments; log entry 1). -/
def State.reset : State :=
  { dm := [], cm := [], pc := 0, errpc := 0, busy := false, done := false, err := false, c := false, v := false,
    cmp := .equal, errcode := .ok, doneie := false, inReset := false, pending := [], busData := 0, freeCount := 0 }

end Sys2Proof.Machine
end

