-- ==== Sys2Proof/Machine/Ops.lean ====
section
/-! DEFINITION. The named operations: reading and writing memory, fetching a command, queueing and committing a
command's effect, the error halt (the machine's one kind of exception) and the clean halt, START (the way back
after a halt), and reset. -/

namespace Sys2Proof.Machine

/-- The byte at an address; an unlisted one reads as `Config.unlistedByte`. -/
def Memory.read : Memory → Nat → Byte
  | [], _ => Config.unlistedByte
  | (x, b) :: rest, a => if x = a then b else Memory.read rest a

/-- `n` bytes from an address up. -/
def Memory.readBytes (m : Memory) (a : Nat) : Nat → List Byte
  | 0 => []
  | n + 1 => m.read a :: Memory.readBytes m (a + 1) n

/-- The entries a byte string makes from an address up: none for a byte an unlisted address reads as. -/
def cellsFrom (a : Nat) : List Byte → Memory
  | [] => []
  | b :: bs => if b = Config.unlistedByte then cellsFrom (a + 1) bs else (a, b) :: cellsFrom (a + 1) bs

/-- Store a byte string from an address up; every other byte stays, and the canonical form is kept. -/
def Memory.writeBytes (m : Memory) (a : Nat) (bs : List Byte) : Memory :=
  m.filter (fun cell => cell.1 < a) ++ (cellsFrom a bs ++ m.filter (fun cell => a + bs.length ≤ cell.1))

/-- The canonical form: addresses strictly rising, no entry equal to what an unlisted address reads as, and every
address below the memory's size. -/
def Memory.wf (size : Nat) (m : Memory) : Bool :=
  decide (m.Pairwise (fun x y => x.1 < y.1)) && m.all (fun cell => cell.2 != Config.unlistedByte && cell.1 < size)

/-- `MemRead(addr, n)` (spec/00_scope.md R10): bytes of DM as the command finds them. -/
def memRead (s : State) (a n : Nat) : List Byte := s.dm.readBytes a n

/-- `CM[pc]` (spec/40_sequencer.md R150): the 64-bit word the sequencer fetches. -/
def fetch (s : State) : CmdWord := BitVec.ofNat 64 (le (s.cm.readBytes (8 * s.pc.toNat) 8))

/-- One queued write: `MemWrite(addr, len(bytes), bytes)` (spec/00_scope.md R10). -/
structure Write where
  addr : Nat
  bytes : List Byte
deriving DecidableEq, Repr

/-- What a command queues (spec/00_scope.md R10): DM writes in order, and the flags it writes. -/
structure Effect where
  writes : List Write := []
  c : Option Bool := none
  v : Option Bool := none
  cmp : Option CmpResult := none
deriving DecidableEq, Repr

/-- `outcome` of spec/40_sequencer.md R150: a command's effect, or the error it raises. -/
abbrev Result := Except ErrCode Effect

/-- Queued writes applied in order, so that the later of two stands (spec/00_scope.md R14). -/
def applyWrites (dm : Memory) (ws : List Write) : Memory :=
  ws.foldl (fun m w => m.writeBytes w.addr w.bytes) dm

/-- Commit a command's queued writes and flags together (spec/00_scope.md R14, spec/40_sequencer.md R150). -/
def commit (e : Effect) (s : State) : State :=
  { s with
    dm := applyWrites s.dm e.writes
    c := e.c.getD s.c
    v := e.v.getD s.v
    cmp := e.cmp.getD s.cmp }

/-- `halt_ok()` (spec/40_sequencer.md R156). -/
def haltOk (s : State) : State := { s with busy := false, done := true }

/-- `halt_error(E, i)` (spec/40_sequencer.md R156, spec/60_exceptions.md R431): the machine's taking of an exception. -/
def haltError (e : ErrCode) (i : BitVec 8) (s : State) : State :=
  { s with errcode := e, err := true, errpc := i, v := false, busy := false, done := true, pc := i }

/-- START (spec/40_sequencer.md R155): the sequencer runs from PC; after an error PC still names the failing command,
so START is also the return from an exception (spec/60_exceptions.md R439). -/
def start (s : State) : State := { s with done := false, err := false, errcode := .ok, busy := true }

/-- A command other than END has completed and its writes are committed: PC advances, or the run ends with OVERRUN
at index 255 (spec/40_sequencer.md R153, R154). -/
def advance (s : State) : State :=
  if s.pc = 255 then haltError .overrun 255 s else { s with pc := s.pc + 1 }

/-- The end of a command other than END: the error halt with nothing committed, or the commit and the advance
(spec/40_sequencer.md R150). -/
def retire (r : Result) (s : State) : Host.Outcome State Fault Refusal :=
  match r with
  | .error e => .next (haltError e s.pc s)
  | .ok e => .next (advance (commit e s))

/-- The state after a power-on reset with given DM and CM contents (spec/70_reset_and_hazards.md R471, R472). -/
def State.powerOn (dmInit cmInit : List Byte) : State :=
  { State.reset with
    dm := Memory.writeBytes [] 0 (dmInit.take Config.dmBytes)
    cm := Memory.writeBytes [] 0 (cmInit.take Config.cmBytes) }

/-- `n` free bytes, the first one numbered `k` (log entry 5). -/
def freeBytes (k : Nat) : Nat → List Byte
  | 0 => []
  | n + 1 => Config.freeByte k :: freeBytes (k + 1) n

end Sys2Proof.Machine
end

