-- ==== Sys2Proof/Machine/Flags.lean ====
section
/-! DEFINITION. The flags (spec/10_state.md R48) and the STATUS word (R44). -/

namespace Sys2Proof.Machine

/-- C after ADD: the carry out (spec/10_state.md R48). -/
def carryOut (a b : Nat) : Bool := 2 ^ 256 ≤ a + b

/-- C after SUB: the borrow out (spec/10_state.md R48). -/
def borrowOut (a b : Nat) : Bool := a < b

/-- CMP after CMP (spec/10_state.md R48). -/
def compare256 (a b : Nat) : CmpResult := if a = b then .equal else if a < b then .less else .greater

/-- The two bits of STATUS.CMP (spec/10_state.md R44). -/
def CmpResult.bits : CmpResult → Nat
  | .equal => 0
  | .less => 1
  | .greater => 2

/-- The code of STATUS.ERRCODE (spec/60_exceptions.md R430). -/
def ErrCode.code : ErrCode → Nat
  | .ok => 0
  | .domain => 1
  | .auth => 2
  | .encoding => 3
  | .misuse => 4
  | .illegal => 5
  | .range => 6
  | .overrun => 7

/-- The word a host reads at STATUS (spec/10_state.md R44): BUSY 0, DONE 1, ERR 2, C 3, V 4, CMP 6:5, ERRCODE 11:8,
zero elsewhere. -/
def statusWord (s : State) : HostWord :=
  BitVec.ofNat 32 (s.busy.toNat + 2 * s.done.toNat + 4 * s.err.toNat + 8 * s.c.toNat + 16 * s.v.toNat +
    32 * s.cmp.bits + 256 * s.errcode.code)

/-- The IRQ output: `STATUS.DONE AND IRQEN.DONEIE` (spec/10_state.md R52). -/
def irq (s : State) : Bool := s.done && s.doneie

end Sys2Proof.Machine
end

