-- ==== Sys2Proof/Machine/Operands.lean ====
section
/-! DEFINITION. Operands: the addressing modes of spec/20_memory.md R80, the operand regions of every command and
their range check (spec/30_encoding.md R116), and the operand forms (slot, double slot, point, byte string) with
the writes they queue. -/

namespace Sys2Proof.Machine

/-- An operand region `(start, size)` of DM (spec/20_memory.md R80). -/
structure Region where
  start : Nat
  size : Nat
deriving DecidableEq, Repr

/-- A region is in range when it does not pass the end of DM (spec/30_encoding.md R116). -/
def Region.inRange (r : Region) : Bool := r.start + r.size ≤ 4096

/-- The address lies in the region. -/
def Region.has (r : Region) (a : Nat) : Bool := r.start ≤ a && a < r.start + r.size

/-- The byte address of a slot: `32 * X` (spec/30_encoding.md R113). -/
def slotAddr (x : Slot) : Nat := 32 * x.toNat

/-- A byte-string or fixed-size region at a slot (spec/20_memory.md R80). -/
def bytesAt (x : Slot) (n : Nat) : Region := ⟨slotAddr x, n⟩

/-- A region of `k` whole slots (spec/20_memory.md R80, R82). -/
def slotsAt (x : Slot) (k : Nat) : Region := ⟨slotAddr x, 32 * k⟩

/-- The region appended to a byte string of `l` bytes at a slot (spec/20_memory.md R80). -/
def appendedAt (x : Slot) (l n : Nat) : Region := ⟨slotAddr x + l, n⟩

/-- The length of a PKENC output: 33 bytes compressed, 65 not (spec/42_curve.md R231). -/
def pkencLength (compressed : Bool) : Nat := if compressed then 33 else 65

/-- The regions a command reads, each from its rule's "Regions" line. -/
def readRegions : Instr → List Region
  | .endSeq => []
  | .nop => []
  | .ldc _ _ => []
  | .add _ a b => [slotsAt a 1, slotsAt b 1]
  | .sub _ a b => [slotsAt a 1, slotsAt b 1]
  | .mul _ a b => [slotsAt a 1, slotsAt b 1]
  | .cmp a b => [slotsAt a 1, slotsAt b 1]
  | .modadd _ a b c => [slotsAt a 1, slotsAt b 1, slotsAt c 1]
  | .modsub _ a b c => [slotsAt a 1, slotsAt b 1, slotsAt c 1]
  | .modmul _ a b c => [slotsAt a 1, slotsAt b 1, slotsAt c 1]
  | .montmul _ a b c => [slotsAt a 1, slotsAt b 1, slotsAt c 1]
  | .montin _ a c => [slotsAt a 1, slotsAt c 1]
  | .montout _ a c => [slotsAt a 1, slotsAt c 1]
  | .modexp _ a b c => [slotsAt a 1, slotsAt b 1, slotsAt c 1]
  | .gcd _ a b => [slotsAt a 1, slotsAt b 1]
  | .modinv _ a c => [slotsAt a 1, slotsAt c 1]
  | .modinvvt _ a c => [slotsAt a 1, slotsAt c 1]
  | .ecadd _ a b => [slotsAt a 2, slotsAt b 2]
  | .ecdbl _ a => [slotsAt a 2]
  | .ecmul _ a b => [slotsAt a 2, slotsAt b 1]
  | .ecmulg _ b => [slotsAt b 1]
  | .ecchk a => [slotsAt a 2]
  | .pkenc _ a _ => [slotsAt a 2]
  | .pkdec _ a l1 => [bytesAt a l1.toNat]
  | .ecdsaSign _ a b c _ => [slotsAt a 1, slotsAt b 1, slotsAt c 1]
  | .ecdsaVerify a b c _ => [slotsAt a 1, slotsAt b 2, slotsAt c 2]
  | .sha256Init _ => []
  | .sha256Update a c l1 => [bytesAt a l1.toNat, slotsAt c 4]
  | .sha256Final _ c => [slotsAt c 4]
  | .sha256Compress a c => [slotsAt a 2, slotsAt c 1]
  | .keccakInit _ => []
  | .keccakUpdate a c l1 => [bytesAt a l1.toNat, slotsAt c 7]
  | .keccakFinal _ c => [slotsAt c 7]
  | .keccakf c => [bytesAt c 200]
  | .b3Compress _ a b c => [slotsAt a 1, slotsAt b 2, slotsAt c 1]
  | .chachaQr _ a => [bytesAt a 16]
  | .chachaBlock _ c => [slotsAt c 2]
  | .chachaXor _ a c l1 => [bytesAt a l1.toNat, slotsAt c 2]
  | .poly1305 _ a c l1 => [bytesAt a l1.toNat, slotsAt c 1]
  | .aeadEnc _ a b c l1 l2 => [bytesAt a l1.toNat, bytesAt b l2.toNat, slotsAt c 2]
  | .aeadDec _ a b c l1 l2 => [bytesAt a l1.toNat, appendedAt a l1.toNat 16, bytesAt b l2.toNat, slotsAt c 2]

/-- The bytes a command may write: its queued writes, each within a region of its rule's "Regions" line. -/
def writeRegions : Instr → List Region
  | .endSeq => []
  | .nop => []
  | .ldc d _ => [slotsAt d 1]
  | .add d _ _ => [slotsAt d 1]
  | .sub d _ _ => [slotsAt d 1]
  | .mul d _ _ => [slotsAt d 2]
  | .cmp _ _ => []
  | .modadd d _ _ _ => [slotsAt d 1]
  | .modsub d _ _ _ => [slotsAt d 1]
  | .modmul d _ _ _ => [slotsAt d 1]
  | .montmul d _ _ _ => [slotsAt d 1]
  | .montin d _ _ => [slotsAt d 1]
  | .montout d _ _ => [slotsAt d 1]
  | .modexp d _ _ _ => [slotsAt d 1]
  | .gcd d _ _ => [slotsAt d 1]
  | .modinv d _ _ => [slotsAt d 1]
  | .modinvvt d _ _ => [slotsAt d 1]
  | .ecadd d _ _ => [slotsAt d 2]
  | .ecdbl d _ => [slotsAt d 2]
  | .ecmul d _ _ => [slotsAt d 2]
  | .ecmulg d _ => [slotsAt d 2]
  | .ecchk _ => []
  | .pkenc d _ compressed => [bytesAt d (pkencLength compressed)]
  | .pkdec d _ _ => [slotsAt d 2]
  | .ecdsaSign d _ _ _ _ => [slotsAt d 2]
  | .ecdsaVerify _ _ _ _ => []
  | .sha256Init c => [slotsAt c 4]
  | .sha256Update _ c _ => [bytesAt c 104]
  | .sha256Final d c => [bytesAt c 105, slotsAt d 1]
  | .sha256Compress _ c => [slotsAt c 1]
  | .keccakInit c => [slotsAt c 7]
  | .keccakUpdate _ c _ => [bytesAt c 201]
  | .keccakFinal d c => [bytesAt c 202, slotsAt d 1]
  | .keccakf c => [bytesAt c 200]
  | .b3Compress d _ _ _ => [slotsAt d 2]
  | .chachaQr d _ => [bytesAt d 16]
  | .chachaBlock d _ => [slotsAt d 2]
  | .chachaXor d _ c l1 => [appendedAt c 32 4, appendedAt c 48 1, bytesAt d l1.toNat]
  | .poly1305 d _ _ _ => [bytesAt d 16]
  | .aeadEnc d _ _ _ l1 _ => [bytesAt d (l1.toNat + 16)]
  | .aeadDec d _ _ _ l1 _ => [bytesAt d l1.toNat]

/-- The regions of a command's "Regions" line that it writes in, each whole: where a rule writes part of a listed
region (a hash context, a key context), the region it lists. A command in progress when a warm reset asserts may
leave any byte of them unspecified (spec/70_reset_and_hazards.md R472, log entry 6). -/
def listedWriteRegions (i : Instr) : List Region :=
  match i with
  | .sha256Update _ c _ => [slotsAt c 4]
  | .sha256Final d c => [slotsAt c 4, slotsAt d 1]
  | .keccakUpdate _ c _ => [slotsAt c 7]
  | .keccakFinal d c => [slotsAt c 7, slotsAt d 1]
  | .chachaXor d _ c l1 => [slotsAt c 2, bytesAt d l1.toNat]
  | .endSeq | .nop | .ldc _ _ | .add _ _ _ | .sub _ _ _ | .mul _ _ _ | .cmp _ _ | .modadd _ _ _ _ | .modsub _ _ _ _
  | .modmul _ _ _ _ | .montmul _ _ _ _ | .montin _ _ _ | .montout _ _ _ | .modexp _ _ _ _ | .gcd _ _ _
  | .modinv _ _ _ | .modinvvt _ _ _ | .ecadd _ _ _ | .ecdbl _ _ | .ecmul _ _ _ | .ecmulg _ _ | .ecchk _
  | .pkenc _ _ _ | .pkdec _ _ _ | .ecdsaSign _ _ _ _ _ | .ecdsaVerify _ _ _ _ | .sha256Init _
  | .sha256Compress _ _ | .keccakInit _ | .keccakf _ | .b3Compress _ _ _ _ | .chachaQr _ _ | .chachaBlock _ _
  | .poly1305 _ _ _ _ | .aeadEnc _ _ _ _ _ _ | .aeadDec _ _ _ _ _ _ => writeRegions i

/-- The part of a region that lies in DM (spec/10_state.md R32). -/
def Region.inDm (r : Region) : Region := ⟨r.start, min r.size (4096 - r.start)⟩

/-- The range check of spec/30_encoding.md R116: a function of the command word alone. -/
def regionsInRange (i : Instr) : Bool := (readRegions i ++ writeRegions i).all Region.inRange

/-- A command other than END: its range check, then its rule, then its end (spec/30_encoding.md R115, R117). -/
def runRule (i : Instr) (rule : State → Result) (s : State) : Host.Outcome State Fault Refusal :=
  if regionsInRange i then retire (rule s) s else .next (haltError .range s.pc s)

/-- `w[X]` (spec/00_scope.md R10, spec/20_memory.md R81). -/
def slotValue (s : State) (x : Slot) : Nat := be (memRead s (slotAddr x) 32)

/-- `w[X+1]`, for an operand of two slots (spec/20_memory.md R82). -/
def nextSlotValue (s : State) (x : Slot) : Nat := be (memRead s (slotAddr x + 32) 32)

/-- `w[X] <- v` (spec/00_scope.md R10). -/
def putSlot (x : Slot) (v : Nat) : Write := ⟨slotAddr x, beBytes 32 v⟩

/-- `w[X+1] <- v`, for an operand of two slots (spec/20_memory.md R82). -/
def putNextSlot (x : Slot) (v : Nat) : Write := ⟨slotAddr x + 32, beBytes 32 v⟩

/-- `w2[X] <- v` (spec/00_scope.md R10). -/
def putWide (x : Slot) (v : Nat) : Write := ⟨slotAddr x, beBytes 64 v⟩

/-- `MemWrite(32*X, len(bs), bs)` (spec/00_scope.md R10). -/
def putBytes (x : Slot) (bs : List Byte) : Write := ⟨slotAddr x, bs⟩

/-- The effect of a rule that writes one slot and no flag. -/
def slotResult (x : Slot) (v : Nat) : Result := .ok { writes := [putSlot x v] }

/-- The effect of a rule that writes byte strings, in order, and no flag. -/
def writesResult (ws : List Write) : Result := .ok { writes := ws }

end Sys2Proof.Machine
end

