-- ==== Sys2Proof/Machine/BigInt.lean ====
section
/-! DEFINITION. Fixed-width integer and modular commands (spec/41_bigint_modular.md): integer arithmetic, modular
arithmetic, the Montgomery multiplier, the exponentiation engine, GCD and the two inverses. -/

namespace Sys2Proof.Machine

/-- `(a - b) mod m`, the mathematical residue in `[0, m)` (spec/00_scope.md R8, spec/41_bigint_modular.md R175). -/
def subMod (a b m : Nat) : Nat := (((a : Int) - (b : Int)) % (m : Int)).toNat

/-- `R^-1 mod m` for `R = 2^256` and odd `m` (spec/41_bigint_modular.md R177): since `(m+1)/2` is the inverse of 2,
its 256th power is the inverse of `2^256`. -/
def montRinv (m : Nat) : Nat := ((m + 1) / 2) ^ 256 % m

/-- One bit position of the exponentiation engine (spec/41_bigint_modular.md R180): square, multiply, select. -/
def modexpStep (g e m i r : Nat) : Nat := if e.testBit i then r * r % m * g % m else r * r % m

/-- Bit positions `n - 1` down to 0 of the exponentiation engine (spec/41_bigint_modular.md R180). -/
def modexpLoop (g e m : Nat) : Nat → Nat → Nat
  | 0, r => r
  | i + 1, r => modexpLoop g e m i (modexpStep g e m i r)

/-- `a^e mod m` by the fixed 256-step square-and-multiply of spec/41_bigint_modular.md R180. -/
def modexp (a e m : Nat) : Nat := modexpLoop (a % m) e m 256 (1 % m)

/-- Halve while even, at most `fuel` times (spec/41_bigint_modular.md R181, spec/70_reset_and_hazards.md R482). -/
def oddPart : Nat → Nat → Nat
  | 0, x => x
  | fuel + 1, x => if x % 2 = 0 then oddPart fuel (x / 2) else x

/-- The largest `j <= fuel` with `2^j` dividing both (spec/41_bigint_modular.md R181). -/
def commonTwos : Nat → Nat → Nat → Nat
  | 0, _, _ => 0
  | fuel + 1, a, b => if a % 2 = 0 ∧ b % 2 = 0 then commonTwos fuel (a / 2) (b / 2) + 1 else 0

/-- The subtractions of Stein's algorithm (spec/41_bigint_modular.md R181), at most `fuel` of them. -/
def steinLoop : Nat → Nat → Nat → Nat
  | 0, a, _ => a
  | fuel + 1, a, b =>
    if b = 0 then a
    else
      let b := oddPart 256 b
      if b < a then steinLoop fuel b (a - b) else steinLoop fuel a (b - a)

/-- The engine's algorithm for GCD, Stein's, with the bounds of spec/70_reset_and_hazards.md R482. The command's
value is the greatest common divisor (spec/41_bigint_modular.md R181); that this computes it is an obligation. -/
def steinGcd (a b : Nat) : Nat :=
  if a = 0 then b
  else if b = 0 then a
  else
    let k := commonTwos 256 a b
    steinLoop 512 (oddPart 256 (a / 2 ^ k)) (b / 2 ^ k) * 2 ^ k

/-- The extended Euclidean algorithm, keeping `s0 * a = r0` and `s1 * a = r1` modulo `m`; at most `fuel` divisions. -/
def inverseLoop (m : Nat) : Nat → Nat → Nat → Nat → Nat → Nat
  | 0, _, _, s0, _ => s0
  | fuel + 1, r0, r1, s0, s1 =>
    if r1 = 0 then s0 else inverseLoop m fuel r1 (r0 % r1) s1 (subMod s0 (r0 / r1 * s1) m)

/-- The `x` in `[1, m)` with `a * x mod m = 1`, for `a` invertible modulo `m >= 2` (spec/41_bigint_modular.md R183,
the extended-GCD form; 512 divisions are enough for 256-bit operands). -/
def inverseMod (a m : Nat) : Nat := inverseLoop m 512 m (a % m) 0 1

/-- The rule of ADD (spec/41_bigint_modular.md R170). -/
def ruleAdd (d a b : Slot) (s : State) : Result :=
  .ok { writes := [putSlot d ((slotValue s a + slotValue s b) % 2 ^ 256)]
        c := some (carryOut (slotValue s a) (slotValue s b)) }

/-- ADD (spec/41_bigint_modular.md R170). -/
def execAdd (d a b : Slot) (s : State) : Host.Outcome State Fault Refusal := runRule (.add d a b) (ruleAdd d a b) s

/-- The rule of SUB (spec/41_bigint_modular.md R171). -/
def ruleSub (d a b : Slot) (s : State) : Result :=
  .ok { writes := [putSlot d (subMod (slotValue s a) (slotValue s b) (2 ^ 256))]
        c := some (borrowOut (slotValue s a) (slotValue s b)) }

/-- SUB (spec/41_bigint_modular.md R171). -/
def execSub (d a b : Slot) (s : State) : Host.Outcome State Fault Refusal := runRule (.sub d a b) (ruleSub d a b) s

/-- The rule of MUL (spec/41_bigint_modular.md R172). -/
def ruleMul (d a b : Slot) (s : State) : Result :=
  writesResult [putWide d (slotValue s a * slotValue s b)]

/-- MUL (spec/41_bigint_modular.md R172). -/
def execMul (d a b : Slot) (s : State) : Host.Outcome State Fault Refusal := runRule (.mul d a b) (ruleMul d a b) s

/-- The rule of CMP (spec/41_bigint_modular.md R173). -/
def ruleCmp (a b : Slot) (s : State) : Result :=
  .ok { cmp := some (compare256 (slotValue s a) (slotValue s b)) }

/-- CMP (spec/41_bigint_modular.md R173). -/
def execCmp (a b : Slot) (s : State) : Host.Outcome State Fault Refusal := runRule (.cmp a b) (ruleCmp a b) s

/-- The rule of MODADD (spec/41_bigint_modular.md R174). -/
def ruleModadd (d a b c : Slot) (s : State) : Result :=
  if slotValue s c = 0 then .error .domain
  else slotResult d ((slotValue s a + slotValue s b) % slotValue s c)

/-- MODADD (spec/41_bigint_modular.md R174). -/
def execModadd (d a b c : Slot) (s : State) : Host.Outcome State Fault Refusal :=
  runRule (.modadd d a b c) (ruleModadd d a b c) s

/-- The rule of MODSUB (spec/41_bigint_modular.md R175). -/
def ruleModsub (d a b c : Slot) (s : State) : Result :=
  if slotValue s c = 0 then .error .domain
  else slotResult d (subMod (slotValue s a) (slotValue s b) (slotValue s c))

/-- MODSUB (spec/41_bigint_modular.md R175). -/
def execModsub (d a b c : Slot) (s : State) : Host.Outcome State Fault Refusal :=
  runRule (.modsub d a b c) (ruleModsub d a b c) s

/-- The rule of MODMUL (spec/41_bigint_modular.md R176). -/
def ruleModmul (d a b c : Slot) (s : State) : Result :=
  if slotValue s c = 0 then .error .domain
  else slotResult d (slotValue s a * slotValue s b % slotValue s c)

/-- MODMUL (spec/41_bigint_modular.md R176). -/
def execModmul (d a b c : Slot) (s : State) : Host.Outcome State Fault Refusal :=
  runRule (.modmul d a b c) (ruleModmul d a b c) s

/-- The rule of MONTMUL (spec/41_bigint_modular.md R177). -/
def ruleMontmul (d a b c : Slot) (s : State) : Result :=
  if slotValue s c % 2 = 0 then .error .domain
  else slotResult d (slotValue s a * slotValue s b * montRinv (slotValue s c) % slotValue s c)

/-- MONTMUL (spec/41_bigint_modular.md R177). -/
def execMontmul (d a b c : Slot) (s : State) : Host.Outcome State Fault Refusal :=
  runRule (.montmul d a b c) (ruleMontmul d a b c) s

/-- The rule of MONTIN (spec/41_bigint_modular.md R178). -/
def ruleMontin (d a c : Slot) (s : State) : Result :=
  if slotValue s c % 2 = 0 then .error .domain
  else slotResult d (slotValue s a * 2 ^ 256 % slotValue s c)

/-- MONTIN (spec/41_bigint_modular.md R178). -/
def execMontin (d a c : Slot) (s : State) : Host.Outcome State Fault Refusal :=
  runRule (.montin d a c) (ruleMontin d a c) s

/-- The rule of MONTOUT (spec/41_bigint_modular.md R179). -/
def ruleMontout (d a c : Slot) (s : State) : Result :=
  if slotValue s c % 2 = 0 then .error .domain
  else slotResult d (slotValue s a * montRinv (slotValue s c) % slotValue s c)

/-- MONTOUT (spec/41_bigint_modular.md R179). -/
def execMontout (d a c : Slot) (s : State) : Host.Outcome State Fault Refusal :=
  runRule (.montout d a c) (ruleMontout d a c) s

/-- The rule of MODEXP (spec/41_bigint_modular.md R180). -/
def ruleModexp (d a b c : Slot) (s : State) : Result :=
  if slotValue s c = 0 then .error .domain
  else slotResult d (modexp (slotValue s a) (slotValue s b) (slotValue s c))

/-- MODEXP (spec/41_bigint_modular.md R180). -/
def execModexp (d a b c : Slot) (s : State) : Host.Outcome State Fault Refusal :=
  runRule (.modexp d a b c) (ruleModexp d a b c) s

/-- The rule of GCD (spec/41_bigint_modular.md R181): the greatest common divisor, `gcd(0, 0) = 0`. -/
def ruleGcd (d a b : Slot) (s : State) : Result :=
  slotResult d (Nat.gcd (slotValue s a) (slotValue s b))

/-- GCD (spec/41_bigint_modular.md R181). -/
def execGcd (d a b : Slot) (s : State) : Host.Outcome State Fault Refusal := runRule (.gcd d a b) (ruleGcd d a b) s

/-- The rule of MODINV (spec/41_bigint_modular.md R182). -/
def ruleModinv (d a c : Slot) (s : State) : Result :=
  if slotValue s c < 2 then .error .domain
  else
    let x := modexp (slotValue s a) (slotValue s c - 2) (slotValue s c)
    if slotValue s a * x % slotValue s c = 1 then slotResult d x else .error .domain

/-- MODINV (spec/41_bigint_modular.md R182). -/
def execModinv (d a c : Slot) (s : State) : Host.Outcome State Fault Refusal :=
  runRule (.modinv d a c) (ruleModinv d a c) s

/-- The rule of MODINVVT (spec/41_bigint_modular.md R183). -/
def ruleModinvvt (d a c : Slot) (s : State) : Result :=
  if slotValue s c < 2 then .error .domain
  else if Nat.gcd (slotValue s a % slotValue s c) (slotValue s c) = 1 then
    slotResult d (inverseMod (slotValue s a) (slotValue s c))
  else .error .domain

/-- MODINVVT (spec/41_bigint_modular.md R183). -/
def execModinvvt (d a c : Slot) (s : State) : Host.Outcome State Fault Refusal :=
  runRule (.modinvvt d a c) (ruleModinvvt d a c) s

end Sys2Proof.Machine
end

