-- ==== Sys2Proof/Machine/Sha256.lean ====
section
/-! DEFINITION. SHA-256 (spec/44_sha256.md): the compression function, the padding, and the hash-context commands. -/

namespace Sys2Proof.Machine

/-- `Ch` (spec/44_sha256.md R280). -/
def shaCh (x y z : W32) : W32 := (x &&& y) ^^^ ((~~~x) &&& z)

/-- `Maj` (spec/44_sha256.md R280). -/
def shaMaj (x y z : W32) : W32 := (x &&& y) ^^^ (x &&& z) ^^^ (y &&& z)

/-- `Σ0` (spec/44_sha256.md R280). -/
def shaBigSigma0 (x : W32) : W32 := x.rotateRight 2 ^^^ x.rotateRight 13 ^^^ x.rotateRight 22

/-- `Σ1` (spec/44_sha256.md R280). -/
def shaBigSigma1 (x : W32) : W32 := x.rotateRight 6 ^^^ x.rotateRight 11 ^^^ x.rotateRight 25

/-- `σ0` (spec/44_sha256.md R280). -/
def shaSigma0 (x : W32) : W32 := x.rotateRight 7 ^^^ x.rotateRight 18 ^^^ (x >>> 3)

/-- `σ1` (spec/44_sha256.md R280). -/
def shaSigma1 (x : W32) : W32 := x.rotateRight 17 ^^^ x.rotateRight 19 ^^^ (x >>> 10)

/-- `K[0..31]` (spec/44_sha256.md R281). -/
def shaKLow : List W32 :=
  [ 0x428A2F98, 0x71374491, 0xB5C0FBCF, 0xE9B5DBA5, 0x3956C25B, 0x59F111F1, 0x923F82A4, 0xAB1C5ED5,
    0xD807AA98, 0x12835B01, 0x243185BE, 0x550C7DC3, 0x72BE5D74, 0x80DEB1FE, 0x9BDC06A7, 0xC19BF174,
    0xE49B69C1, 0xEFBE4786, 0x0FC19DC6, 0x240CA1CC, 0x2DE92C6F, 0x4A7484AA, 0x5CB0A9DC, 0x76F988DA,
    0x983E5152, 0xA831C66D, 0xB00327C8, 0xBF597FC7, 0xC6E00BF3, 0xD5A79147, 0x06CA6351, 0x14292967 ]

/-- `K[32..63]` (spec/44_sha256.md R281). -/
def shaKHigh : List W32 :=
  [ 0x27B70A85, 0x2E1B2138, 0x4D2C6DFC, 0x53380D13, 0x650A7354, 0x766A0ABB, 0x81C2C92E, 0x92722C85,
    0xA2BFE8A1, 0xA81A664B, 0xC24B8B70, 0xC76C51A3, 0xD192E819, 0xD6990624, 0xF40E3585, 0x106AA070,
    0x19A4C116, 0x1E376C08, 0x2748774C, 0x34B0BCB5, 0x391C0CB3, 0x4ED8AA4A, 0x5B9CCA4F, 0x682E6FF3,
    0x748F82EE, 0x78A5636F, 0x84C87814, 0x8CC70208, 0x90BEFFFA, 0xA4506CEB, 0xBEF9A3F7, 0xC67178F2 ]

/-- `K[0..63]` (spec/44_sha256.md R281). -/
def shaK : List W32 := shaKLow ++ shaKHigh

/-- `IV[0..7]` (spec/44_sha256.md R282); BLAKE3 uses the same words (spec/46_blake3.md R342). -/
def shaIv : List W32 :=
  [ 0x6A09E667, 0xBB67AE85, 0x3C6EF372, 0xA54FF53A, 0x510E527F, 0x9B05688C, 0x1F83D9AB, 0x5BE0CD19 ]

/-- `W[t]` from the words before it, newest first (spec/44_sha256.md R283). -/
def shaNextWord (older : List W32) : W32 :=
  shaSigma1 (older.getD 1 0) + older.getD 6 0 + shaSigma0 (older.getD 14 0) + older.getD 15 0

/-- `n` more schedule words, newest first (spec/44_sha256.md R283). -/
def shaExtend : Nat → List W32 → List W32
  | 0, older => older
  | n + 1, older => shaExtend n (shaNextWord older :: older)

/-- `W[0..63]` (spec/44_sha256.md R283). -/
def shaSchedule (block : List Byte) : List W32 := (shaExtend 48 (be32Words block).reverse).reverse

/-- The working variables of the compression function (spec/44_sha256.md R283). -/
structure ShaVars where
  a : W32
  b : W32
  c : W32
  d : W32
  e : W32
  f : W32
  g : W32
  h : W32
deriving DecidableEq, Repr

/-- `(a, ..., h) <- (H[0], ..., H[7])` (spec/44_sha256.md R283). -/
def shaVarsOf (hs : List W32) : ShaVars :=
  ⟨hs.getD 0 0, hs.getD 1 0, hs.getD 2 0, hs.getD 3 0, hs.getD 4 0, hs.getD 5 0, hs.getD 6 0, hs.getD 7 0⟩

/-- One round with `K[t]` and `W[t]` (spec/44_sha256.md R283). -/
def shaRound (x : ShaVars) (kw : W32 × W32) : ShaVars :=
  let t1 := x.h + shaBigSigma1 x.e + shaCh x.e x.f x.g + kw.1 + kw.2
  let t2 := shaBigSigma0 x.a + shaMaj x.a x.b x.c
  { a := t1 + t2, b := x.a, c := x.b, d := x.c, e := x.d + t1, f := x.e, g := x.f, h := x.g }

/-- The feed-forward (spec/44_sha256.md R283). -/
def shaFeedForward (hs : List W32) (x : ShaVars) : List W32 :=
  List.zipWith (fun u w => u + w) hs [x.a, x.b, x.c, x.d, x.e, x.f, x.g, x.h]

/-- `compress(H, M)` (spec/44_sha256.md R283). -/
def shaCompress (hs : List W32) (block : List Byte) : List W32 :=
  shaFeedForward hs ((shaK.zip (shaSchedule block)).foldl shaRound (shaVarsOf hs))

/-- Compress the first `n` 64-byte blocks of `data` in order: the new state and the bytes left
(spec/44_sha256.md R287). -/
def shaAbsorb : Nat → List W32 → List Byte → List W32 × List Byte
  | 0, hs, data => (hs, data)
  | n + 1, hs, data => shaAbsorb n (shaCompress hs (data.take 64)) (data.drop 64)

/-- `z`: the least non-negative integer with `(N + 1 + z + 8) mod 64 = 0` (spec/44_sha256.md R290). -/
def shaPadZeros (n : Nat) : Nat := (119 - n % 64) % 64

/-- What follows the message in its padded form: `0x80 ‖ zeros(z) ‖ be_8(8N)` (spec/44_sha256.md R290). -/
def shaPadding (n : Nat) : List Byte := (0x80 : Byte) :: (zeros (shaPadZeros n) ++ beBytes 8 (8 * n))

/-- `SHA-256(m)` (spec/44_sha256.md R290): the one-shot function, which the streaming commands must agree with. -/
def sha256 (m : List Byte) : List Byte :=
  wordsBe32 (shaAbsorb ((m ++ shaPadding m.length).length / 64) shaIv (m ++ shaPadding m.length)).1

/-- The 128 bytes SHA256_INIT writes (spec/44_sha256.md R286). -/
def shaInitContext : List Byte := wordsBe32 shaIv ++ zeros 64 ++ beBytes 8 0 ++ (1 : Byte) :: zeros 23

/-- `cnt` of a SHA-256 context (spec/44_sha256.md R284). -/
def shaCount (ctx : List Byte) : Nat := be (slice ctx 96 104)

/-- The buffered message bytes of a context (spec/44_sha256.md R284). -/
def shaBuffered (ctx : List Byte) : List Byte := slice ctx 32 (32 + shaCount ctx % 64)

/-- The first 104 bytes of the context after absorbing `data` (spec/44_sha256.md R287). -/
def shaUpdated (ctx data : List Byte) : List Byte :=
  let all := shaBuffered ctx ++ data
  let out := shaAbsorb (all.length / 64) (be32Words (ctx.take 32)) all
  wordsBe32 out.1 ++ out.2 ++ zeros (64 - out.2.length) ++ beBytes 8 (shaCount ctx + data.length)

/-- The digest a context finalizes to (spec/44_sha256.md R288). -/
def shaDigest (ctx : List Byte) : List Byte :=
  let tail := shaBuffered ctx ++ shaPadding (shaCount ctx)
  wordsBe32 (shaAbsorb (tail.length / 64) (be32Words (ctx.take 32)) tail).1

/-- The rule of SHA256_INIT (spec/44_sha256.md R286). -/
def ruleSha256Init (c : Slot) (_ : State) : Result := writesResult [putBytes c shaInitContext]

/-- SHA256_INIT (spec/44_sha256.md R286). -/
def execSha256Init (c : Slot) (s : State) : Host.Outcome State Fault Refusal :=
  runRule (.sha256Init c) (ruleSha256Init c) s

/-- The rule of SHA256_UPDATE (spec/44_sha256.md R287). -/
def ruleSha256Update (a c : Slot) (l1 : Len) (s : State) : Result :=
  let ctx := memRead s (slotAddr c) 128
  if byteAt ctx 104 ≠ 1 then .error .misuse
  else if 2 ^ 61 ≤ shaCount ctx + l1.toNat then .error .misuse
  else writesResult [putBytes c (shaUpdated ctx (memRead s (slotAddr a) l1.toNat))]

/-- SHA256_UPDATE (spec/44_sha256.md R287). -/
def execSha256Update (a c : Slot) (l1 : Len) (s : State) : Host.Outcome State Fault Refusal :=
  runRule (.sha256Update a c l1) (ruleSha256Update a c l1) s

/-- The rule of SHA256_FINAL (spec/44_sha256.md R288): the context is zeroised first, the digest written second. -/
def ruleSha256Final (d c : Slot) (s : State) : Result :=
  let ctx := memRead s (slotAddr c) 128
  if byteAt ctx 104 ≠ 1 then .error .misuse
  else if 2 ^ 61 ≤ shaCount ctx then .error .misuse
  else writesResult [putBytes c (zeros 104 ++ [2]), putBytes d (shaDigest ctx)]

/-- SHA256_FINAL (spec/44_sha256.md R288). -/
def execSha256Final (d c : Slot) (s : State) : Host.Outcome State Fault Refusal :=
  runRule (.sha256Final d c) (ruleSha256Final d c) s

/-- The rule of SHA256_COMPRESS (spec/44_sha256.md R289). -/
def ruleSha256Compress (a c : Slot) (s : State) : Result :=
  writesResult [putBytes c
    (wordsBe32 (shaCompress (be32Words (memRead s (slotAddr c) 32)) (memRead s (slotAddr a) 64)))]

/-- SHA256_COMPRESS (spec/44_sha256.md R289). -/
def execSha256Compress (a c : Slot) (s : State) : Host.Outcome State Fault Refusal :=
  runRule (.sha256Compress a c) (ruleSha256Compress a c) s

end Sys2Proof.Machine
end

