-- ==== Sys2Proof/Machine/Blake3.lean ====
section
/-! DEFINITION. The BLAKE3 tree-hash node (spec/46_blake3.md). -/

namespace Sys2Proof.Machine

/-- `PERM` (spec/46_blake3.md R342). -/
def b3Perm : List Nat := [2, 6, 3, 10, 7, 0, 4, 13, 1, 11, 12, 5, 9, 14, 15, 8]

/-- The message permutation `m'[i] = m[PERM[i]]` (spec/46_blake3.md R342). -/
def b3Permute (m : List W32) : List W32 := b3Perm.map fun i => m.getD i 0

/-- `G(v, a, b, c, d, x, y)` (spec/46_blake3.md R343). -/
def b3G (v : List W32) (a b c d : Nat) (x y : W32) : List W32 :=
  let va := v.getD a 0 + v.getD b 0 + x
  let vd := (v.getD d 0 ^^^ va).rotateRight 16
  let vc := v.getD c 0 + vd
  let vb := (v.getD b 0 ^^^ vc).rotateRight 12
  let va' := va + vb + y
  let vd' := (vd ^^^ va').rotateRight 8
  let vc' := vc + vd'
  let vb' := (vb ^^^ vc').rotateRight 7
  (((v.set a va').set b vb').set c vc').set d vd'

/-- `round(v, m)`: four column calls, then four diagonal calls (spec/46_blake3.md R343). -/
def b3Round (v m : List W32) : List W32 :=
  let v := b3G v 0 4 8 12 (m.getD 0 0) (m.getD 1 0)
  let v := b3G v 1 5 9 13 (m.getD 2 0) (m.getD 3 0)
  let v := b3G v 2 6 10 14 (m.getD 4 0) (m.getD 5 0)
  let v := b3G v 3 7 11 15 (m.getD 6 0) (m.getD 7 0)
  let v := b3G v 0 5 10 15 (m.getD 8 0) (m.getD 9 0)
  let v := b3G v 1 6 11 12 (m.getD 10 0) (m.getD 11 0)
  let v := b3G v 2 7 8 13 (m.getD 12 0) (m.getD 13 0)
  b3G v 3 4 9 14 (m.getD 14 0) (m.getD 15 0)

/-- `n` rounds, permuting the message after each (spec/46_blake3.md R347). -/
def b3Rounds : Nat → List W32 → List W32 → List W32
  | 0, v, _ => v
  | n + 1, v, m => b3Rounds n (b3Round v m) (b3Permute m)

/-- `b3compress(cv, m, t, b, d)` (spec/46_blake3.md R347): 16 words. -/
def b3CompressWords (cv m : List W32) (t b d : Nat) : List W32 :=
  let v := b3Rounds 7 (cv ++ shaIv.take 4 ++
    [BitVec.ofNat 32 t, BitVec.ofNat 32 (t / 2 ^ 32), BitVec.ofNat 32 b, BitVec.ofNat 32 d]) m
  List.zipWith (fun x y => x ^^^ y) (v.take 8) (v.drop 8) ++ List.zipWith (fun x y => x ^^^ y) (v.drop 8) cv

/-- The rule of B3_COMPRESS (spec/46_blake3.md R345): chaining value A, block B, parameters C (R344). -/
def ruleB3Compress (d a b c : Slot) (s : State) : Result :=
  let prm := memRead s (slotAddr c) 32
  if 64 < (byteAt prm 8).toNat then .error .encoding
  else writesResult [putBytes d (wordsLe32 (b3CompressWords
    (le32Words (memRead s (slotAddr a) 32)) (le32Words (memRead s (slotAddr b) 64))
    (le (slice prm 0 8)) (byteAt prm 8).toNat (byteAt prm 9).toNat))]

/-- B3_COMPRESS (spec/46_blake3.md R345). -/
def execB3Compress (d a b c : Slot) (s : State) : Host.Outcome State Fault Refusal :=
  runRule (.b3Compress d a b c) (ruleB3Compress d a b c) s

end Sys2Proof.Machine
end

