-- ==== Sys2Proof/Machine/ChaCha20.lean ====
section
/-! DEFINITION. ChaCha20 (spec/47_chacha20.md): quarter round, block function, keystream, and the commands over a
caller-owned key context. -/

namespace Sys2Proof.Machine

/-- `QR(a, b, c, d)` (spec/47_chacha20.md R371). -/
def quarterRound (a b c d : W32) : W32 × W32 × W32 × W32 :=
  let a1 := a + b
  let d1 := (d ^^^ a1).rotateLeft 16
  let c1 := c + d1
  let b1 := (b ^^^ c1).rotateLeft 12
  let a2 := a1 + b1
  let d2 := (d1 ^^^ a2).rotateLeft 8
  let c2 := c1 + d2
  let b2 := (b1 ^^^ c2).rotateLeft 7
  (a2, b2, c2, d2)

/-- `x[i],x[j],x[k],x[l] <- QR(x[i],x[j],x[k],x[l])` (spec/47_chacha20.md R372). -/
def quarterAt (i j k l : Nat) (x : List W32) : List W32 :=
  let q := quarterRound (x.getD i 0) (x.getD j 0) (x.getD k 0) (x.getD l 0)
  (((x.set i q.1).set j q.2.1).set k q.2.2.1).set l q.2.2.2

/-- One double round: columns, then diagonals (spec/47_chacha20.md R372). -/
def doubleRound (x : List W32) : List W32 :=
  let x := quarterAt 0 4 8 12 x
  let x := quarterAt 1 5 9 13 x
  let x := quarterAt 2 6 10 14 x
  let x := quarterAt 3 7 11 15 x
  let x := quarterAt 0 5 10 15 x
  let x := quarterAt 1 6 11 12 x
  let x := quarterAt 2 7 8 13 x
  quarterAt 3 4 9 14 x

/-- `n` double rounds (spec/47_chacha20.md R372). -/
def doubleRounds : Nat → List W32 → List W32
  | 0, x => x
  | n + 1, x => doubleRounds n (doubleRound x)

/-- The initial state (spec/47_chacha20.md R370). -/
def chachaState (key : List Byte) (counter : Nat) (nonce : List Byte) : List W32 :=
  [0x61707865, 0x3320646E, 0x79622D32, 0x6B206574] ++ le32Words key ++ BitVec.ofNat 32 counter :: le32Words nonce

/-- `block(K, c, N)`: 64 bytes of keystream (spec/47_chacha20.md R372). -/
def chachaBlock (key : List Byte) (counter : Nat) (nonce : List Byte) : List Byte :=
  let x := chachaState key counter nonce
  wordsLe32 (List.zipWith (fun u w => u + w) (doubleRounds 10 x) x)

/-- `n` keystream blocks from a counter up (spec/47_chacha20.md R372). -/
def keystream (key nonce : List Byte) : Nat → Nat → List Byte
  | _, 0 => []
  | c, n + 1 => chachaBlock key c nonce ++ keystream key nonce (c + 1) n

/-- `ceil(L / 64)`: the blocks a byte string of length `L` uses (spec/47_chacha20.md R376). -/
def blocksFor (l : Nat) : Nat := (l + 63) / 64

/-- The key `K` of a 64-byte key context (spec/47_chacha20.md R373). -/
def ctxKey (ctx : List Byte) : List Byte := slice ctx 0 32

/-- The counter `ctr` of a key context (spec/47_chacha20.md R373). -/
def ctxCounter (ctx : List Byte) : Nat := le (slice ctx 32 36)

/-- The nonce `N` of a key context (spec/47_chacha20.md R373). -/
def ctxNonce (ctx : List Byte) : List Byte := slice ctx 36 48

/-- The rule of CHACHA_QR (spec/47_chacha20.md R374). -/
def ruleChachaQr (d a : Slot) (s : State) : Result :=
  let x := le32Words (memRead s (slotAddr a) 16)
  let q := quarterRound (x.getD 0 0) (x.getD 1 0) (x.getD 2 0) (x.getD 3 0)
  writesResult [putBytes d (wordsLe32 [q.1, q.2.1, q.2.2.1, q.2.2.2])]

/-- CHACHA_QR (spec/47_chacha20.md R374). -/
def execChachaQr (d a : Slot) (s : State) : Host.Outcome State Fault Refusal :=
  runRule (.chachaQr d a) (ruleChachaQr d a) s

/-- The rule of CHACHA_BLOCK (spec/47_chacha20.md R375). -/
def ruleChachaBlock (d c : Slot) (s : State) : Result :=
  let ctx := memRead s (slotAddr c) 64
  writesResult [putBytes d (chachaBlock (ctxKey ctx) (ctxCounter ctx) (ctxNonce ctx))]

/-- CHACHA_BLOCK (spec/47_chacha20.md R375). -/
def execChachaBlock (d c : Slot) (s : State) : Host.Outcome State Fault Refusal :=
  runRule (.chachaBlock d c) (ruleChachaBlock d c) s

/-- The writes of a CHACHA_XOR that uses blocks (spec/47_chacha20.md R376): the counter, EXH when the last counter value
is used, then the output. -/
def chachaXorWrites (d c : Slot) (ctx input : List Byte) : List Write :=
  let next := ctxCounter ctx + blocksFor input.length
  let stream := keystream (ctxKey ctx) (ctxNonce ctx) (ctxCounter ctx) (blocksFor input.length)
  ⟨slotAddr c + 32, leBytes 4 (next % 2 ^ 32)⟩ ::
    ((if next = 2 ^ 32 then [⟨slotAddr c + 48, [1]⟩] else []) ++ [putBytes d (xorBytes input stream)])

/-- The rule of CHACHA_XOR (spec/47_chacha20.md R376). -/
def ruleChachaXor (d a c : Slot) (l1 : Len) (s : State) : Result :=
  let ctx := memRead s (slotAddr c) 64
  if 0 < blocksFor l1.toNat ∧ byteAt ctx 48 ≠ 0 then .error .misuse
  else if 2 ^ 32 < ctxCounter ctx + blocksFor l1.toNat then .error .misuse
  else if 0 < blocksFor l1.toNat then writesResult (chachaXorWrites d c ctx (memRead s (slotAddr a) l1.toNat))
  else writesResult []

/-- CHACHA_XOR (spec/47_chacha20.md R376). -/
def execChachaXor (d a c : Slot) (l1 : Len) (s : State) : Host.Outcome State Fault Refusal :=
  runRule (.chachaXor d a c l1) (ruleChachaXor d a c l1) s

end Sys2Proof.Machine
end

