-- ==== Sys2Proof/Machine/Sec2.lean ====
section
/-! DEFINITION. The secp256k1 constants (spec/42_curve.md R220) and the constant table of LDC
(spec/40_sequencer.md R157). -/

namespace Sys2Proof.Machine

/-- `p`, the field prime: `2^256 - 2^32 - 977` (spec/42_curve.md R220). -/
def secP : Nat := 0xFFFFFFFFFFFFFFFFFFFFFFFFFFFFFFFFFFFFFFFFFFFFFFFFFFFFFFFEFFFFFC2F

/-- `n`, the group order (spec/42_curve.md R220). -/
def secN : Nat := 0xFFFFFFFFFFFFFFFFFFFFFFFFFFFFFFFEBAAEDCE6AF48A03BBFD25E8CD0364141

/-- `Gx` (spec/42_curve.md R220). -/
def secGx : Nat := 0x79BE667EF9DCBBAC55A06295CE870B07029BFCDB2DCE28D959F2815B16F81798

/-- `Gy` (spec/42_curve.md R220). -/
def secGy : Nat := 0x483ADA7726A3C4655DA4FBFC0E1108A8FD17B448A68554199C47D08FFB10D4B8

/-- `HALF = floor(n/2)` (spec/43_ecdsa.md R264, spec/40_sequencer.md R157 index 4). -/
def secHalf : Nat := 0x7FFFFFFFFFFFFFFFFFFFFFFFFFFFFFFF5D576E7357A4501DDFE92F46681B20A0

/-- `(p + 1) / 4`, the square-root exponent (spec/42_curve.md R233). -/
def secSqrtExp : Nat := 0x3FFFFFFFFFFFFFFFFFFFFFFFFFFFFFFFFFFFFFFFFFFFFFFFFFFFFFFFBFFFFF0C

/-- `CONST[0..4]`, the constants LDC loads (spec/40_sequencer.md R157). -/
def ldcTable : List Nat := [secP, secN, secGx, secGy, secHalf]

end Sys2Proof.Machine
end

