-- ==== Sys2Proof/Machine/Curve.lean ====
section
/-! DEFINITION. The secp256k1 curve commands (spec/42_curve.md): points in DM, the group law, the Montgomery ladder,
point validation and the SEC1 codec. -/

namespace Sys2Proof.Machine

/-- A point: O, or affine coordinates (spec/42_curve.md R221, R222). -/
inductive Point where
  | infinity
  | affine (x y : Nat)
deriving DecidableEq, Repr

/-- `inv_m(a) = a^(m-2) mod m` (spec/00_scope.md R12), by the exponentiation engine. -/
def fermatInverse (a m : Nat) : Nat := modexp a (m - 2) m

/-- The pair `(x, y)` as a point operand: `(0, 0)` is O (spec/42_curve.md R222). -/
def pointOf (x y : Nat) : Point := if x = 0 ∧ y = 0 then .infinity else .affine x y

/-- `x(P)`; O is written with x = 0 (spec/42_curve.md R222). -/
def pointX : Point → Nat
  | .infinity => 0
  | .affine x _ => x

/-- `y(P)`; O is written with y = 0 (spec/42_curve.md R222). -/
def pointY : Point → Nat
  | .infinity => 0
  | .affine _ y => y

/-- `x < p and y < p and (y^2 - x^3 - 7) mod p = 0` (spec/42_curve.md R230). -/
def onCurve (x y : Nat) : Bool := x < secP && y < secP && y * y % secP == (x * x * x + 7) % secP

/-- A valid point operand: O, or a point of the curve (spec/42_curve.md R223). -/
def validPoint : Point → Bool
  | .infinity => true
  | .affine x y => onCurve x y

/-- `(x3, y3)` from the slope (spec/42_curve.md R221). -/
def chordPoint (slope x1 y1 x2 : Nat) : Point :=
  let x3 := subMod (slope * slope) (x1 + x2) secP
  .affine x3 (subMod (slope * subMod x1 x3 secP) y1 secP)

/-- `add(P1, P2)` (spec/42_curve.md R221). -/
def pointAdd : Point → Point → Point
  | .infinity, q => q
  | .affine x1 y1, .infinity => .affine x1 y1
  | .affine x1 y1, .affine x2 y2 =>
    if x1 = x2 ∧ (y1 + y2) % secP = 0 then .infinity
    else if x1 = x2 ∧ y1 = y2 then
      chordPoint (3 * (x1 * x1) * fermatInverse (2 * y1) secP % secP) x1 y1 x2
    else
      chordPoint (subMod y2 y1 secP * fermatInverse (subMod x2 x1 secP) secP % secP) x1 y1 x2

/-- `cswap(b, X, Y)` (spec/42_curve.md R227). -/
def cswap (b : Bool) (q : Point × Point) : Point × Point := if b then (q.2, q.1) else q

/-- The add and double of one ladder step, on swapped points (spec/42_curve.md R227). -/
def addDouble (q : Point × Point) : Point × Point := (pointAdd q.1 q.1, pointAdd q.1 q.2)

/-- Bits `i - 1` down to 0 of the Montgomery ladder (spec/42_curve.md R227). -/
def ladder (k : Nat) : Nat → Point × Point → Point × Point
  | 0, q => q
  | i + 1, q => ladder k i (cswap (k.testBit i) (addDouble (cswap (k.testBit i) q)))

/-- `smul(k, P)` (spec/42_curve.md R227). -/
def scalarMul (k : Nat) (q : Point) : Point :=
  if k % secN = 0 ∨ q = .infinity then .infinity else (ladder (k % secN) 256 (.infinity, q)).1

/-- `G` (spec/42_curve.md R220). -/
def basePoint : Point := .affine secGx secGy

/-- `pt[X]` (spec/00_scope.md R10, spec/42_curve.md R222). -/
def slotPoint (s : State) (x : Slot) : Point := pointOf (slotValue s x) (nextSlotValue s x)

/-- `pt[X] <- P` (spec/00_scope.md R10): `w[X] <- x; w[X+1] <- y`. -/
def putPoint (x : Slot) (q : Point) : List Write := [putSlot x (pointX q), putNextSlot x (pointY q)]

/-- The rule of ECADD (spec/42_curve.md R225). -/
def ruleEcadd (d a b : Slot) (s : State) : Result :=
  if validPoint (slotPoint s a) && validPoint (slotPoint s b) then
    writesResult (putPoint d (pointAdd (slotPoint s a) (slotPoint s b)))
  else .error .domain

/-- ECADD (spec/42_curve.md R225). -/
def execEcadd (d a b : Slot) (s : State) : Host.Outcome State Fault Refusal :=
  runRule (.ecadd d a b) (ruleEcadd d a b) s

/-- The rule of ECDBL (spec/42_curve.md R226). -/
def ruleEcdbl (d a : Slot) (s : State) : Result :=
  if validPoint (slotPoint s a) then writesResult (putPoint d (pointAdd (slotPoint s a) (slotPoint s a)))
  else .error .domain

/-- ECDBL (spec/42_curve.md R226). -/
def execEcdbl (d a : Slot) (s : State) : Host.Outcome State Fault Refusal := runRule (.ecdbl d a) (ruleEcdbl d a) s

/-- The rule of ECMUL (spec/42_curve.md R228). -/
def ruleEcmul (d a b : Slot) (s : State) : Result :=
  if validPoint (slotPoint s a) then writesResult (putPoint d (scalarMul (slotValue s b) (slotPoint s a)))
  else .error .domain

/-- ECMUL (spec/42_curve.md R228). -/
def execEcmul (d a b : Slot) (s : State) : Host.Outcome State Fault Refusal :=
  runRule (.ecmul d a b) (ruleEcmul d a b) s

/-- The rule of ECMULG (spec/42_curve.md R229). -/
def ruleEcmulg (d b : Slot) (s : State) : Result :=
  writesResult (putPoint d (scalarMul (slotValue s b) basePoint))

/-- ECMULG (spec/42_curve.md R229). -/
def execEcmulg (d b : Slot) (s : State) : Host.Outcome State Fault Refusal :=
  runRule (.ecmulg d b) (ruleEcmulg d b) s

/-- The rule of ECCHK (spec/42_curve.md R230): the verdict on the raw pair, so that the encoding of O gives V = 0. -/
def ruleEcchk (a : Slot) (s : State) : Result := .ok { v := some (onCurve (slotValue s a) (nextSlotValue s a)) }

/-- ECCHK (spec/42_curve.md R230). -/
def execEcchk (a : Slot) (s : State) : Host.Outcome State Fault Refusal := runRule (.ecchk a) (ruleEcchk a) s

/-- The SEC1 encoding of an affine point: compressed `0x02/0x03 ‖ x` or uncompressed `0x04 ‖ x ‖ y`
(spec/42_curve.md R231). -/
def sec1Encode (compressed : Bool) (x y : Nat) : List Byte :=
  if compressed then beBytes 1 (2 + y % 2) ++ beBytes 32 x else (4 : Byte) :: (beBytes 32 x ++ beBytes 32 y)

/-- The rule of PKENC (spec/42_curve.md R231). -/
def rulePkenc (d a : Slot) (compressed : Bool) (s : State) : Result :=
  if validPoint (slotPoint s a) && slotPoint s a != .infinity then
    writesResult [putBytes d (sec1Encode compressed (pointX (slotPoint s a)) (pointY (slotPoint s a)))]
  else .error .domain

/-- PKENC (spec/42_curve.md R231). -/
def execPkenc (d a : Slot) (compressed : Bool) (s : State) : Host.Outcome State Fault Refusal :=
  runRule (.pkenc d a compressed) (rulePkenc d a compressed) s

/-- The SEC1 decoder (spec/42_curve.md R232, R233): the coordinates, or ENCODING for a wrong length or prefix and
DOMAIN for a coordinate out of range or a point off the curve, in the order the rule lists the checks. -/
def sec1Decode (bs : List Byte) : Except ErrCode (Nat × Nat) :=
  if bs.length = 33 then
    if byteAt bs 0 ≠ 2 ∧ byteAt bs 0 ≠ 3 then .error .encoding
    else
      let x := be (slice bs 1 33)
      if secP ≤ x then .error .domain
      else
        let alpha := (x * x * x + 7) % secP
        let beta := modexp alpha secSqrtExp secP
        if beta * beta % secP ≠ alpha then .error .domain
        else if beta % 2 = (byteAt bs 0).toNat % 2 then .ok (x, beta) else .ok (x, secP - beta)
  else if bs.length = 65 then
    if byteAt bs 0 ≠ 4 then .error .encoding
    else if onCurve (be (slice bs 1 33)) (be (slice bs 33 65)) then .ok (be (slice bs 1 33), be (slice bs 33 65))
    else .error .domain
  else .error .encoding

/-- The rule of PKDEC (spec/42_curve.md R232). -/
def rulePkdec (d a : Slot) (l1 : Len) (s : State) : Result :=
  match sec1Decode (memRead s (slotAddr a) l1.toNat) with
  | .error e => .error e
  | .ok (x, y) => writesResult [putSlot d x, putNextSlot d y]

/-- PKDEC (spec/42_curve.md R232). -/
def execPkdec (d a : Slot) (l1 : Len) (s : State) : Host.Outcome State Fault Refusal :=
  runRule (.pkdec d a l1) (rulePkdec d a l1) s

end Sys2Proof.Machine
end

