-- ==== Sys2Proof/Machine/Ecdsa.lean ====
section
/-! DEFINITION. The ECDSA signature commands (spec/43_ecdsa.md). -/

namespace Sys2Proof.Machine

/-- `1 <= k < n` (spec/43_ecdsa.md R261, R262). -/
def scalarInRange (k : Nat) : Bool := 1 ≤ k && k < secN

/-- `r = x(k·G) mod n` (spec/43_ecdsa.md R261). -/
def signR (k : Nat) : Nat := pointX (scalarMul k basePoint) % secN

/-- `s = k^-1 (e + r d) mod n` (spec/43_ecdsa.md R261). -/
def signS (e d k r : Nat) : Nat := fermatInverse k secN * (e + r * d) % secN

/-- The low-s policy: `n - s` for `s > HALF` when LOWS is set (spec/43_ecdsa.md R264). -/
def lowS (lows : Bool) (x : Nat) : Nat := if lows && secHalf < x then secN - x else x

/-- The signature `(r, s)`, or DOMAIN (spec/43_ecdsa.md R261, checks in its order). -/
def ecdsaSignValue (e d k : Nat) (lows : Bool) : Except ErrCode (Nat × Nat) :=
  if !scalarInRange d then .error .domain
  else if !scalarInRange k then .error .domain
  else if signR k = 0 then .error .domain
  else if signS e d k (signR k) = 0 then .error .domain
  else .ok (signR k, lowS lows (signS e d k (signR k)))

/-- The rule of ECDSA_SIGN (spec/43_ecdsa.md R261): digest A, private key B, nonce C. -/
def ruleEcdsaSign (d a b c : Slot) (lows : Bool) (s : State) : Result :=
  match ecdsaSignValue (slotValue s a) (slotValue s b) (slotValue s c) lows with
  | .error e => .error e
  | .ok (r, x) => writesResult [putSlot d r, putNextSlot d x]

/-- ECDSA_SIGN (spec/43_ecdsa.md R261). -/
def execEcdsaSign (d a b c : Slot) (lows : Bool) (s : State) : Host.Outcome State Fault Refusal :=
  runRule (.ecdsaSign d a b c lows) (ruleEcdsaSign d a b c lows) s

/-- `X = u1·G + u2·Q` (spec/43_ecdsa.md R262). -/
def verifyPoint (e : Nat) (q : Point) (r x : Nat) : Point :=
  pointAdd (scalarMul (e * fermatInverse x secN % secN) basePoint) (scalarMul (r * fermatInverse x secN % secN) q)

/-- The verdict on a well-formed signature (spec/43_ecdsa.md R262): the low-s policy, then the equation; O is never
accepted. -/
def ecdsaAccepts (e : Nat) (q : Point) (r x : Nat) (lows : Bool) : Bool :=
  if lows && secHalf < x then false
  else
    match verifyPoint e q r x with
    | .infinity => false
    | .affine px _ => px % secN == r

/-- The verdict, or DOMAIN for a component out of range or a key that is O or off the curve (spec/43_ecdsa.md R262). -/
def ecdsaVerifyValue (e qx qy r x : Nat) (lows : Bool) : Except ErrCode Bool :=
  if !(scalarInRange r && scalarInRange x) then .error .domain
  else if pointOf qx qy = .infinity ∨ onCurve qx qy = false then .error .domain
  else .ok (ecdsaAccepts e (pointOf qx qy) r x lows)

/-- The rule of ECDSA_VERIFY (spec/43_ecdsa.md R262): digest A, public key B, signature C. -/
def ruleEcdsaVerify (a b c : Slot) (lows : Bool) (s : State) : Result :=
  match ecdsaVerifyValue (slotValue s a) (slotValue s b) (nextSlotValue s b) (slotValue s c) (nextSlotValue s c) lows with
  | .error e => .error e
  | .ok verdict => .ok { v := some verdict }

/-- ECDSA_VERIFY (spec/43_ecdsa.md R262). -/
def execEcdsaVerify (a b c : Slot) (lows : Bool) (s : State) : Host.Outcome State Fault Refusal :=
  runRule (.ecdsaVerify a b c lows) (ruleEcdsaVerify a b c lows) s

end Sys2Proof.Machine
end

