-- ==== Sys2Proof/Machine/Keccak.lean ====
section
/-! DEFINITION. Keccak-256 (spec/45_keccak.md): the permutation Keccak-f[1600], the sponge, and the context commands.
A state of 25 lanes is a list, lane `A[x][y]` at position `x + 5 y` (R312). -/

namespace Sys2Proof.Machine

/-- Row `i` of the table of spec/45_keccak.md R310, for `i` in 0..11: the constants of rounds `i` and `i + 12`. -/
def rcRow (i : Nat) : W64 × W64 :=
  match i with
  | 0 => (0x0000000000000001, 0x000000008000808B)
  | 1 => (0x0000000000008082, 0x800000000000008B)
  | 2 => (0x800000000000808A, 0x8000000000008089)
  | 3 => (0x8000000080008000, 0x8000000000008003)
  | 4 => (0x000000000000808B, 0x8000000000008002)
  | 5 => (0x0000000080000001, 0x8000000000000080)
  | 6 => (0x8000000080008081, 0x000000000000800A)
  | 7 => (0x8000000000008009, 0x800000008000000A)
  | 8 => (0x000000000000008A, 0x8000000080008081)
  | 9 => (0x0000000000000088, 0x8000000000008080)
  | 10 => (0x0000000080008009, 0x0000000080000001)
  | _ => (0x000000008000000A, 0x8000000080008008)

/-- `RC[0..23]` (spec/45_keccak.md R310): the table's left column, then its right one. -/
def keccakRc : List W64 :=
  (List.range 12).map (fun i => (rcRow i).1) ++ (List.range 12).map (fun i => (rcRow i).2)

/-- Row `x` of the table of spec/45_keccak.md R311: `r[x][y]` for `y` in 0..4. -/
def rhoRow (x : Nat) : List Nat :=
  match x with
  | 0 => [0, 36, 3, 41, 18]
  | 1 => [1, 44, 10, 45, 2]
  | 2 => [62, 6, 43, 15, 61]
  | 3 => [28, 55, 25, 21, 56]
  | _ => [27, 20, 39, 8, 14]

/-- `r[x][y]`, indices taken mod 5 (spec/45_keccak.md R311, R313). -/
def rhoOffset (x y : Nat) : Nat := (rhoRow (x % 5)).getD (y % 5) 0

/-- The position of lane `(x, y)`, indices taken mod 5 (spec/45_keccak.md R312, R313). -/
def laneIndex (x y : Nat) : Nat := x % 5 + 5 * (y % 5)

/-- Lane `A[x][y]` (spec/45_keccak.md R312). -/
def lane (st : List W64) (x y : Nat) : W64 := st.getD (laneIndex x y) 0

/-- The state whose lane at `(x, y)` is `f x y`. -/
def lanesBy (f : Nat → Nat → W64) : List W64 := (List.range 25).map fun i => f (i % 5) (i / 5)

/-- `Cx[x]` of theta (spec/45_keccak.md R313). -/
def thetaC (st : List W64) : List W64 :=
  (List.range 5).map fun x => lane st x 0 ^^^ lane st x 1 ^^^ lane st x 2 ^^^ lane st x 3 ^^^ lane st x 4

/-- `Dx[x]` of theta from the column parities (spec/45_keccak.md R313). -/
def thetaD (cs : List W64) : List W64 :=
  (List.range 5).map fun x => cs.getD ((x + 4) % 5) 0 ^^^ (cs.getD ((x + 1) % 5) 0).rotateLeft 1

/-- theta (spec/45_keccak.md R313). -/
def keccakTheta (st : List W64) : List W64 :=
  let ds := thetaD (thetaC st)
  lanesBy fun x y => lane st x y ^^^ ds.getD x 0

/-- rho and pi (spec/45_keccak.md R313): `B[y][2x + 3y]` is `A[x][y]` rotated, read from the place it comes to: the lane
at `(u, v)` comes from `x = u + 3v`, `y = u` (mod 5). -/
def keccakRhoPi (st : List W64) : List W64 :=
  lanesBy fun u v => (lane st (u + 3 * v) u).rotateLeft (rhoOffset (u + 3 * v) u)

/-- chi (spec/45_keccak.md R313). -/
def keccakChi (st : List W64) : List W64 :=
  lanesBy fun x y => lane st x y ^^^ ((~~~lane st (x + 1) y) &&& lane st (x + 2) y)

/-- iota (spec/45_keccak.md R313). -/
def keccakIota (st : List W64) (rc : W64) : List W64 := st.set 0 (lane st 0 0 ^^^ rc)

/-- One round (spec/45_keccak.md R313). -/
def keccakRound (st : List W64) (rc : W64) : List W64 := keccakIota (keccakChi (keccakRhoPi (keccakTheta st))) rc

/-- `keccakf(S)` on 200 bytes (spec/45_keccak.md R312, R313). -/
def keccakPermute (st : List Byte) : List Byte := wordsLe64 (keccakRc.foldl keccakRound (le64Words st))

/-- `S[i] <- S[i] XOR b`. -/
def xorAt (st : List Byte) (i : Nat) (b : Byte) : List Byte := st.set i (byteAt st i ^^^ b)

/-- Absorb one byte at `pos`, permuting when the rate block is full (spec/45_keccak.md R316, R319). -/
def keccakAbsorbByte (x : List Byte × Nat) (b : Byte) : List Byte × Nat :=
  if x.2 + 1 = 136 then (keccakPermute (xorAt x.1 x.2 b), 0) else (xorAt x.1 x.2 b, x.2 + 1)

/-- Absorb a byte string into a state and position (spec/45_keccak.md R316, R319). -/
def keccakAbsorb (x : List Byte × Nat) (data : List Byte) : List Byte × Nat := data.foldl keccakAbsorbByte x

/-- Pad at `pos`, permute, and squeeze 32 bytes (spec/45_keccak.md R317, R319). -/
def keccakSqueeze (st : List Byte) (pos : Nat) : List Byte :=
  (keccakPermute (xorAt (xorAt st pos 0x01) 135 0x80)).take 32

/-- `Keccak-256(m)` (spec/45_keccak.md R319): the one-shot function, which the streaming commands must agree with. -/
def keccak256 (m : List Byte) : List Byte :=
  let x := keccakAbsorb (zeros 200, 0) m
  keccakSqueeze x.1 x.2

/-- The 224 bytes KECCAK_INIT writes (spec/45_keccak.md R315). -/
def keccakInitContext : List Byte := zeros 200 ++ (0 : Byte) :: (1 : Byte) :: zeros 22

/-- `pos` of a Keccak context (spec/45_keccak.md R314). -/
def keccakPos (ctx : List Byte) : Nat := (byteAt ctx 200).toNat

/-- The rule of KECCAK_INIT (spec/45_keccak.md R315). -/
def ruleKeccakInit (c : Slot) (_ : State) : Result := writesResult [putBytes c keccakInitContext]

/-- KECCAK_INIT (spec/45_keccak.md R315). -/
def execKeccakInit (c : Slot) (s : State) : Host.Outcome State Fault Refusal :=
  runRule (.keccakInit c) (ruleKeccakInit c) s

/-- The first 201 bytes of the context after absorbing `data` (spec/45_keccak.md R316). -/
def keccakUpdated (ctx data : List Byte) : List Byte :=
  let x := keccakAbsorb (ctx.take 200, keccakPos ctx) data
  x.1 ++ [BitVec.ofNat 8 x.2]

/-- The rule of KECCAK_UPDATE (spec/45_keccak.md R316). -/
def ruleKeccakUpdate (a c : Slot) (l1 : Len) (s : State) : Result :=
  let ctx := memRead s (slotAddr c) 224
  if byteAt ctx 201 ≠ 1 then .error .misuse
  else if 136 ≤ keccakPos ctx then .error .misuse
  else writesResult [putBytes c (keccakUpdated ctx (memRead s (slotAddr a) l1.toNat))]

/-- KECCAK_UPDATE (spec/45_keccak.md R316). -/
def execKeccakUpdate (a c : Slot) (l1 : Len) (s : State) : Host.Outcome State Fault Refusal :=
  runRule (.keccakUpdate a c l1) (ruleKeccakUpdate a c l1) s

/-- The rule of KECCAK_FINAL (spec/45_keccak.md R317): the context is zeroised first, the digest written second. -/
def ruleKeccakFinal (d c : Slot) (s : State) : Result :=
  let ctx := memRead s (slotAddr c) 224
  if byteAt ctx 201 ≠ 1 then .error .misuse
  else if 136 ≤ keccakPos ctx then .error .misuse
  else writesResult
    [putBytes c (zeros 200 ++ [0, 2]), putBytes d (keccakSqueeze (ctx.take 200) (keccakPos ctx))]

/-- KECCAK_FINAL (spec/45_keccak.md R317). -/
def execKeccakFinal (d c : Slot) (s : State) : Host.Outcome State Fault Refusal :=
  runRule (.keccakFinal d c) (ruleKeccakFinal d c) s

/-- The rule of KECCAKF (spec/45_keccak.md R318). -/
def ruleKeccakf (c : Slot) (s : State) : Result :=
  writesResult [putBytes c (keccakPermute (memRead s (slotAddr c) 200))]

/-- KECCAKF (spec/45_keccak.md R318). -/
def execKeccakf (c : Slot) (s : State) : Host.Outcome State Fault Refusal := runRule (.keccakf c) (ruleKeccakf c) s

end Sys2Proof.Machine
end

