-- ==== Sys2Proof/Machine/Poly1305.lean ====
section
/-! DEFINITION. Poly1305 and the ChaCha20-Poly1305 AEAD (spec/48_poly1305_aead.md). -/

namespace Sys2Proof.Machine

/-- `r`: the clamped first half of the key (spec/48_poly1305_aead.md R400). -/
def polyR (key : List Byte) : Nat := le (slice key 0 16) &&& 0x0FFFFFFC0FFFFFFC0FFFFFFC0FFFFFFF

/-- `s`: the second half of the key (spec/48_poly1305_aead.md R400). -/
def polyS (key : List Byte) : Nat := le (slice key 16 32)

/-- `2^130 - 5` (spec/48_poly1305_aead.md R401). -/
def polyPrime : Nat := 0x3FFFFFFFFFFFFFFFFFFFFFFFFFFFFFFFB

/-- The accumulator over the first `n` 16-byte pieces of `msg` (spec/48_poly1305_aead.md R401). -/
def polyLoop (r : Nat) : Nat → List Byte → Nat → Nat
  | 0, _, acc => acc
  | n + 1, msg, acc => polyLoop r n (msg.drop 16) ((acc + le (msg.take 16 ++ [1])) * r % polyPrime)

/-- `poly1305(key, msg)`: the 16-byte tag (spec/48_poly1305_aead.md R401). -/
def poly1305Tag (key msg : List Byte) : List Byte :=
  leBytes 16 ((polyLoop (polyR key) ((msg.length + 15) / 16) msg 0 + polyS key) % 2 ^ 128)

/-- The rule of POLY1305 (spec/48_poly1305_aead.md R402). -/
def rulePoly1305 (d a c : Slot) (l1 : Len) (s : State) : Result :=
  writesResult [putBytes d (poly1305Tag (memRead s (slotAddr c) 32) (memRead s (slotAddr a) l1.toNat))]

/-- POLY1305 (spec/48_poly1305_aead.md R402). -/
def execPoly1305 (d a c : Slot) (l1 : Len) (s : State) : Host.Outcome State Fault Refusal :=
  runRule (.poly1305 d a c l1) (rulePoly1305 d a c l1) s

/-- `otk(K, N)` (spec/48_poly1305_aead.md R403). -/
def oneTimeKey (key nonce : List Byte) : List Byte := (chachaBlock key 0 nonce).take 32

/-- `pad16(x)` (spec/48_poly1305_aead.md R404). -/
def pad16 (x : Nat) : Nat := (16 - x % 16) % 16

/-- `mac_data(aad, ct)` (spec/48_poly1305_aead.md R404). -/
def macData (aad ct : List Byte) : List Byte :=
  aad ++ zeros (pad16 aad.length) ++ ct ++ zeros (pad16 ct.length) ++ leBytes 8 aad.length ++ leBytes 8 ct.length

/-- The AEAD's tag over associated data and ciphertext (spec/48_poly1305_aead.md R405, R406). -/
def aeadTag (key nonce aad ct : List Byte) : List Byte := poly1305Tag (oneTimeKey key nonce) (macData aad ct)

/-- XOR with the AEAD's keystream, which starts at counter 1 (spec/48_poly1305_aead.md R405, R406). -/
def aeadXor (key nonce text : List Byte) : List Byte :=
  xorBytes text (keystream key nonce 1 (blocksFor text.length))

/-- `ct_equal(x, y)` (spec/48_poly1305_aead.md R407): the OR over all bytes of their XOR is zero. -/
def ctEqual (x y : List Byte) : Bool := (xorBytes x y).foldl (fun acc b => acc ||| b) 0 == 0

/-- The rule of AEAD_ENC (spec/48_poly1305_aead.md R405). -/
def ruleAeadEnc (d a b c : Slot) (l1 l2 : Len) (s : State) : Result :=
  let ctx := memRead s (slotAddr c) 64
  let ct := aeadXor (ctxKey ctx) (ctxNonce ctx) (memRead s (slotAddr a) l1.toNat)
  writesResult [putBytes d (ct ++ aeadTag (ctxKey ctx) (ctxNonce ctx) (memRead s (slotAddr b) l2.toNat) ct)]

/-- AEAD_ENC (spec/48_poly1305_aead.md R405). -/
def execAeadEnc (d a b c : Slot) (l1 l2 : Len) (s : State) : Host.Outcome State Fault Refusal :=
  runRule (.aeadEnc d a b c l1 l2) (ruleAeadEnc d a b c l1 l2) s

/-- The rule of AEAD_DEC (spec/48_poly1305_aead.md R406): the received tag follows the ciphertext. -/
def ruleAeadDec (d a b c : Slot) (l1 l2 : Len) (s : State) : Result :=
  let ctx := memRead s (slotAddr c) 64
  let ct := memRead s (slotAddr a) l1.toNat
  let tag := aeadTag (ctxKey ctx) (ctxNonce ctx) (memRead s (slotAddr b) l2.toNat) ct
  if ctEqual tag (memRead s (slotAddr a + l1.toNat) 16) then
    writesResult [putBytes d (aeadXor (ctxKey ctx) (ctxNonce ctx) ct)]
  else .error .auth

/-- AEAD_DEC (spec/48_poly1305_aead.md R406). -/
def execAeadDec (d a b c : Slot) (l1 l2 : Len) (s : State) : Host.Outcome State Fault Refusal :=
  runRule (.aeadDec d a b c l1 l2) (ruleAeadDec d a b c l1 l2) s

end Sys2Proof.Machine
end

