-- ==== Sys2Proof/Machine/Sequencer.lean ====
section
/-! DEFINITION. The sequencer commands END, NOP and LDC (spec/40_sequencer.md). -/

namespace Sys2Proof.Machine

/-- END (spec/40_sequencer.md R151): PC moves on, wrapping from 255 to 0, and the run halts cleanly. -/
def execEnd (s : State) : Host.Outcome State Fault Refusal := .next (haltOk { s with pc := s.pc + 1 })

/-- The rule of NOP (spec/40_sequencer.md R152): nothing. -/
def ruleNop (_ : State) : Result := .ok {}

/-- NOP (spec/40_sequencer.md R152). -/
def execNop (s : State) : Host.Outcome State Fault Refusal := runRule .nop ruleNop s

/-- The rule of LDC (spec/40_sequencer.md R157). -/
def ruleLdc (d : Slot) (index : Len) (_ : State) : Result :=
  if 4 < index.toNat then .error .illegal else slotResult d (ldcTable.getD index.toNat 0)

/-- LDC (spec/40_sequencer.md R157). -/
def execLdc (d : Slot) (index : Len) (s : State) : Host.Outcome State Fault Refusal :=
  runRule (.ldc d index) (ruleLdc d index) s

end Sys2Proof.Machine
end

