-- ==== Sys2Proof/Machine/Dispatch.lean ====
section
/-! DEFINITION. One arm per command: `exec` is one command of the sequencer, decoded, with its commit and the sequencer's
move (spec/40_sequencer.md R150). -/

namespace Sys2Proof.Machine

/-- One command on a state: the next state it leaves (spec/40_sequencer.md R150). -/
def exec (i : Instr) (s : State) : Host.Outcome State Fault Refusal :=
  match i with
  | .endSeq => Sys2Proof.Machine.execEnd s
  | .nop => Sys2Proof.Machine.execNop s
  | .ldc d index => Sys2Proof.Machine.execLdc d index s
  | .add d a b => Sys2Proof.Machine.execAdd d a b s
  | .sub d a b => Sys2Proof.Machine.execSub d a b s
  | .mul d a b => Sys2Proof.Machine.execMul d a b s
  | .cmp a b => Sys2Proof.Machine.execCmp a b s
  | .modadd d a b c => Sys2Proof.Machine.execModadd d a b c s
  | .modsub d a b c => Sys2Proof.Machine.execModsub d a b c s
  | .modmul d a b c => Sys2Proof.Machine.execModmul d a b c s
  | .montmul d a b c => Sys2Proof.Machine.execMontmul d a b c s
  | .montin d a c => Sys2Proof.Machine.execMontin d a c s
  | .montout d a c => Sys2Proof.Machine.execMontout d a c s
  | .modexp d a b c => Sys2Proof.Machine.execModexp d a b c s
  | .gcd d a b => Sys2Proof.Machine.execGcd d a b s
  | .modinv d a c => Sys2Proof.Machine.execModinv d a c s
  | .modinvvt d a c => Sys2Proof.Machine.execModinvvt d a c s
  | .ecadd d a b => Sys2Proof.Machine.execEcadd d a b s
  | .ecdbl d a => Sys2Proof.Machine.execEcdbl d a s
  | .ecmul d a b => Sys2Proof.Machine.execEcmul d a b s
  | .ecmulg d b => Sys2Proof.Machine.execEcmulg d b s
  | .ecchk a => Sys2Proof.Machine.execEcchk a s
  | .pkenc d a compressed => Sys2Proof.Machine.execPkenc d a compressed s
  | .pkdec d a l1 => Sys2Proof.Machine.execPkdec d a l1 s
  | .ecdsaSign d a b c lows => Sys2Proof.Machine.execEcdsaSign d a b c lows s
  | .ecdsaVerify a b c lows => Sys2Proof.Machine.execEcdsaVerify a b c lows s
  | .sha256Init c => Sys2Proof.Machine.execSha256Init c s
  | .sha256Update a c l1 => Sys2Proof.Machine.execSha256Update a c l1 s
  | .sha256Final d c => Sys2Proof.Machine.execSha256Final d c s
  | .sha256Compress a c => Sys2Proof.Machine.execSha256Compress a c s
  | .keccakInit c => Sys2Proof.Machine.execKeccakInit c s
  | .keccakUpdate a c l1 => Sys2Proof.Machine.execKeccakUpdate a c l1 s
  | .keccakFinal d c => Sys2Proof.Machine.execKeccakFinal d c s
  | .keccakf c => Sys2Proof.Machine.execKeccakf c s
  | .b3Compress d a b c => Sys2Proof.Machine.execB3Compress d a b c s
  | .chachaQr d a => Sys2Proof.Machine.execChachaQr d a s
  | .chachaBlock d c => Sys2Proof.Machine.execChachaBlock d c s
  | .chachaXor d a c l1 => Sys2Proof.Machine.execChachaXor d a c l1 s
  | .poly1305 d a c l1 => Sys2Proof.Machine.execPoly1305 d a c l1 s
  | .aeadEnc d a b c l1 l2 => Sys2Proof.Machine.execAeadEnc d a b c l1 l2 s
  | .aeadDec d a b c l1 l2 => Sys2Proof.Machine.execAeadDec d a b c l1 l2 s

end Sys2Proof.Machine
end

