-- ==== Sys2Proof/Machine/HostPort.lean ====
section
/-! DEFINITION. The host port: the register block (spec/10_state.md R40 to R47), the DM and CM windows
(spec/20_memory.md R87, R88), byte lanes (R90), and the reset input (spec/70_reset_and_hazards.md R470 to R472). -/

namespace Sys2Proof.Machine

/-- A 32-bit word of a memory window, little-endian (spec/20_memory.md R87). -/
def windowRead (m : Memory) (a : Nat) : HostWord := BitVec.ofNat 32 (le (m.readBytes a 4))

/-- Replace a 32-bit word of a memory window (spec/20_memory.md R87, R88). -/
def windowWrite (m : Memory) (a : Nat) (data : HostWord) : Memory := m.writeBytes a (leBytes 4 data.toNat)

/-- Offset with bits [1:0] cleared: they are ignored (spec/20_memory.md R90). -/
def wordOffset (offset : Nat) : Nat := offset / 4 * 4

/-- The word a host read of an aperture offset returns (spec/20_memory.md R86 to R90, spec/10_state.md R40); 0 while the
reset input is asserted (spec/70_reset_and_hazards.md R470). -/
def hostRead (s : State) (offset : Nat) : HostWord :=
  let o := wordOffset offset
  if s.inReset then 0
  else if o = 0x0000 then Config.idWord
  else if o = 0x0004 then Config.configWord
  else if o = 0x0008 then 0
  else if o = 0x000C then statusWord s
  else if o = 0x0010 then s.pc.setWidth 32
  else if o = 0x0014 then s.errpc.setWidth 32
  else if o = 0x0018 then BitVec.ofNat 32 s.doneie.toNat
  else if o < 0x1000 then 0
  else if o < 0x2000 then (if s.busy then 0 else windowRead s.dm (o - 0x1000))
  else if o < 0x2800 then (if s.busy then 0 else windowRead s.cm (o - 0x2000))
  else 0

/-- A write of CTRL (spec/10_state.md R43): ignored while BUSY; START wins over ACK. -/
def ctrlWrite (data : HostWord) (s : State) : State :=
  if s.busy then s
  else if data.getLsbD 0 then start s
  else if data.getLsbD 1 then { s with done := false }
  else s

/-- A write of the PC register (spec/10_state.md R45). -/
def pcWrite (data : HostWord) (s : State) : State := if s.busy then s else { s with pc := data.setWidth 8 }

/-- A write in the DM window (spec/20_memory.md R87). -/
def dmWindowWrite (a : Nat) (data : HostWord) (s : State) : State :=
  if s.busy then s else { s with dm := windowWrite s.dm a data }

/-- A write in the CM window (spec/20_memory.md R88). -/
def cmWindowWrite (a : Nat) (data : HostWord) (s : State) : State :=
  if s.busy then s else { s with cm := windowWrite s.cm a data }

/-- The effect of a host write of a whole word at an aperture offset (spec/20_memory.md R86 to R91, spec/10_state.md
R40): none at read-only registers and reserved offsets, none while the reset input is asserted. -/
def hostWrite (offset : Nat) (data : HostWord) (s : State) : State :=
  let o := wordOffset offset
  if s.inReset then s
  else if o = 0x0008 then ctrlWrite data s
  else if o = 0x0010 then pcWrite data s
  else if o = 0x0018 then { s with doneie := data.getLsbD 0 }
  else if o < 0x1000 then s
  else if o < 0x2000 then dmWindowWrite (o - 0x1000) data s
  else if o < 0x2800 then cmWindowWrite (o - 0x2000) data s
  else s

/-- Byte `k` of a written word: the host's on an enabled lane, else the free byte numbered `n` (spec/20_memory.md R90). -/
def laneByte (lanes : BitVec 4) (data : HostWord) (k n : Nat) : Byte :=
  if lanes.getLsbD k then data.extractLsb' (8 * k) 8 else Config.freeByte n

/-- The word a partial-width write puts on the bus: disabled lanes carry free bytes (spec/20_memory.md R90, log entry 5). -/
def busWord (lanes : BitVec 4) (data : HostWord) (n : Nat) : HostWord :=
  if lanes = 0xF then data
  else BitVec.ofNat 32 (le [laneByte lanes data 0 n, laneByte lanes data 1 (n + 1),
    laneByte lanes data 2 (n + 2), laneByte lanes data 3 (n + 3)])

/-- How many free bytes a write of these lanes draws (log entry 5). -/
def lanesDrawn (lanes : BitVec 4) : Nat := if lanes = 0xF then 0 else 4

/-- The bytes of DM that a warm reset leaves unspecified while Running: what lies in DM of the write regions of the
command in progress, the one the word at PC names (spec/70_reset_and_hazards.md R472, log entry 6). No command is
exempt, neither one that would raise ILLEGAL or RANGE; a reserved opcode names none. -/
def cutShortRegions (s : State) : List Region :=
  match namedCommand (fetch s) with
  | none => []
  | some i => (listedWriteRegions i).map Region.inDm

/-- Free bytes over a list of regions, numbered on from `k` (spec/70_reset_and_hazards.md R472). -/
def scramble (dm : Memory) (k : Nat) : List Region → Memory
  | [] => dm
  | r :: rest => scramble (dm.writeBytes r.start (freeBytes k r.size)) (k + r.size) rest

/-- How many free bytes a list of regions draws. -/
def regionBytes (rs : List Region) : Nat := (rs.map Region.size).sum

/-- The reset input asserts with power present (spec/70_reset_and_hazards.md R470 to R472): registers at their reset
values, CM kept, DM kept but for the write regions of a command in progress. -/
def warmReset (s : State) : State :=
  let rs := if s.busy then cutShortRegions s else []
  { State.reset with
    dm := scramble s.dm s.freeCount rs, cm := s.cm, inReset := true, pending := s.pending,
    busData := s.busData, freeCount := s.freeCount + regionBytes rs }

/-- The reset input asserts after power was absent (spec/70_reset_and_hazards.md R470 to R472). -/
def powerOnReset (dmInit cmInit : List Byte) (s : State) : State :=
  { State.powerOn dmInit cmInit with
    inReset := true, pending := s.pending, busData := s.busData, freeCount := s.freeCount }

/-- The offset of a host address in the core's aperture, if it decodes there (spec/20_memory.md R86). -/
def apertureOffset (base addr : Nat) : Option Nat :=
  if base ≤ addr ∧ addr < base + Config.apertureBytes then some (addr - base) else none

/-- The offset of a host address at this core's `BASE` (spec/20_memory.md R86, log entry 9): what the inputs `read` and
`write` carry. -/
def hostOffset (addr : Nat) : Option Nat := apertureOffset Config.base addr

end Sys2Proof.Machine
end

