-- ==== Sys2Proof/Machine/Agents.lean ====
section
/-! DEFINITION. The two agents (spec/10_state.md R30) and the platform's reset input, and which of them moves next: the
first waiting input, or the sequencer where none waits or the host lets it pass (log entry 3). -/

namespace Sys2Proof.Machine

/-- The sequencer's move (spec/40_sequencer.md R150): Running, it fetches, decodes and runs the command at PC, an illegal
word halting with ILLEGAL (spec/30_encoding.md R114); Idle, it does nothing. -/
def sequencerStep (s : State) : Host.Outcome State Fault Refusal :=
  if s.busy then
    match decode (fetch s) with
    | .error _ => .next (haltError .illegal s.pc s)
    | .ok i => exec i s
  else .next s

/-- A host read (spec/20_memory.md R91): it changes nothing but the word on the bus. -/
def hostReadStep (offset : Nat) (s : State) : Host.Outcome State Fault Refusal :=
  if offset < Config.apertureBytes then .next { s with busData := hostRead s offset }
  else .fault .outsideAperture

/-- A host write (spec/20_memory.md R90, R91). -/
def hostWriteStep (offset : Nat) (lanes : BitVec 4) (data : HostWord) (s : State) :
    Host.Outcome State Fault Refusal :=
  if offset < Config.apertureBytes then
    .next { hostWrite offset (busWord lanes data s.freeCount) s with freeCount := s.freeCount + lanesDrawn lanes }
  else .fault .outsideAperture

/-- One input taken, or, for `pass`, the sequencer's move. -/
def inputStep (x : Input) (s : State) : Host.Outcome State Fault Refusal :=
  match x with
  | .pass => sequencerStep s
  | .read offset => hostReadStep offset s
  | .write offset lanes data => hostWriteStep offset lanes data s
  | .powerOnReset dmInit cmInit => .next (powerOnReset dmInit cmInit s)
  | .warmReset => .next (warmReset s)
  | .releaseReset => .next { s with inReset := false }

/-- The machine's next move: the first waiting input, or the sequencer's when none waits. -/
def nextMove (s : State) : Host.Outcome State Fault Refusal :=
  match s.pending with
  | [] => sequencerStep s
  | x :: rest => inputStep x { s with pending := rest }

/-- A state that runs a given command word next: the word stands at `CM[PC]`, START has been given, no input waits and
the reset input is released (log entry 2). -/
def placeCommand (s : State) (w : CmdWord) : State :=
  { start s with cm := s.cm.writeBytes (8 * s.pc.toNat) (leBytes 8 w.toNat), pending := [], inReset := false }

end Sys2Proof.Machine
end

