-- ==== Sys2Proof/Machine/Step.lean ====
section
/-! DEFINITION. One step of the machine, and the placing of a command word where the next step fetches. -/

namespace Sys2Proof.Machine

/-- One step: one input of the host or the platform, or one command of the sequencer (spec/10_state.md R30). -/
def step (s : State) : Host.Outcome State Fault Refusal := nextMove s

/-- `s` about to run the table word `w` of `nbits` bits: see `placeCommand` and log entry 2. -/
def State.withFetchWord (s : State) (nbits w : Nat) : State := placeCommand s (BitVec.ofNat 64 (w % 2 ^ nbits))

end Sys2Proof.Machine
end

