-- ==== Sys2Proof/Safety.lean ====
section
/-! DEFINITION. The terms claims are stated in: what holds of every state of a VZC core, what a command leaves alone,
and what it means for a command to complete or to halt on an error. -/

namespace Sys2Proof.Machine

/-- What holds of every state a VZC core can be in: DM and CM in canonical form and inside their sizes (R32, R34);
ERR exactly when ERRCODE is not 0 (R44); V clear while ERR is set (R432); a Running core has neither DONE nor
ERR set (R155) and is not in reset (R470). -/
def State.Inv (s : State) : Prop :=
  s.dm.wf 4096 = true ∧ s.cm.wf 2048 = true ∧ (s.err = true ↔ s.errcode ≠ .ok) ∧
    (s.err = true → s.v = false) ∧
    (s.busy = true → s.done = false ∧ s.err = false ∧ s.inReset = false)

/-- Every byte outside the regions reads after as before. -/
def SameOutside (rs : List Region) (before after : Memory) : Prop :=
  ∀ a, (∀ r ∈ rs, r.has a = false) → after.read a = before.read a

/-- Every byte reads after as before. -/
def SameBytes (before after : Memory) : Prop := ∀ a, after.read a = before.read a

/-- No flag of spec/10_state.md R48 changed. -/
def SameFlags (s t : State) : Prop := t.c = s.c ∧ t.v = s.v ∧ t.cmp = s.cmp

/-- What no command changes: command memory, the interrupt enable, the reset input, and the model's own fields. -/
def SameSurroundings (s t : State) : Prop :=
  t.cm = s.cm ∧ t.doneie = s.doneie ∧ t.inReset = s.inReset ∧ t.pending = s.pending ∧ t.busData = s.busData ∧
    t.freeCount = s.freeCount

/-- A command other than END completed below index 255: PC moved on by one (R154), and BUSY, DONE, ERR, ERRCODE, ERRPC
and the surroundings are unchanged. DM and the flags are spoken of beside it. -/
def Completed (s t : State) : Prop :=
  t.pc = s.pc + 1 ∧ t.errpc = s.errpc ∧ t.busy = s.busy ∧ t.done = s.done ∧ t.err = s.err ∧
    t.errcode = s.errcode ∧ SameSurroundings s t

/-- The error halt of spec/60_exceptions.md R431 with nothing else changed: DM, C, CMP and the surroundings stand. -/
def ErrorHalted (e : ErrCode) (s t : State) : Prop :=
  t.errcode = e ∧ t.err = true ∧ t.errpc = s.pc ∧ t.v = false ∧ t.busy = false ∧ t.done = true ∧ t.pc = s.pc ∧
    t.dm = s.dm ∧ t.c = s.c ∧ t.cmp = s.cmp ∧ SameSurroundings s t

/-- `exec` answers a next state that completed, with the flags untouched and no byte changed outside the regions. -/
def CompletesWriting (i : Instr) (s : State) (rs : List Region) (result : State → Prop) : Prop :=
  ∃ t, exec i s = .next t ∧ result t ∧ Completed s t ∧ SameFlags s t ∧ SameOutside rs s.dm t.dm

/-- `exec` answers a next state that is the error halt with this code. -/
def HaltsWith (i : Instr) (s : State) (e : ErrCode) : Prop :=
  ∃ t, exec i s = .next t ∧ ErrorHalted e s t

/-- What a command rule says of its word and its regions (spec/00_scope.md R11): the command's word carries exactly
these fields, and its range check covers exactly these `(start, size)` pairs. -/
def HasForm (i : Instr) (x : Fields) (regions : List (Nat × Nat)) : Prop :=
  splitWord (encode i) = x ∧ regionsInRange i = regions.all fun r => decide (r.1 + r.2 ≤ 4096)

/-- A pair of coordinates on the curve, in the words of spec/42_curve.md R223, R230. -/
def AffineOnCurve (x y : Nat) : Prop :=
  x < secP ∧ y < secP ∧ ((y : Int) ^ 2 - (x : Int) ^ 3 - 7) % (secP : Int) = 0

/-- A valid point operand (spec/42_curve.md R223): O, written (0, 0), or an affine point of the curve. -/
def ValidOperand (x y : Nat) : Prop := (x = 0 ∧ y = 0) ∨ AffineOnCurve x y

/-- The state holds a point in the two slots at `x`: its coordinates, or (0, 0) for O (spec/42_curve.md R222). -/
def HoldsPoint (t : State) (x : Slot) (q : Point) : Prop := slotValue t x = pointX q ∧ nextSlotValue t x = pointY q

/-- The state holds a hash context at slot `c`, of `size` bytes, that `init` made and `update` commands fed with the
message: between two commands everything but the context's bytes may have changed (spec/44_sha256.md R291,
spec/45_keccak.md R320: the pieces may lie anywhere, and a context carries over between runs). -/
inductive Fed (init : Instr) (update : Slot → Len → Instr) (c : Slot) (size : Nat) : State → List Byte → Prop
  | made (s t u : State) : exec init s = .next t → Completed s t →
      memRead u (slotAddr c) size = memRead t (slotAddr c) size → Fed init update c size u []
  | piece (s t u : State) (message : List Byte) (a : Slot) (l1 : Len) : Fed init update c size s message →
      exec (update a l1) s = .next t → Completed s t →
      memRead u (slotAddr c) size = memRead t (slotAddr c) size →
      Fed init update c size u (message ++ memRead s (slotAddr a) l1.toNat)

end Sys2Proof.Machine
end

