-- ==== Sys2Proof/Certificates/Slice0/Obligations.lean ====
section
/-! DEFINITION. The statements for the provers. Each docstring names the rule of spec/ it formalises. A statement about a
command speaks of `exec`; `Obligations.StepRunsTheDecodedCommand` carries it to `step`. -/

section

open Sys2Proof Sys2Proof.Machine

/-- Decoding an encoded command gives it back, with every operand at every value its field admits
(spec/30_encoding.md R111 to R115). -/
def Obligations.DecodeOfEncode : Prop :=
  ∀ i : Instr, i.wellFormed = true → decode (encode i) = .ok i

/-- A legal word is the encoding of the command it decodes to: no bit of it is ignored (spec/30_encoding.md R114 (2),
(3), R119). -/
def Obligations.EncodeOfDecode : Prop :=
  ∀ (w : CmdWord) (i : Instr), decode w = .ok i → i.wellFormed = true ∧ encode i = w

/-- Words that raise ILLEGAL, by integer arithmetic on the word (spec/30_encoding.md R114 (1), (3), (4), R118). -/
def Obligations.IllegalWords : Prop :=
  ∀ w : CmdWord,
    (w.toNat / 2 ^ 56 ∉ [0x01, 0x02, 0x03, 0x10, 0x11, 0x12, 0x13, 0x14, 0x15, 0x16, 0x17, 0x18, 0x19, 0x1A, 0x1B,
        0x1C, 0x1D, 0x20, 0x21, 0x22, 0x23, 0x24, 0x25, 0x26, 0x30, 0x31, 0x40, 0x41, 0x42, 0x43, 0x44, 0x45,
        0x46, 0x47, 0x48, 0x50, 0x51, 0x52, 0x53, 0x54, 0x55] → decode w = .error .reservedOpcode) ∧
    (2 ≤ w.toNat % 16 → ∃ e, decode w = .error e) ∧
    (w.toNat % 2 = 1 → w.toNat / 2 ^ 56 ∉ [0x25, 0x30, 0x31] → ∃ e, decode w = .error e) ∧
    (w.toNat / 2 ^ 56 = 0x03 → 4 < w.toNat / 2 ^ 16 % 4096 → ∃ e, decode w = .error e)

/-- The words of spec/30_encoding.md R123, and of the examples of spec/40_sequencer.md R151 and R157, decode to their
commands; the all-zero word is refused (R114). -/
def Obligations.WorkedExamplesDecode : Prop :=
  decode 0x1606041000000000 = .ok (.modmul 3 1 2 0) ∧ encode (.modmul 3 1 2 0) = 0x1606041000000000 ∧
  decode 0x41001000A00B0000 = .ok (.sha256Update 4 10 11) ∧
  encode (.sha256Update 4 10 11) = 0x41001000A00B0000 ∧
  decode 0x0100000000000000 = .ok .endSeq ∧ decode 0x030A000000010000 = .ok (.ldc 5 1) ∧
  decode 0 = .error .reservedOpcode

/-- A step runs the decoded command: while Running, where no input waits or the first one is `pass` (the model's input
list, log entry 3), the step is `exec` of the command that `CM[PC]` decodes to, on the state without that `pass`;
Idle, it changes nothing (spec/40_sequencer.md R150). -/
def Obligations.StepRunsTheDecodedCommand : Prop :=
  (∀ (s : State) (i : Instr), s.busy = true → decode (fetch s) = .ok i →
    (s.pending = [] → step s = exec i s) ∧
    (∀ rest, s.pending = .pass :: rest → step s = exec i { s with pending := rest })) ∧
  (∀ s : State, s.busy = false → s.pending = [] → step s = .next s)

/-- An illegal word halts with ILLEGAL and writes nothing (spec/30_encoding.md R114, spec/60_exceptions.md R431). -/
def Obligations.IllegalWordHalts : Prop :=
  ∀ (s : State) (e : DecodeError), s.busy = true → s.pending = [] → decode (fetch s) = .error e →
    ∃ t, step s = .next t ∧ ErrorHalted .illegal s t

/-- Every step, of the sequencer, the host or the reset input, keeps the invariant `State.Inv`. -/
def Obligations.StepKeepsTheInvariant : Prop :=
  ∀ s t : State, s.Inv → step s = .next t → t.Inv

/-- The invariant holds after power-on, whatever the memories hold, and of `State.reset`. -/
def Obligations.PowerOnHasTheInvariant : Prop :=
  (∀ dmInit cmInit : List Byte, (State.powerOn dmInit cmInit).Inv) ∧ State.reset.Inv

/-- The reset values of spec/70_reset_and_hazards.md R471, by register and as the host reads them on release, and the
port while the reset input is asserted (R470). That the registers hold them from the assertion on is the model's
choice (log entry 13). -/
def Obligations.ResetValues : Prop :=
  ∀ s t : State, (t = warmReset s ∨ ∃ dmInit cmInit, t = powerOnReset dmInit cmInit s) →
    t.busy = false ∧ t.done = false ∧ t.err = false ∧ t.c = false ∧ t.v = false ∧ t.cmp = .equal ∧ t.errcode = .ok ∧
    t.pc = 0 ∧ t.errpc = 0 ∧ t.doneie = false ∧ irq t = false ∧
    hostRead { t with inReset := false } 0x0000 = 0x565A4301 ∧
    hostRead { t with inReset := false } 0x0004 = 0x01000080 ∧
    hostRead { t with inReset := false } 0x0008 = 0 ∧ hostRead { t with inReset := false } 0x000C = 0 ∧
    hostRead { t with inReset := false } 0x0010 = 0 ∧ hostRead { t with inReset := false } 0x0014 = 0 ∧
    hostRead { t with inReset := false } 0x0018 = 0 ∧
    (∀ offset, hostRead t offset = 0) ∧ (∀ offset data, hostWrite offset data t = t)

/-- What DM and CM hold after a reset (spec/70_reset_and_hazards.md R472): the given contents after power-on; after a warm
reset CM as before, and DM as before but for the write regions its rule lists for the command in progress, whose
bytes hold free values, whether that command would have completed or raised an error. That a word which fails its
checks still names a command by its opcode, and that a reserved opcode names none, is the model's reading (log entry
6); a free value is a draw of `Config.freeByte` (log entry 5). -/
def Obligations.ResetMemories : Prop :=
  (∀ (dmInit cmInit : List Byte) (s : State), dmInit.length = 4096 → cmInit.length = 2048 →
    (∀ a, a < 4096 → (powerOnReset dmInit cmInit s).dm.read a = dmInit.getD a 0) ∧
    (∀ a, a < 2048 → (powerOnReset dmInit cmInit s).cm.read a = cmInit.getD a 0)) ∧
  (∀ s : State, (warmReset s).cm = s.cm ∧ (s.busy = false → (warmReset s).dm = s.dm)) ∧
  (∀ (s : State) (i : Instr), s.busy = true → namedCommand (fetch s) = some i →
    SameOutside (listedWriteRegions i) s.dm (warmReset s).dm ∧
    ∀ a, a < 4096 → (∃ r ∈ listedWriteRegions i, r.has a = true) →
      ∃ j, s.freeCount + j < (warmReset s).freeCount ∧
        (warmReset s).dm.read a = Config.freeByte (s.freeCount + j)) ∧
  (∀ s : State, namedCommand (fetch s) = none → (warmReset s).dm = s.dm) ∧
  (∀ (w : CmdWord) (i : Instr), decode w = .ok i → namedCommand w = some i)

/-- A run that no reset cuts short ends: a Running core halts within `256 - PC` steps and one more for each input that
waits, whatever DM and CM hold and whatever the host reads and writes meanwhile (spec/40_sequencer.md R153, R158,
spec/60_exceptions.md R438, spec/70_reset_and_hazards.md R483). Inputs are the model's list, one a step (log entry
3), and accesses lie in the aperture (log entry 9). -/
def Obligations.EveryRunHalts : Prop :=
  ∀ s : State, s.busy = true →
    (∀ x ∈ s.pending, x ≠ .warmReset ∧ (∀ dmInit cmInit, x ≠ .powerOnReset dmInit cmInit) ∧
      (∀ offset, x = .read offset → offset < 0x4000) ∧
      (∀ offset lanes data, x = .write offset lanes data → offset < 0x4000)) →
    ∃ (k : Nat) (t : State), k ≤ s.pending.length + (256 - s.pc.toNat) ∧
      Host.Core.run Sys2Proof.core k s = .next t ∧ t.busy = false ∧ t.done = true

/-- Every command, on every state, ends in one of four ways, and each says everything it may change: END's clean halt,
completion, an error halt with nothing committed, or OVERRUN at index 255 after the commit (spec/00_scope.md R14,
spec/40_sequencer.md R150, R154, spec/60_exceptions.md R431). -/
def Obligations.EveryCommandEndsInOneOfFourWays : Prop :=
  ∀ (i : Instr) (s : State), ∃ t, exec i s = .next t ∧ SameSurroundings s t ∧
    ((i = .endSeq ∧ t.pc = s.pc + 1 ∧ t.busy = false ∧ t.done = true ∧ t.err = s.err ∧ t.errcode = s.errcode ∧
        t.errpc = s.errpc ∧ SameFlags s t ∧ t.dm = s.dm) ∨
      (i ≠ .endSeq ∧ s.pc ≠ 255 ∧ Completed s t ∧ SameOutside (writeRegions i) s.dm t.dm) ∨
      (i ≠ .endSeq ∧ ∃ e, e ≠ .ok ∧ e ≠ .overrun ∧ ErrorHalted e s t) ∨
      (i ≠ .endSeq ∧ s.pc = 255 ∧ t.errcode = .overrun ∧ t.err = true ∧ t.errpc = 255 ∧ t.pc = 255 ∧ t.v = false ∧
        t.busy = false ∧ t.done = true ∧ SameOutside (writeRegions i) s.dm t.dm))

/-- Purity (spec/00_scope.md R13, R15): on two states that agree in DM, whatever else they hold, a command writes the same
bytes, raises the same error, and gives C and CMP the same value or leaves both alone. So it does with V, where both
states are at the last index or neither is, since OVERRUN clears V there (spec/40_sequencer.md R153); and PC after it
depends on PC before it. -/
def Obligations.CommandsArePure : Prop :=
  ∀ (i : Instr) (s s' t t' : State), s.dm = s'.dm → exec i s = .next t → exec i s' = .next t' →
    t.dm = t'.dm ∧ (t.c = t'.c ∨ (t.c = s.c ∧ t'.c = s'.c)) ∧ (t.cmp = t'.cmp ∨ (t.cmp = s.cmp ∧ t'.cmp = s'.cmp)) ∧
    (∀ e, e ≠ .overrun → (ErrorHalted e s t ↔ ErrorHalted e s' t')) ∧
    ((s.pc = 255 ↔ s'.pc = 255) → t.v = t'.v ∨ (t.v = s.v ∧ t'.v = s'.v)) ∧ (s.pc = s'.pc → t.pc = t'.pc)

/-- Who writes the flags, and with what (spec/10_state.md R48). -/
def Obligations.FlagWriters : Prop :=
  ∀ (i : Instr) (s t : State), exec i s = .next t →
    ((∀ d a b, i ≠ .add d a b ∧ i ≠ .sub d a b) → t.c = s.c) ∧
    ((∀ a b, i ≠ .cmp a b) → t.cmp = s.cmp) ∧
    ((∀ a, i ≠ .ecchk a) → (∀ a b c lows, i ≠ .ecdsaVerify a b c lows) →
      t.v = s.v ∨ (t.v = false ∧ t.err = true)) ∧
    (∀ d a b, i = .add d a b → t.c = decide (2 ^ 256 ≤ slotValue s a + slotValue s b)) ∧
    (∀ d a b, i = .sub d a b → t.c = decide (slotValue s a < slotValue s b)) ∧
    (∀ a b, i = .cmp a b →
      t.cmp = if slotValue s a = slotValue s b then .equal
        else if slotValue s a < slotValue s b then .less else .greater) ∧
    (∀ a, i = .ecchk a → Completed s t →
      (t.v = true ↔ AffineOnCurve (slotValue s a) (nextSlotValue s a))) ∧
    (∀ a b c lows, i = .ecdsaVerify a b c lows → Completed s t →
      t.v = ecdsaAccepts (slotValue s a) (slotPoint s b) (slotValue s c) (nextSlotValue s c) lows) ∧
    (s.err = false → t.err = true → t.v = false)

/-- OVERRUN (spec/40_sequencer.md R153): a command other than END that would complete below index 255 commits the same
writes and flags at index 255, but for V, and then halts with OVERRUN. -/
def Obligations.OverrunAfterTheCommit : Prop :=
  ∀ (i : Instr) (s t : State), i ≠ .endSeq → s.pc ≠ 255 → exec i s = .next t → Completed s t →
    exec i { s with pc := 255 } = .next { t with
      pc := 255, errpc := 255, errcode := .overrun, err := true, v := false, busy := false, done := true }

/-- The range check (spec/30_encoding.md R116): it is a function of the command alone, a region that passes byte 4095
halts with RANGE and writes nothing, `k` slots at X are in range when X + k is at most 128, an empty region always. -/
def Obligations.RangeCheck : Prop :=
  (∀ i : Instr, regionsInRange i = false ↔
    ∃ r ∈ readRegions i ++ writeRegions i, 4096 < r.start + r.size) ∧
  (∀ (i : Instr) (s : State), regionsInRange i = false → HaltsWith i s .range) ∧
  (∀ (x : Slot) (k : Nat), (slotsAt x k).inRange = true ↔ x.toNat + k ≤ 128) ∧
  (∀ x : Slot, (bytesAt x 0).inRange = true)

/-- A whole-word write of CTRL (spec/10_state.md R43, spec/40_sequencer.md R155): START, ACK, both, neither, or ignored
while BUSY; and its read. -/
def Obligations.ControlRegister : Prop :=
  ∀ (s : State) (offset : Nat) (data : HostWord) (rest : List Input),
    offset / 4 = 2 → s.inReset = false → s.pending = .write offset 0xF data :: rest →
    (s.busy = true → step s = .next { s with pending := rest }) ∧
    (s.busy = false → data.getLsbD 0 = true →
      step s = .next { s with pending := rest, done := false, err := false, errcode := .ok, busy := true }) ∧
    (s.busy = false → data.getLsbD 0 = false → data.getLsbD 1 = true →
      step s = .next { s with pending := rest, done := false }) ∧
    (s.busy = false → data.getLsbD 0 = false → data.getLsbD 1 = false →
      step s = .next { s with pending := rest }) ∧
    hostRead s offset = 0

/-- The DM window (spec/20_memory.md R87). -/
def Obligations.DmWindow : Prop :=
  ∀ (s : State) (k : Nat), k < 1024 → s.inReset = false →
    (s.busy = false →
      hostRead s (0x1000 + 4 * k) =
        ((s.dm.read (4 * k)).setWidth 32 ||| (s.dm.read (4 * k + 1)).setWidth 32 <<< 8 |||
          (s.dm.read (4 * k + 2)).setWidth 32 <<< 16 ||| (s.dm.read (4 * k + 3)).setWidth 32 <<< 24) ∧
      ∀ data : HostWord, ∃ m : Memory, hostWrite (0x1000 + 4 * k) data s = { s with dm := m } ∧
        (∀ j, j < 4 → m.read (4 * k + j) = data.extractLsb' (8 * j) 8) ∧
        (∀ x, x < 4 * k ∨ 4 * k + 4 ≤ x → m.read x = s.dm.read x)) ∧
    (s.busy = true →
      hostRead s (0x1000 + 4 * k) = 0 ∧ ∀ data : HostWord, hostWrite (0x1000 + 4 * k) data s = s)

/-- The CM window (spec/20_memory.md R88); `fetch` at PC `i` is `CM[i]`. `Obligations.ReservedOffsetsAndReads`
carries `hostWrite` to `step`. -/
def Obligations.CmWindow : Prop :=
  ∀ (s : State) (i : BitVec 8), s.inReset = false →
    (s.busy = false →
      hostRead s (0x2000 + 8 * i.toNat) = (fetch { s with pc := i }).extractLsb' 0 32 ∧
      hostRead s (0x2000 + 8 * i.toNat + 4) = (fetch { s with pc := i }).extractLsb' 32 32 ∧
      (∀ data : HostWord, ∃ m : Memory, hostWrite (0x2000 + 8 * i.toNat) data s = { s with cm := m } ∧
        fetch { s with pc := i, cm := m } = (fetch { s with pc := i }).extractLsb' 32 32 ++ data ∧
        ∀ j : BitVec 8, j ≠ i → fetch { s with pc := j, cm := m } = fetch { s with pc := j }) ∧
      (∀ data : HostWord, ∃ m : Memory, hostWrite (0x2000 + 8 * i.toNat + 4) data s = { s with cm := m } ∧
        fetch { s with pc := i, cm := m } = data ++ (fetch { s with pc := i }).extractLsb' 0 32 ∧
        ∀ j : BitVec 8, j ≠ i → fetch { s with pc := j, cm := m } = fetch { s with pc := j })) ∧
    (s.busy = true →
      hostRead s (0x2000 + 8 * i.toNat) = 0 ∧ hostRead s (0x2000 + 8 * i.toNat + 4) = 0 ∧
      ∀ data : HostWord, hostWrite (0x2000 + 8 * i.toNat) data s = s ∧
        hostWrite (0x2000 + 8 * i.toNat + 4) data s = s)

/-- ID, CONFIG and the fields of STATUS as the host reads them, and that a write of a read-only register is ignored
(spec/10_state.md R40, R41, R42, R44). -/
def Obligations.IdentificationAndStatus : Prop :=
  ∀ s : State, s.inReset = false →
    hostRead s 0x0000 = 0x565A4301 ∧ hostRead s 0x0004 = 0x01000080 ∧
    (hostRead s 0x000C).getLsbD 0 = s.busy ∧ (hostRead s 0x000C).getLsbD 1 = s.done ∧
    (hostRead s 0x000C).getLsbD 2 = s.err ∧ (hostRead s 0x000C).getLsbD 3 = s.c ∧
    (hostRead s 0x000C).getLsbD 4 = s.v ∧
    (hostRead s 0x000C).extractLsb' 5 2 = (match s.cmp with | .equal => 0b00#2 | .less => 0b01#2 | .greater => 0b10#2) ∧
    (hostRead s 0x000C).getLsbD 7 = false ∧
    (hostRead s 0x000C).extractLsb' 8 4 = (match s.errcode with
      | .ok => 0#4 | .domain => 1#4 | .auth => 2#4 | .encoding => 3#4 | .misuse => 4#4 | .illegal => 5#4
      | .range => 6#4 | .overrun => 7#4) ∧
    (hostRead s 0x000C).extractLsb' 12 20 = 0 ∧ hostRead s 0x0014 = s.errpc.setWidth 32 ∧
    ∀ (offset : Nat) (data : HostWord), offset / 4 ∈ [0, 1, 3, 5] → hostWrite offset data s = s

/-- Reserved offsets read 0 and ignore writes (spec/20_memory.md R89). A read that waits, at any offset of the aperture,
changes nothing (R91) but the model's own fields: the word on the bus, the record of the answer (log entry 4), and
the input list it was taken from (log entry 3). A whole-word write that waits, at any offset of the aperture, is taken
as `hostWrite` of the state without it, which is what the statements on CM, PC, IRQEN and the reserved offsets speak
of (R90, R91; log entry 3). -/
def Obligations.ReservedOffsetsAndReads : Prop :=
  (∀ (s : State) (offset : Nat), (0x1C ≤ offset ∧ offset < 0x1000) ∨ (0x2800 ≤ offset ∧ offset < 0x4000) →
    hostRead s offset = 0 ∧ ∀ data, hostWrite offset data s = s) ∧
  (∀ (s : State) (offset : Nat) (rest : List Input), offset < 0x4000 → s.pending = .read offset :: rest →
    step s = .next { s with pending := rest, busData := hostRead s offset }) ∧
  (∀ (s : State) (offset : Nat) (data : HostWord) (rest : List Input), offset < 0x4000 →
    s.pending = .write offset 0xF data :: rest → step s = .next (hostWrite offset data { s with pending := rest }))

/-- The PC register and IRQEN (spec/10_state.md R45, R47). `Obligations.ReservedOffsetsAndReads` carries `hostWrite` to
`step`. -/
def Obligations.PcAndIrqenRegisters : Prop :=
  (∀ (s : State) (data : HostWord), s.inReset = false →
    hostRead s 0x0010 = s.pc.setWidth 32 ∧
    (s.busy = false → hostWrite 0x0010 data s = { s with pc := data.extractLsb' 0 8 }) ∧
    (s.busy = true → hostWrite 0x0010 data s = s) ∧
    (hostRead s 0x0018).getLsbD 0 = s.doneie ∧ (hostRead s 0x0018).extractLsb' 1 31 = 0 ∧
    hostWrite 0x0018 data s = { s with doneie := data.getLsbD 0 }) ∧
  State.reset.pc = 0 ∧ State.reset.doneie = false

/-- The interrupt line (spec/10_state.md R52): DONE and DONEIE. Every step that ends a run without a reset, a command's or
an undecodable word's, leaves DONE set, so the line is high where DONEIE is set. ACK and START while Idle lower it,
and so does clearing DONEIE. Nothing else lowers it but a reset: a step after which a high line is low took a reset,
a write of CTRL with START or ACK, or a write of IRQEN with DONEIE clear (`busWord` is the word on the bus, the
host's own where all lanes are enabled). It is low after reset. -/
def Obligations.InterruptLine : Prop :=
  (∀ s : State, irq s = (s.done && s.doneie)) ∧
  (∀ (i : Instr) (s t : State), s.busy = true → exec i s = .next t → t.busy = false →
    t.done = true ∧ irq t = s.doneie) ∧
  (∀ s t : State, s.busy = true → (∀ rest, s.pending ≠ .warmReset :: rest) →
    (∀ dmInit cmInit rest, s.pending ≠ .powerOnReset dmInit cmInit :: rest) → step s = .next t → t.busy = false →
    t.done = true ∧ irq t = s.doneie) ∧
  (∀ (s : State) (data : HostWord), s.inReset = false → s.busy = false →
    data.getLsbD 0 = true ∨ data.getLsbD 1 = true → irq (hostWrite 0x0008 data s) = false) ∧
  (∀ (s : State) (data : HostWord), s.inReset = false → data.getLsbD 0 = false →
    irq (hostWrite 0x0018 data s) = false) ∧
  (∀ s t : State, irq s = true → step s = .next t → irq t = false →
    ∃ rest, s.pending = .warmReset :: rest ∨ (∃ dmInit cmInit, s.pending = .powerOnReset dmInit cmInit :: rest) ∨
      ∃ offset lanes data word, s.pending = .write offset lanes data :: rest ∧ word = busWord lanes data s.freeCount ∧
        ((offset / 4 = 2 ∧ s.busy = false ∧ (word.getLsbD 0 = true ∨ word.getLsbD 1 = true)) ∨
          (offset / 4 = 6 ∧ word.getLsbD 0 = false))) ∧
  irq State.reset = false

/-- Recovery (spec/60_exceptions.md R439): after an error halt, START leaves PC at the failing command, which fetches as
before, and clears ERR and ERRCODE; with DM corrected to `m`, the command then does what it would have done on
`m` had the error not happened. -/
def Obligations.RecoveryByStart : Prop :=
  ∀ (i : Instr) (s t : State) (e : ErrCode), exec i s = .next t → ErrorHalted e s t →
    (start t).pc = s.pc ∧ (start t).dm = s.dm ∧ fetch (start t) = fetch s ∧ (start t).busy = true ∧
    (start t).err = false ∧ (start t).errcode = .ok ∧ (start t).done = false ∧
    ∀ (m : Memory) (u : State), exec i { s with dm := m } = .next u → Completed { s with dm := m } u →
      ∃ u', exec i { start t with dm := m } = .next u' ∧ Completed { start t with dm := m } u' ∧
        u'.dm = u.dm ∧ u'.pc = u.pc ∧ u'.c = u.c ∧ u'.cmp = u.cmp

/-- Byte lanes (spec/20_memory.md R90): a write in the DM window writes all four bytes of the word at the offset with bits
[1:0] cleared. An enabled lane carries the host's byte; a disabled one a free value, the draw of `Config.freeByte`
that its lane takes (log entry 5). -/
def Obligations.ByteLanes : Prop :=
  ∀ (s : State) (k low : Nat) (lanes : BitVec 4) (data : HostWord) (rest : List Input),
    k < 1024 → low < 4 → s.inReset = false → s.busy = false →
    s.pending = .write (0x1000 + 4 * k + low) lanes data :: rest →
    ∃ t, step s = .next t ∧ t.pending = rest ∧
      (∀ j, j < 4 → lanes.getLsbD j = true → t.dm.read (4 * k + j) = data.extractLsb' (8 * j) 8) ∧
      (∀ j, j < 4 → lanes.getLsbD j = false → t.dm.read (4 * k + j) = Config.freeByte (s.freeCount + j)) ∧
      (∀ x, x < 4 * k ∨ 4 * k + 4 ≤ x → t.dm.read x = s.dm.read x) ∧
      t.cm = s.cm ∧ t.pc = s.pc ∧ t.errpc = s.errpc ∧ t.busy = s.busy ∧ t.done = s.done ∧ t.err = s.err ∧
      SameFlags s t ∧ t.errcode = s.errcode ∧ t.doneie = s.doneie ∧ t.inReset = s.inReset

/-- END (spec/40_sequencer.md R151): a clean halt with PC moved on, from 255 to 0. NOP (R152): PC moves on and nothing
else changes; at index 255 it halts with OVERRUN. -/
def Obligations.EndAndNop : Prop :=
  ∀ s : State,
    HasForm .endSeq ⟨0x01, 0, 0, 0, 0, 0, 0, 0⟩ [] ∧ HasForm .nop ⟨0x02, 0, 0, 0, 0, 0, 0, 0⟩ [] ∧
    exec .endSeq s = .next { s with pc := BitVec.ofNat 8 ((s.pc.toNat + 1) % 256), busy := false, done := true } ∧
    (s.pc ≠ 255 → exec .nop s = .next { s with pc := s.pc + 1 }) ∧
    (s.pc = 255 → exec .nop s = .next { s with
      errcode := .overrun, err := true, errpc := 255, v := false, busy := false, done := true, pc := 255 })

/-- LDC (spec/40_sequencer.md R157): the constant of the index in the slot; ILLEGAL above index 4. -/
def Obligations.LdcLoadsTheConstant : Prop :=
  ∀ (d : Slot) (index : Len) (s : State),
    HasForm (.ldc d index) ⟨0x03, d, 0, 0, 0, index, 0, 0⟩ [(32 * d.toNat, 32)] ∧
    (index.toNat ≤ 4 → s.pc ≠ 255 → CompletesWriting (.ldc d index) s [slotsAt d 1] fun t => slotValue t d =
      [0xFFFFFFFFFFFFFFFFFFFFFFFFFFFFFFFFFFFFFFFFFFFFFFFFFFFFFFFEFFFFFC2F,
       0xFFFFFFFFFFFFFFFFFFFFFFFFFFFFFFFEBAAEDCE6AF48A03BBFD25E8CD0364141,
       0x79BE667EF9DCBBAC55A06295CE870B07029BFCDB2DCE28D959F2815B16F81798,
       0x483ADA7726A3C4655DA4FBFC0E1108A8FD17B448A68554199C47D08FFB10D4B8,
       0x7FFFFFFFFFFFFFFFFFFFFFFFFFFFFFFF5D576E7357A4501DDFE92F46681B20A0].getD index.toNat 0) ∧
    (4 < index.toNat → HaltsWith (.ldc d index) s .illegal)

/-- ADD (spec/41_bigint_modular.md R170): the sum modulo `2^256`, the carry in C, nothing else. -/
def Obligations.AddWritesSumAndCarry : Prop :=
  ∀ (d a b : Slot) (s : State),
    HasForm (.add d a b) ⟨0x10, d, a, b, 0, 0, 0, 0⟩ [(32 * a.toNat, 32), (32 * b.toNat, 32), (32 * d.toNat, 32)] ∧
    (s.pc ≠ 255 → ∃ t, exec (.add d a b) s = .next t ∧
      slotValue t d = (slotValue s a + slotValue s b) % 2 ^ 256 ∧
      t.c = decide (2 ^ 256 ≤ slotValue s a + slotValue s b) ∧ t.v = s.v ∧ t.cmp = s.cmp ∧
      Completed s t ∧ SameOutside [slotsAt d 1] s.dm t.dm)

/-- SUB (spec/41_bigint_modular.md R171): the difference modulo `2^256`, the borrow in C, nothing else. -/
def Obligations.SubWritesDifferenceAndBorrow : Prop :=
  ∀ (d a b : Slot) (s : State),
    HasForm (.sub d a b) ⟨0x11, d, a, b, 0, 0, 0, 0⟩ [(32 * a.toNat, 32), (32 * b.toNat, 32), (32 * d.toNat, 32)] ∧
    (s.pc ≠ 255 → ∃ t, exec (.sub d a b) s = .next t ∧
      (slotValue t d : Int) = ((slotValue s a : Int) - (slotValue s b : Int)) % 2 ^ 256 ∧
      t.c = decide (slotValue s a < slotValue s b) ∧ t.v = s.v ∧ t.cmp = s.cmp ∧
      Completed s t ∧ SameOutside [slotsAt d 1] s.dm t.dm)

/-- MUL (spec/41_bigint_modular.md R172): the exact product over two slots; D = 127 halts with RANGE. -/
def Obligations.MulWritesTheProduct : Prop :=
  ∀ (d a b : Slot) (s : State),
    HasForm (.mul d a b) ⟨0x12, d, a, b, 0, 0, 0, 0⟩ [(32 * a.toNat, 32), (32 * b.toNat, 32), (32 * d.toNat, 64)] ∧
    (d.toNat ≤ 126 → s.pc ≠ 255 → CompletesWriting (.mul d a b) s [slotsAt d 2] fun t =>
      slotValue t d = slotValue s a * slotValue s b / 2 ^ 256 ∧
      nextSlotValue t d = slotValue s a * slotValue s b % 2 ^ 256) ∧
    (d.toNat = 127 → HaltsWith (.mul d a b) s .range)

/-- CMP (spec/41_bigint_modular.md R173): the unsigned comparison in CMP, nothing else. -/
def Obligations.CmpWritesTheComparison : Prop :=
  ∀ (a b : Slot) (s : State),
    HasForm (.cmp a b) ⟨0x13, 0, a, b, 0, 0, 0, 0⟩ [(32 * a.toNat, 32), (32 * b.toNat, 32)] ∧
    (s.pc ≠ 255 → ∃ t, exec (.cmp a b) s = .next t ∧ t.dm = s.dm ∧ t.c = s.c ∧ t.v = s.v ∧ Completed s t ∧
      (slotValue s a = slotValue s b → t.cmp = .equal) ∧ (slotValue s a < slotValue s b → t.cmp = .less) ∧
      (slotValue s b < slotValue s a → t.cmp = .greater))

/-- MODADD, MODSUB, MODMUL (spec/41_bigint_modular.md R174, R175, R176): the residue in `[0, m)`; DOMAIN for `m = 0`. -/
def Obligations.ModularArithmetic : Prop :=
  ∀ (d a b c : Slot) (s : State),
    HasForm (.modadd d a b c) ⟨0x14, d, a, b, c, 0, 0, 0⟩
      [(32 * a.toNat, 32), (32 * b.toNat, 32), (32 * c.toNat, 32), (32 * d.toNat, 32)] ∧
    HasForm (.modsub d a b c) ⟨0x15, d, a, b, c, 0, 0, 0⟩
      [(32 * a.toNat, 32), (32 * b.toNat, 32), (32 * c.toNat, 32), (32 * d.toNat, 32)] ∧
    HasForm (.modmul d a b c) ⟨0x16, d, a, b, c, 0, 0, 0⟩
      [(32 * a.toNat, 32), (32 * b.toNat, 32), (32 * c.toNat, 32), (32 * d.toNat, 32)] ∧
    (slotValue s c = 0 → HaltsWith (.modadd d a b c) s .domain ∧ HaltsWith (.modsub d a b c) s .domain ∧
      HaltsWith (.modmul d a b c) s .domain) ∧
    (slotValue s c ≠ 0 → s.pc ≠ 255 →
      CompletesWriting (.modadd d a b c) s [slotsAt d 1] (fun t =>
        slotValue t d = (slotValue s a + slotValue s b) % slotValue s c) ∧
      CompletesWriting (.modsub d a b c) s [slotsAt d 1] (fun t =>
        (slotValue t d : Int) = ((slotValue s a : Int) - (slotValue s b : Int)) % (slotValue s c : Int)) ∧
      CompletesWriting (.modmul d a b c) s [slotsAt d 1] (fun t =>
        slotValue t d = slotValue s a * slotValue s b % slotValue s c))

/-- MONTMUL, MONTIN, MONTOUT (spec/41_bigint_modular.md R177, R178, R179): for an odd modulus the residue in `[0, m)` that,
multiplied by `R = 2^256`, is the product modulo `m` (so it is the product by `R^-1`); DOMAIN for an even one. -/
def Obligations.MontgomeryCommands : Prop :=
  ∀ (d a b c : Slot) (s : State),
    HasForm (.montmul d a b c) ⟨0x17, d, a, b, c, 0, 0, 0⟩
      [(32 * a.toNat, 32), (32 * b.toNat, 32), (32 * c.toNat, 32), (32 * d.toNat, 32)] ∧
    HasForm (.montin d a c) ⟨0x18, d, a, 0, c, 0, 0, 0⟩
      [(32 * a.toNat, 32), (32 * c.toNat, 32), (32 * d.toNat, 32)] ∧
    HasForm (.montout d a c) ⟨0x19, d, a, 0, c, 0, 0, 0⟩
      [(32 * a.toNat, 32), (32 * c.toNat, 32), (32 * d.toNat, 32)] ∧
    (slotValue s c % 2 = 0 → HaltsWith (.montmul d a b c) s .domain ∧ HaltsWith (.montin d a c) s .domain ∧
      HaltsWith (.montout d a c) s .domain) ∧
    (slotValue s c % 2 = 1 → s.pc ≠ 255 →
      CompletesWriting (.montmul d a b c) s [slotsAt d 1] (fun t => slotValue t d < slotValue s c ∧
        slotValue t d * 2 ^ 256 % slotValue s c = slotValue s a * slotValue s b % slotValue s c) ∧
      CompletesWriting (.montin d a c) s [slotsAt d 1] (fun t =>
        slotValue t d = slotValue s a * 2 ^ 256 % slotValue s c) ∧
      CompletesWriting (.montout d a c) s [slotsAt d 1] (fun t => slotValue t d < slotValue s c ∧
        slotValue t d * 2 ^ 256 % slotValue s c = slotValue s a % slotValue s c))

/-- MODEXP (spec/41_bigint_modular.md R180): `a^e mod m`, with `a^0 = 1`; DOMAIN for `m = 0`. -/
def Obligations.ModexpIsThePower : Prop :=
  ∀ (d a b c : Slot) (s : State),
    HasForm (.modexp d a b c) ⟨0x1A, d, a, b, c, 0, 0, 0⟩
      [(32 * a.toNat, 32), (32 * b.toNat, 32), (32 * c.toNat, 32), (32 * d.toNat, 32)] ∧
    (slotValue s c = 0 → HaltsWith (.modexp d a b c) s .domain) ∧
    (slotValue s c ≠ 0 → s.pc ≠ 255 → CompletesWriting (.modexp d a b c) s [slotsAt d 1] fun t =>
      slotValue t d = slotValue s a ^ slotValue s b % slotValue s c)

/-- GCD (spec/41_bigint_modular.md R181): the common divisor of the operands that every common divisor divides, and 0 only
for two zeros; it always completes. -/
def Obligations.GcdIsTheGreatestCommonDivisor : Prop :=
  ∀ (d a b : Slot) (s : State),
    HasForm (.gcd d a b) ⟨0x1B, d, a, b, 0, 0, 0, 0⟩ [(32 * a.toNat, 32), (32 * b.toNat, 32), (32 * d.toNat, 32)] ∧
    (s.pc ≠ 255 → CompletesWriting (.gcd d a b) s [slotsAt d 1] fun t =>
      slotValue t d ∣ slotValue s a ∧ slotValue t d ∣ slotValue s b ∧
      ∀ g, g ∣ slotValue s a → g ∣ slotValue s b → g ∣ slotValue t d)

/-- The engine's algorithm for GCD, Stein's, within the bounds of spec/70_reset_and_hazards.md R482, computes the value
GCD writes (spec/41_bigint_modular.md R181). -/
def Obligations.SteinComputesTheGcd : Prop :=
  ∀ a b : Nat, a < 2 ^ 256 → b < 2 ^ 256 → steinGcd a b = Nat.gcd a b

/-- MODINV (spec/41_bigint_modular.md R182): the Fermat form, its check, and its two errors. -/
def Obligations.ModinvIsTheFermatInverse : Prop :=
  ∀ (d a c : Slot) (s : State),
    HasForm (.modinv d a c) ⟨0x1C, d, a, 0, c, 0, 0, 0⟩
      [(32 * a.toNat, 32), (32 * c.toNat, 32), (32 * d.toNat, 32)] ∧
    (slotValue s c < 2 → HaltsWith (.modinv d a c) s .domain) ∧
    (2 ≤ slotValue s c →
      slotValue s a * (slotValue s a ^ (slotValue s c - 2) % slotValue s c) % slotValue s c ≠ 1 →
      HaltsWith (.modinv d a c) s .domain) ∧
    (2 ≤ slotValue s c →
      slotValue s a * (slotValue s a ^ (slotValue s c - 2) % slotValue s c) % slotValue s c = 1 → s.pc ≠ 255 →
      CompletesWriting (.modinv d a c) s [slotsAt d 1] fun t =>
        slotValue t d = slotValue s a ^ (slotValue s c - 2) % slotValue s c ∧
        slotValue s a * slotValue t d % slotValue s c = 1)

/-- MODINVVT (spec/41_bigint_modular.md R183): for an operand invertible modulo any `m >= 2`, the inverse in `[1, m)`;
DOMAIN otherwise. -/
def Obligations.ModinvvtIsTheInverse : Prop :=
  ∀ (d a c : Slot) (s : State),
    HasForm (.modinvvt d a c) ⟨0x1D, d, a, 0, c, 0, 0, 0⟩
      [(32 * a.toNat, 32), (32 * c.toNat, 32), (32 * d.toNat, 32)] ∧
    (slotValue s c < 2 ∨ Nat.gcd (slotValue s a % slotValue s c) (slotValue s c) ≠ 1 →
      HaltsWith (.modinvvt d a c) s .domain) ∧
    (2 ≤ slotValue s c → Nat.gcd (slotValue s a % slotValue s c) (slotValue s c) = 1 → s.pc ≠ 255 →
      CompletesWriting (.modinvvt d a c) s [slotsAt d 1] fun t =>
        1 ≤ slotValue t d ∧ slotValue t d < slotValue s c ∧ slotValue s a * slotValue t d % slotValue s c = 1)

/-- Two laws over several commands: SUB undoes ADD (spec/41_bigint_modular.md R185), and a product through Montgomery form
is the product (R186). The states between the commands are any that hold the values named. -/
def Obligations.ArithmeticLaws : Prop :=
  (∀ (d a b e x y : Slot) (s t u : State), exec (.add d a b) s = .next t → Completed s t →
    slotValue u x = slotValue t d → slotValue u y = slotValue s b → u.pc ≠ 255 →
    ∃ w, exec (.sub e x y) u = .next w ∧ slotValue w e = slotValue s a) ∧
  (∀ (d a b c : Slot) (s1 s2 s3 s4 t1 t2 t3 : State), slotValue s1 c % 2 = 1 →
    slotValue s2 c = slotValue s1 c → slotValue s3 c = slotValue s1 c → slotValue s4 c = slotValue s1 c →
    slotValue s1 a < slotValue s1 c → slotValue s2 b < slotValue s1 c →
    exec (.montin d a c) s1 = .next t1 → Completed s1 t1 → exec (.montin d b c) s2 = .next t2 → Completed s2 t2 →
    slotValue s3 a = slotValue t1 d → slotValue s3 b = slotValue t2 d →
    exec (.montmul d a b c) s3 = .next t3 → Completed s3 t3 → slotValue s4 a = slotValue t3 d → s4.pc ≠ 255 →
    ∃ w, exec (.montout d a c) s4 = .next w ∧ slotValue w d = slotValue s1 a * slotValue s2 b % slotValue s1 c)

/-- ECADD and ECDBL (spec/42_curve.md R225, R226): the group law of R221 on valid operands, written affine with O as
(0, 0); DOMAIN for an invalid operand. -/
def Obligations.PointAdderAndDoubler : Prop :=
  ∀ (d a b : Slot) (s : State),
    HasForm (.ecadd d a b) ⟨0x20, d, a, b, 0, 0, 0, 0⟩ [(32 * a.toNat, 64), (32 * b.toNat, 64), (32 * d.toNat, 64)] ∧
    HasForm (.ecdbl d a) ⟨0x21, d, a, 0, 0, 0, 0, 0⟩ [(32 * a.toNat, 64), (32 * d.toNat, 64)] ∧
    (a.toNat ≤ 126 → b.toNat ≤ 126 → d.toNat ≤ 126 →
      (ValidOperand (slotValue s a) (nextSlotValue s a) → ValidOperand (slotValue s b) (nextSlotValue s b) →
        s.pc ≠ 255 → CompletesWriting (.ecadd d a b) s [slotsAt d 2] fun t =>
          HoldsPoint t d (pointAdd (slotPoint s a) (slotPoint s b))) ∧
      (¬ValidOperand (slotValue s a) (nextSlotValue s a) ∨ ¬ValidOperand (slotValue s b) (nextSlotValue s b) →
        HaltsWith (.ecadd d a b) s .domain)) ∧
    (a.toNat ≤ 126 → d.toNat ≤ 126 →
      (ValidOperand (slotValue s a) (nextSlotValue s a) → s.pc ≠ 255 →
        CompletesWriting (.ecdbl d a) s [slotsAt d 2] fun t =>
          HoldsPoint t d (pointAdd (slotPoint s a) (slotPoint s a))) ∧
      (¬ValidOperand (slotValue s a) (nextSlotValue s a) → HaltsWith (.ecdbl d a) s .domain))

/-- ECMUL and ECMULG (spec/42_curve.md R228, R229): the scalar multiple of R227 of a valid point, and of G; DOMAIN for an
invalid point. -/
def Obligations.ScalarMultipliers : Prop :=
  ∀ (d a b : Slot) (s : State),
    HasForm (.ecmul d a b) ⟨0x22, d, a, b, 0, 0, 0, 0⟩ [(32 * a.toNat, 64), (32 * b.toNat, 32), (32 * d.toNat, 64)] ∧
    HasForm (.ecmulg d b) ⟨0x23, d, 0, b, 0, 0, 0, 0⟩ [(32 * b.toNat, 32), (32 * d.toNat, 64)] ∧
    (a.toNat ≤ 126 → d.toNat ≤ 126 →
      (ValidOperand (slotValue s a) (nextSlotValue s a) → s.pc ≠ 255 →
        CompletesWriting (.ecmul d a b) s [slotsAt d 2] fun t =>
          HoldsPoint t d (scalarMul (slotValue s b) (slotPoint s a))) ∧
      (¬ValidOperand (slotValue s a) (nextSlotValue s a) → HaltsWith (.ecmul d a b) s .domain)) ∧
    (d.toNat ≤ 126 → s.pc ≠ 255 → CompletesWriting (.ecmulg d b) s [slotsAt d 2] fun t =>
      HoldsPoint t d (scalarMul (slotValue s b) (.affine
        0x79BE667EF9DCBBAC55A06295CE870B07029BFCDB2DCE28D959F2815B16F81798
        0x483ADA7726A3C4655DA4FBFC0E1108A8FD17B448A68554199C47D08FFB10D4B8)))

/-- The ladder of spec/42_curve.md R227 on small scalars, for every point: k = 0 modulo n gives O, and O gives O; the
first multiples are the sums they stand for, and k counts modulo n. -/
def Obligations.LadderSmallMultiples : Prop :=
  ∀ (k : Nat) (q : Point),
    (k % secN = 0 → scalarMul k q = .infinity) ∧ scalarMul k .infinity = .infinity ∧
    (k % secN = 1 → scalarMul k q = q) ∧ (k % secN = 2 → scalarMul k q = pointAdd q q) ∧
    (k % secN = 3 → scalarMul k q = pointAdd (pointAdd q q) q) ∧ scalarMul (k + secN) q = scalarMul k q

/-- ECCHK (spec/42_curve.md R230): the verdict in V, of an affine point only; an invalid point is no error. -/
def Obligations.EcchkWritesTheVerdict : Prop :=
  ∀ (a : Slot) (s : State),
    HasForm (.ecchk a) ⟨0x24, 0, a, 0, 0, 0, 0, 0⟩ [(32 * a.toNat, 64)] ∧
    (a.toNat ≤ 126 → s.pc ≠ 255 → ∃ t, exec (.ecchk a) s = .next t ∧
      (t.v = true ↔ AffineOnCurve (slotValue s a) (nextSlotValue s a)) ∧
      t.dm = s.dm ∧ t.c = s.c ∧ t.cmp = s.cmp ∧ Completed s t) ∧
    (a.toNat = 127 → HaltsWith (.ecchk a) s .range)

/-- PKENC (spec/42_curve.md R231): the SEC1 encoding of a valid affine point, 33 bytes compressed or 65 not; DOMAIN for O
and for an invalid point. -/
def Obligations.PkencWritesTheEncoding : Prop :=
  ∀ (d a : Slot) (compressed : Bool) (s : State),
    HasForm (.pkenc d a compressed) ⟨0x25, d, a, 0, 0, 0, 0, if compressed then 1 else 0⟩
      [(32 * a.toNat, 64), (32 * d.toNat, if compressed then 33 else 65)] ∧
    (a.toNat ≤ 126 → 32 * d.toNat + (if compressed then 33 else 65) ≤ 4096 →
      (AffineOnCurve (slotValue s a) (nextSlotValue s a) → s.pc ≠ 255 →
        CompletesWriting (.pkenc d a compressed) s [bytesAt d (if compressed then 33 else 65)] fun t =>
          (compressed = true → memRead t (slotAddr d) 33 =
            BitVec.ofNat 8 (2 + nextSlotValue s a % 2) :: beBytes 32 (slotValue s a)) ∧
          (compressed = false → memRead t (slotAddr d) 65 =
            (0x04 : Byte) :: (beBytes 32 (slotValue s a) ++ beBytes 32 (nextSlotValue s a)))) ∧
      (¬AffineOnCurve (slotValue s a) (nextSlotValue s a) → HaltsWith (.pkenc d a compressed) s .domain))

/-- PKDEC (spec/42_curve.md R232, R233): both encodings, with ENCODING for a wrong length or prefix and DOMAIN for a
coordinate out of range, no square root, or a point off the curve. -/
def Obligations.PkdecReadsTheEncoding : Prop :=
  ∀ (d a : Slot) (l1 : Len) (s : State),
    HasForm (.pkdec d a l1) ⟨0x26, d, a, 0, 0, l1, 0, 0⟩ [(32 * a.toNat, l1.toNat), (32 * d.toNat, 64)] ∧
    (32 * a.toNat + l1.toNat ≤ 4096 → d.toNat ≤ 126 →
      (l1.toNat ≠ 33 → l1.toNat ≠ 65 → HaltsWith (.pkdec d a l1) s .encoding) ∧
      (l1.toNat = 33 → s.dm.read (32 * a.toNat) ≠ 2 → s.dm.read (32 * a.toNat) ≠ 3 →
        HaltsWith (.pkdec d a l1) s .encoding) ∧
      (l1.toNat = 65 → s.dm.read (32 * a.toNat) ≠ 4 → HaltsWith (.pkdec d a l1) s .encoding) ∧
      (l1.toNat = 65 → s.dm.read (32 * a.toNat) = 4 → ∀ x y, x = be (memRead s (32 * a.toNat + 1) 32) →
        y = be (memRead s (32 * a.toNat + 33) 32) →
        (AffineOnCurve x y → s.pc ≠ 255 → CompletesWriting (.pkdec d a l1) s [slotsAt d 2] fun t =>
          slotValue t d = x ∧ nextSlotValue t d = y) ∧
        (¬AffineOnCurve x y → HaltsWith (.pkdec d a l1) s .domain)) ∧
      (l1.toNat = 33 → s.dm.read (32 * a.toNat) = 2 ∨ s.dm.read (32 * a.toNat) = 3 →
        ∀ x alpha beta, x = be (memRead s (32 * a.toNat + 1) 32) → alpha = (x ^ 3 + 7) % secP →
        beta = alpha ^ ((secP + 1) / 4) % secP →
        (secP ≤ x → HaltsWith (.pkdec d a l1) s .domain) ∧
        (x < secP → beta ^ 2 % secP ≠ alpha → HaltsWith (.pkdec d a l1) s .domain) ∧
        (x < secP → beta ^ 2 % secP = alpha → s.pc ≠ 255 →
          CompletesWriting (.pkdec d a l1) s [slotsAt d 2] fun t => slotValue t d = x ∧
            nextSlotValue t d = if beta % 2 = (s.dm.read (32 * a.toNat)).toNat % 2 then beta else secP - beta)))

/-- A point encoded uncompressed and decoded again, from wherever its 65 bytes then lie, is the point
(spec/42_curve.md R231, R232). -/
def Obligations.PointCodecRoundTrip : Prop :=
  ∀ (d a e x : Slot) (s t u : State), exec (.pkenc d a false) s = .next t → Completed s t →
    memRead u (slotAddr x) 65 = memRead t (slotAddr d) 65 → 32 * x.toNat + 65 ≤ 4096 → e.toNat ≤ 126 →
    u.pc ≠ 255 → CompletesWriting (.pkdec e x 65) u [slotsAt e 2] fun w =>
      slotValue w e = slotValue s a ∧ nextSlotValue w e = nextSlotValue s a

/-- ECDSA_SIGN (spec/43_ecdsa.md R261, R264): the signature of digest A under key B and nonce C, both components in
`[1, n-1]`, low-s under LOWS; DOMAIN in each of the four cases the rule names. -/
def Obligations.EcdsaSign : Prop :=
  ∀ (d a b c : Slot) (lows : Bool) (s : State) (r x : Nat),
    r = pointX (scalarMul (slotValue s c) basePoint) % secN →
    x = slotValue s c ^ (secN - 2) % secN * (slotValue s a + r * slotValue s b) % secN →
    HasForm (.ecdsaSign d a b c lows) ⟨0x30, d, a, b, c, 0, 0, if lows then 1 else 0⟩
      [(32 * a.toNat, 32), (32 * b.toNat, 32), (32 * c.toNat, 32), (32 * d.toNat, 64)] ∧
    (d.toNat ≤ 126 →
      (slotValue s b = 0 ∨ secN ≤ slotValue s b ∨ slotValue s c = 0 ∨ secN ≤ slotValue s c ∨ r = 0 ∨ x = 0 →
        HaltsWith (.ecdsaSign d a b c lows) s .domain) ∧
      (slotValue s b ≠ 0 → slotValue s b < secN → slotValue s c ≠ 0 → slotValue s c < secN → r ≠ 0 → x ≠ 0 →
        s.pc ≠ 255 → CompletesWriting (.ecdsaSign d a b c lows) s [slotsAt d 2] fun t =>
          slotValue t d = r ∧ nextSlotValue t d = (if lows = true ∧ secHalf < x then secN - x else x) ∧
          1 ≤ slotValue t d ∧ slotValue t d < secN ∧ 1 ≤ nextSlotValue t d ∧ nextSlotValue t d < secN ∧
          (lows = true → nextSlotValue t d ≤ secHalf)))

/-- ECDSA_VERIFY (spec/43_ecdsa.md R262, R264): V holds the verdict on digest A, key B and signature C; DOMAIN for a
component out of range or a key that is O or no point of the curve. -/
def Obligations.EcdsaVerify : Prop :=
  ∀ (a b c : Slot) (lows : Bool) (s : State) (w : Nat), w = nextSlotValue s c ^ (secN - 2) % secN →
    HasForm (.ecdsaVerify a b c lows) ⟨0x31, 0, a, b, c, 0, 0, if lows then 1 else 0⟩
      [(32 * a.toNat, 32), (32 * b.toNat, 64), (32 * c.toNat, 64)] ∧
    (b.toNat ≤ 126 → c.toNat ≤ 126 →
      (slotValue s c = 0 ∨ secN ≤ slotValue s c ∨ nextSlotValue s c = 0 ∨ secN ≤ nextSlotValue s c ∨
          ¬AffineOnCurve (slotValue s b) (nextSlotValue s b) →
        HaltsWith (.ecdsaVerify a b c lows) s .domain) ∧
      (slotValue s c ≠ 0 → slotValue s c < secN → nextSlotValue s c ≠ 0 → nextSlotValue s c < secN →
        AffineOnCurve (slotValue s b) (nextSlotValue s b) → s.pc ≠ 255 →
        ∃ t, exec (.ecdsaVerify a b c lows) s = .next t ∧ Completed s t ∧ t.dm = s.dm ∧ t.c = s.c ∧ t.cmp = s.cmp ∧
          (t.v = true ↔ ¬(lows = true ∧ secHalf < nextSlotValue s c) ∧
            pointAdd (scalarMul (slotValue s a * w % secN) basePoint)
              (scalarMul (slotValue s c * w % secN) (.affine (slotValue s b) (nextSlotValue s b))) ≠ .infinity ∧
            pointX (pointAdd (scalarMul (slotValue s a * w % secN) basePoint)
              (scalarMul (slotValue s c * w % secN) (.affine (slotValue s b) (nextSlotValue s b)))) % secN =
              slotValue s c)))

/-- SHA256_INIT and SHA256_COMPRESS (spec/44_sha256.md R286, R289): the context of the empty message, and one compression
of a state slot by a 64-byte block. -/
def Obligations.ShaInitAndCompress : Prop :=
  ∀ (a c : Slot) (s : State),
    HasForm (.sha256Init c) ⟨0x40, 0, 0, 0, c, 0, 0, 0⟩ [(32 * c.toNat, 128)] ∧
    HasForm (.sha256Compress a c) ⟨0x43, 0, a, 0, c, 0, 0, 0⟩ [(32 * a.toNat, 64), (32 * c.toNat, 32)] ∧
    (c.toNat ≤ 124 → s.pc ≠ 255 → CompletesWriting (.sha256Init c) s [slotsAt c 4] fun t =>
      memRead t (slotAddr c) 128 =
        wordsBe32 [0x6A09E667, 0xBB67AE85, 0x3C6EF372, 0xA54FF53A, 0x510E527F, 0x9B05688C, 0x1F83D9AB, 0x5BE0CD19] ++
          zeros 64 ++ beBytes 8 0 ++ [1] ++ zeros 23) ∧
    (125 ≤ c.toNat → HaltsWith (.sha256Init c) s .range) ∧
    (a.toNat ≤ 126 → s.pc ≠ 255 → CompletesWriting (.sha256Compress a c) s [slotsAt c 1] fun t =>
      memRead t (slotAddr c) 32 =
        wordsBe32 (shaCompress (be32Words (memRead s (slotAddr c) 32)) (memRead s (slotAddr a) 64)))

/-- SHA256_UPDATE and SHA256_FINAL (spec/44_sha256.md R287, R288): the context advanced or consumed, the digest written
last, MISUSE for a context that is not Active or past the length limit. -/
def Obligations.ShaUpdateAndFinal : Prop :=
  ∀ (d a c : Slot) (l1 : Len) (s : State) (ctx : List Byte), ctx = memRead s (slotAddr c) 128 →
    HasForm (.sha256Update a c l1) ⟨0x41, 0, a, 0, c, l1, 0, 0⟩ [(32 * a.toNat, l1.toNat), (32 * c.toNat, 128)] ∧
    HasForm (.sha256Final d c) ⟨0x42, d, 0, 0, c, 0, 0, 0⟩ [(32 * c.toNat, 128), (32 * d.toNat, 32)] ∧
    (c.toNat ≤ 124 → 32 * a.toNat + l1.toNat ≤ 4096 →
      (byteAt ctx 104 ≠ 1 ∨ 2 ^ 61 ≤ shaCount ctx + l1.toNat → HaltsWith (.sha256Update a c l1) s .misuse) ∧
      (byteAt ctx 104 = 1 → shaCount ctx + l1.toNat < 2 ^ 61 → s.pc ≠ 255 →
        CompletesWriting (.sha256Update a c l1) s [bytesAt c 104] fun t =>
          memRead t (slotAddr c) 128 =
            shaUpdated ctx (memRead s (slotAddr a) l1.toNat) ++ ctx.drop 104)) ∧
    (c.toNat ≤ 124 →
      (byteAt ctx 104 ≠ 1 ∨ 2 ^ 61 ≤ shaCount ctx → HaltsWith (.sha256Final d c) s .misuse) ∧
      (byteAt ctx 104 = 1 → shaCount ctx < 2 ^ 61 → s.pc ≠ 255 →
        CompletesWriting (.sha256Final d c) s [bytesAt c 105, slotsAt d 1] fun t =>
          memRead t (slotAddr d) 32 = shaDigest ctx ∧
          ∀ k, k < 105 → (slotsAt d 1).has (slotAddr c + k) = false →
            t.dm.read (slotAddr c + k) = if k = 104 then 2 else 0))

/-- Streaming equals one-shot (spec/44_sha256.md R291): finalizing a context that INIT made and any number of UPDATEs fed
writes the SHA-256 of the whole message, wherever its pieces lay. -/
def Obligations.ShaStreamingIsOneShot : Prop :=
  ∀ (c d : Slot) (s : State) (message : List Byte),
    Fed (.sha256Init c) (fun a l1 => .sha256Update a c l1) c 128 s message → message.length < 2 ^ 61 → s.pc ≠ 255 →
    ∃ t, exec (.sha256Final d c) s = .next t ∧ Completed s t ∧ memRead t (slotAddr d) 32 = sha256 message

/-- KECCAK_INIT and KECCAKF (spec/45_keccak.md R315, R318): the context of the empty message, and the permutation of a
200-byte state in place. -/
def Obligations.KeccakInitAndPermutation : Prop :=
  ∀ (c : Slot) (s : State),
    HasForm (.keccakInit c) ⟨0x44, 0, 0, 0, c, 0, 0, 0⟩ [(32 * c.toNat, 224)] ∧
    HasForm (.keccakf c) ⟨0x47, 0, 0, 0, c, 0, 0, 0⟩ [(32 * c.toNat, 200)] ∧
    (c.toNat ≤ 121 → s.pc ≠ 255 →
      CompletesWriting (.keccakInit c) s [slotsAt c 7] (fun t =>
        memRead t (slotAddr c) 224 = zeros 200 ++ [0, 1] ++ zeros 22) ∧
      CompletesWriting (.keccakf c) s [bytesAt c 200] (fun t =>
        memRead t (slotAddr c) 200 = keccakPermute (memRead s (slotAddr c) 200))) ∧
    (122 ≤ c.toNat → HaltsWith (.keccakInit c) s .range ∧ HaltsWith (.keccakf c) s .range)

/-- KECCAK_UPDATE and KECCAK_FINAL (spec/45_keccak.md R316, R317): the context advanced or consumed, the digest written
last, MISUSE for a context that is not Active or whose position is out of range. -/
def Obligations.KeccakUpdateAndFinal : Prop :=
  ∀ (d a c : Slot) (l1 : Len) (s : State) (ctx : List Byte), ctx = memRead s (slotAddr c) 224 →
    HasForm (.keccakUpdate a c l1) ⟨0x45, 0, a, 0, c, l1, 0, 0⟩ [(32 * a.toNat, l1.toNat), (32 * c.toNat, 224)] ∧
    HasForm (.keccakFinal d c) ⟨0x46, d, 0, 0, c, 0, 0, 0⟩ [(32 * c.toNat, 224), (32 * d.toNat, 32)] ∧
    (c.toNat ≤ 121 → 32 * a.toNat + l1.toNat ≤ 4096 →
      (byteAt ctx 201 ≠ 1 ∨ 136 ≤ keccakPos ctx → HaltsWith (.keccakUpdate a c l1) s .misuse) ∧
      (byteAt ctx 201 = 1 → keccakPos ctx < 136 → s.pc ≠ 255 →
        CompletesWriting (.keccakUpdate a c l1) s [bytesAt c 201] fun t =>
          memRead t (slotAddr c) 224 =
            keccakUpdated ctx (memRead s (slotAddr a) l1.toNat) ++ ctx.drop 201)) ∧
    (c.toNat ≤ 121 →
      (byteAt ctx 201 ≠ 1 ∨ 136 ≤ keccakPos ctx → HaltsWith (.keccakFinal d c) s .misuse) ∧
      (byteAt ctx 201 = 1 → keccakPos ctx < 136 → s.pc ≠ 255 →
        CompletesWriting (.keccakFinal d c) s [bytesAt c 202, slotsAt d 1] fun t =>
          memRead t (slotAddr d) 32 = keccakSqueeze (ctx.take 200) (keccakPos ctx) ∧
          ∀ k, k < 202 → (slotsAt d 1).has (slotAddr c + k) = false →
            t.dm.read (slotAddr c + k) = if k = 201 then 2 else 0))

/-- Streaming equals one-shot (spec/45_keccak.md R320). -/
def Obligations.KeccakStreamingIsOneShot : Prop :=
  ∀ (c d : Slot) (s : State) (message : List Byte),
    Fed (.keccakInit c) (fun a l1 => .keccakUpdate a c l1) c 224 s message → s.pc ≠ 255 →
    ∃ t, exec (.keccakFinal d c) s = .next t ∧ Completed s t ∧ memRead t (slotAddr d) 32 = keccak256 message

/-- B3_COMPRESS (spec/46_blake3.md R345): the 64 output bytes of the node; ENCODING for a block length above 64. -/
def Obligations.Blake3Node : Prop :=
  ∀ (d a b c : Slot) (s : State),
    HasForm (.b3Compress d a b c) ⟨0x48, d, a, b, c, 0, 0, 0⟩
      [(32 * a.toNat, 32), (32 * b.toNat, 64), (32 * c.toNat, 32), (32 * d.toNat, 64)] ∧
    (b.toNat ≤ 126 → d.toNat ≤ 126 →
      (64 < (s.dm.read (32 * c.toNat + 8)).toNat → HaltsWith (.b3Compress d a b c) s .encoding) ∧
      ((s.dm.read (32 * c.toNat + 8)).toNat ≤ 64 → s.pc ≠ 255 →
        CompletesWriting (.b3Compress d a b c) s [slotsAt d 2] fun t =>
          memRead t (slotAddr d) 64 = wordsLe32 (b3CompressWords (le32Words (memRead s (slotAddr a) 32))
            (le32Words (memRead s (slotAddr b) 64)) (le (memRead s (slotAddr c) 8))
            (s.dm.read (32 * c.toNat + 8)).toNat (s.dm.read (32 * c.toNat + 9)).toNat)))

/-- CHACHA_QR and CHACHA_BLOCK (spec/47_chacha20.md R374, R375): one quarter round on 16 bytes; one keystream block of the
context's key, counter and nonce, with the context left as it is. -/
def Obligations.ChachaQuarterRoundAndBlock : Prop :=
  ∀ (d a c : Slot) (s : State),
    HasForm (.chachaQr d a) ⟨0x50, d, a, 0, 0, 0, 0, 0⟩ [(32 * a.toNat, 16), (32 * d.toNat, 16)] ∧
    HasForm (.chachaBlock d c) ⟨0x51, d, 0, 0, c, 0, 0, 0⟩ [(32 * c.toNat, 64), (32 * d.toNat, 64)] ∧
    (s.pc ≠ 255 → CompletesWriting (.chachaQr d a) s [bytesAt d 16] fun t =>
      ∀ x0 x1 x2 x3 y0 y1 y2 y3, le32Words (memRead s (slotAddr a) 16) = [x0, x1, x2, x3] →
        quarterRound x0 x1 x2 x3 = (y0, y1, y2, y3) → memRead t (slotAddr d) 16 = wordsLe32 [y0, y1, y2, y3]) ∧
    (c.toNat ≤ 126 → d.toNat ≤ 126 → s.pc ≠ 255 → CompletesWriting (.chachaBlock d c) s [slotsAt d 2] fun t =>
      memRead t (slotAddr d) 64 = chachaBlock (memRead s (slotAddr c) 32) (le (memRead s (slotAddr c + 32) 4))
        (memRead s (slotAddr c + 36) 12))

/-- CHACHA_XOR (spec/47_chacha20.md R376): the text XOR the keystream, written last; the context's counter advanced by the
blocks used and EXH set with the last counter value; MISUSE for a used-up or wrapping counter; nothing for L1 = 0. -/
def Obligations.ChachaXor : Prop :=
  ∀ (d a c : Slot) (l1 : Len) (s : State) (counter blocks : Nat),
    counter = le (memRead s (slotAddr c + 32) 4) → blocks = (l1.toNat + 63) / 64 →
    HasForm (.chachaXor d a c l1) ⟨0x52, d, a, 0, c, l1, 0, 0⟩
      [(32 * a.toNat, l1.toNat), (32 * c.toNat, 64), (32 * d.toNat, l1.toNat)] ∧
    (32 * a.toNat + l1.toNat ≤ 4096 → c.toNat ≤ 126 → 32 * d.toNat + l1.toNat ≤ 4096 →
      (l1.toNat = 0 → s.pc ≠ 255 →
        ∃ t, exec (.chachaXor d a c l1) s = .next t ∧ Completed s t ∧ SameFlags s t ∧ t.dm = s.dm) ∧
      (l1.toNat ≠ 0 → s.dm.read (slotAddr c + 48) ≠ 0 ∨ 2 ^ 32 < counter + blocks →
        HaltsWith (.chachaXor d a c l1) s .misuse) ∧
      (l1.toNat ≠ 0 → s.dm.read (slotAddr c + 48) = 0 → counter + blocks ≤ 2 ^ 32 → s.pc ≠ 255 →
        CompletesWriting (.chachaXor d a c l1) s
          ([appendedAt c 32 4, bytesAt d l1.toNat] ++
            if counter + blocks = 2 ^ 32 then [appendedAt c 48 1] else []) fun t =>
          memRead t (slotAddr d) l1.toNat = xorBytes (memRead s (slotAddr a) l1.toNat)
            (keystream (memRead s (slotAddr c) 32) (memRead s (slotAddr c + 36) 12) counter blocks) ∧
          (∀ k, k < 4 → (bytesAt d l1.toNat).has (slotAddr c + 32 + k) = false →
            t.dm.read (slotAddr c + 32 + k) =
              BitVec.ofNat 8 ((counter + blocks) % 2 ^ 32 / 256 ^ k)) ∧
          (counter + blocks = 2 ^ 32 → (bytesAt d l1.toNat).has (slotAddr c + 48) = false →
            t.dm.read (slotAddr c + 48) = 1)))

/-- POLY1305 and AEAD_ENC (spec/48_poly1305_aead.md R402, R405): the tag of the message; the ciphertext followed by its
tag, the context's counter and EXH fields left as they are. -/
def Obligations.PolyTagAndAeadSeal : Prop :=
  ∀ (d a b c : Slot) (l1 l2 : Len) (s : State) (key nonce text : List Byte),
    key = memRead s (slotAddr c) 32 → nonce = memRead s (slotAddr c + 36) 12 →
    text = memRead s (slotAddr a) l1.toNat →
    HasForm (.poly1305 d a c l1) ⟨0x53, d, a, 0, c, l1, 0, 0⟩
      [(32 * a.toNat, l1.toNat), (32 * c.toNat, 32), (32 * d.toNat, 16)] ∧
    HasForm (.aeadEnc d a b c l1 l2) ⟨0x54, d, a, b, c, l1, l2, 0⟩
      [(32 * a.toNat, l1.toNat), (32 * b.toNat, l2.toNat), (32 * c.toNat, 64), (32 * d.toNat, l1.toNat + 16)] ∧
    (32 * a.toNat + l1.toNat ≤ 4096 → s.pc ≠ 255 →
      CompletesWriting (.poly1305 d a c l1) s [bytesAt d 16] fun t =>
        memRead t (slotAddr d) 16 = poly1305Tag key text) ∧
    (32 * a.toNat + l1.toNat ≤ 4096 → 32 * b.toNat + l2.toNat ≤ 4096 → c.toNat ≤ 126 →
      32 * d.toNat + l1.toNat + 16 ≤ 4096 → s.pc ≠ 255 →
      CompletesWriting (.aeadEnc d a b c l1 l2) s [bytesAt d (l1.toNat + 16)] fun t =>
        memRead t (slotAddr d) l1.toNat = xorBytes text (keystream key nonce 1 ((l1.toNat + 63) / 64)) ∧
        memRead t (slotAddr d + l1.toNat) 16 = poly1305Tag ((chachaBlock key 0 nonce).take 32)
          (macData (memRead s (slotAddr b) l2.toNat) (memRead t (slotAddr d) l1.toNat)))

/-- AEAD_DEC (spec/48_poly1305_aead.md R406, R407): the plaintext where the tag received is the tag recomputed; AUTH, with
no byte of plaintext, otherwise. -/
def Obligations.AeadOpen : Prop :=
  ∀ (d a b c : Slot) (l1 l2 : Len) (s : State) (key nonce text : List Byte),
    key = memRead s (slotAddr c) 32 → nonce = memRead s (slotAddr c + 36) 12 →
    text = memRead s (slotAddr a) l1.toNat →
    HasForm (.aeadDec d a b c l1 l2) ⟨0x55, d, a, b, c, l1, l2, 0⟩
      [(32 * a.toNat, l1.toNat + 16), (32 * b.toNat, l2.toNat), (32 * c.toNat, 64), (32 * d.toNat, l1.toNat)] ∧
    (32 * a.toNat + l1.toNat + 16 ≤ 4096 → 32 * b.toNat + l2.toNat ≤ 4096 → c.toNat ≤ 126 →
      32 * d.toNat + l1.toNat ≤ 4096 →
      (memRead s (slotAddr a + l1.toNat) 16 =
          poly1305Tag ((chachaBlock key 0 nonce).take 32) (macData (memRead s (slotAddr b) l2.toNat) text) →
        s.pc ≠ 255 → CompletesWriting (.aeadDec d a b c l1 l2) s [bytesAt d l1.toNat] fun t =>
          memRead t (slotAddr d) l1.toNat = xorBytes text (keystream key nonce 1 ((l1.toNat + 63) / 64))) ∧
      (memRead s (slotAddr a + l1.toNat) 16 ≠
          poly1305Tag ((chachaBlock key 0 nonce).take 32) (macData (memRead s (slotAddr b) l2.toNat) text) →
        HaltsWith (.aeadDec d a b c l1 l2) s .auth))

/-- The AEAD round trip and its tag (spec/48_poly1305_aead.md R408 (1), (2)): what AEAD_ENC sealed, AEAD_DEC opens to the
plaintext under the same key, nonce and associated data, wherever they then lie; with any change of the tag alone,
it halts with AUTH. -/
def Obligations.AeadRoundTrip : Prop :=
  ∀ (d a b c d' b' c' : Slot) (l1 l2 : Len) (s t u : State),
    exec (.aeadEnc d a b c l1 l2) s = .next t → Completed s t →
    regionsInRange (.aeadDec d' d b' c' l1 l2) = true →
    memRead u (slotAddr b') l2.toNat = memRead s (slotAddr b) l2.toNat →
    memRead u (slotAddr c') 32 = memRead s (slotAddr c) 32 →
    memRead u (slotAddr c' + 36) 12 = memRead s (slotAddr c + 36) 12 →
    memRead u (slotAddr d) l1.toNat = memRead t (slotAddr d) l1.toNat →
    (memRead u (slotAddr d + l1.toNat) 16 = memRead t (slotAddr d + l1.toNat) 16 → u.pc ≠ 255 →
      CompletesWriting (.aeadDec d' d b' c' l1 l2) u [bytesAt d' l1.toNat] fun w =>
        memRead w (slotAddr d') l1.toNat = memRead s (slotAddr a) l1.toNat) ∧
    (memRead u (slotAddr d + l1.toNat) 16 ≠ memRead t (slotAddr d + l1.toNat) 16 →
      HaltsWith (.aeadDec d' d b' c' l1 l2) u .auth)

end
end

