-- ==== Sys2Proof/Laws/Bytes.lean ====
section
/-! SUPPORT. The small lemmas of byte strings and byte orders. -/

namespace Sys2Proof.Machine

@[simp] theorem zeros_length (n : Nat) : (zeros n).length = n := by simp [zeros]

@[simp] theorem leBytes_length (n v : Nat) : (leBytes n v).length = n := by
  induction n generalizing v with
  | zero => rfl
  | succ n ih => simp [leBytes, ih]

@[simp] theorem beBytes_length (n v : Nat) : (beBytes n v).length = n := by simp [beBytes]

/-- A byte string of length `n` is an integer below `2^(8n)`. -/
theorem le_lt (bs : List Byte) : le bs < 256 ^ bs.length := by
  induction bs with
  | nil => simp [le]
  | cons b bs ih =>
    have hb := b.isLt
    have h8 : (2 : Nat) ^ 8 = 256 := by decide
    simp only [le, List.length_cons, Nat.pow_succ]
    omega

theorem be_lt (bs : List Byte) : be bs < 256 ^ bs.length := by
  have h := le_lt bs.reverse
  rwa [List.length_reverse] at h

/-- `le(le_n(v)) = v mod 2^(8n)`. -/
theorem le_leBytes (n v : Nat) : le (leBytes n v) = v % 256 ^ n := by
  induction n generalizing v with
  | zero => simp [leBytes, le, Nat.mod_one]
  | succ n ih =>
    simp only [leBytes, le, ih, BitVec.toNat_ofNat]
    have h := Nat.mod_mul (x := v) (a := 256) (b := 256 ^ n)
    have h8 : (2 : Nat) ^ 8 = 256 := by decide
    have hn : 256 ^ (n + 1) = 256 * 256 ^ n := Nat.pow_succ'
    rw [hn, h8]
    omega

/-- `be(be_n(v)) = v mod 2^(8n)`. -/
theorem be_beBytes (n v : Nat) : be (beBytes n v) = v % 256 ^ n := by
  simp [be, beBytes, le_leBytes]

/-- `le_n(le(s)) = s` for a string of length `n`. -/
theorem leBytes_le (bs : List Byte) : leBytes bs.length (le bs) = bs := by
  induction bs with
  | nil => rfl
  | cons b bs ih =>
    have hb := b.isLt
    have h8 : (2 : Nat) ^ 8 = 256 := by decide
    have hd : (b.toNat + 256 * le bs) / 256 = le bs := by omega
    have hm : BitVec.ofNat 8 (b.toNat + 256 * le bs) = b := by
      apply BitVec.eq_of_toNat_eq
      simp only [BitVec.toNat_ofNat]
      omega
    simp only [List.length_cons, leBytes, le, hd, hm, ih]

/-- `be_n(be(s)) = s` for a string of length `n`. -/
theorem beBytes_be (bs : List Byte) : beBytes bs.length (be bs) = bs := by
  have h := leBytes_le bs.reverse
  rw [List.length_reverse] at h
  simp [beBytes, be, h]

@[simp] theorem wordsLe32_length (ws : List W32) : (wordsLe32 ws).length = 4 * ws.length := by
  induction ws with
  | nil => rfl
  | cons w ws ih => simp only [wordsLe32, List.flatMap_cons, List.length_append, leBytes_length,
      List.length_cons] at *; omega

@[simp] theorem wordsBe32_length (ws : List W32) : (wordsBe32 ws).length = 4 * ws.length := by
  induction ws with
  | nil => rfl
  | cons w ws ih => simp only [wordsBe32, List.flatMap_cons, List.length_append, beBytes_length,
      List.length_cons] at *; omega

@[simp] theorem wordsLe64_length (ws : List W64) : (wordsLe64 ws).length = 8 * ws.length := by
  induction ws with
  | nil => rfl
  | cons w ws ih => simp only [wordsLe64, List.flatMap_cons, List.length_append, leBytes_length,
      List.length_cons] at *; omega

@[simp] theorem xorBytes_length (s t : List Byte) : (xorBytes s t).length = min s.length t.length := by
  simp [xorBytes]

/-- XOR with the same string twice gives the first back, when the second is long enough. -/
theorem xorBytes_xorBytes (s t : List Byte) (h : s.length ≤ t.length) : xorBytes (xorBytes s t) t = s := by
  induction s generalizing t with
  | nil => simp [xorBytes]
  | cons x s ih =>
    cases t with
    | nil => simp at h
    | cons y t =>
      simp only [xorBytes, List.zipWith_cons_cons] at *
      rw [ih t (by simpa using h)]
      simp

end Sys2Proof.Machine
end

