-- ==== Sys2Proof/Laws/Memory.lean ====
section
/-! SUPPORT. The laws of memory: what a read gives after a write, and that every write keeps the canonical form. -/

namespace Sys2Proof.Machine

/-- An address no entry lists reads as the unlisted byte. -/
theorem Memory.read_unlisted (m : Memory) (a : Nat) (h : ∀ cell ∈ m, cell.1 ≠ a) :
    m.read a = Config.unlistedByte := by
  induction m with
  | nil => rfl
  | cons cell m ih =>
    obtain ⟨x, b⟩ := cell
    have hx : x ≠ a := h (x, b) (by simp)
    simp only [Memory.read, hx, if_false]
    exact ih fun cell hc => h cell (by simp [hc])

/-- Entries behind do not matter where they do not list the address. -/
theorem Memory.read_append_left (m m' : Memory) (a : Nat) (h : ∀ cell ∈ m', cell.1 ≠ a) :
    Memory.read (m ++ m') a = m.read a := by
  induction m with
  | nil => exact Memory.read_unlisted m' a h
  | cons cell m ih =>
    obtain ⟨x, b⟩ := cell
    simp only [List.cons_append, Memory.read, ih]

/-- Entries in front do not matter where they do not list the address. -/
theorem Memory.read_append_right (m m' : Memory) (a : Nat) (h : ∀ cell ∈ m, cell.1 ≠ a) :
    Memory.read (m ++ m') a = Memory.read m' a := by
  induction m with
  | nil => rfl
  | cons cell m ih =>
    obtain ⟨x, b⟩ := cell
    have hx : x ≠ a := h (x, b) (by simp)
    simp only [List.cons_append, Memory.read, hx, if_false]
    exact ih fun cell hc => h cell (by simp [hc])

/-- Filtering on the address keeps what the kept addresses read as. -/
theorem Memory.read_filter (m : Memory) (p : Host.Cell → Bool) (a : Nat)
    (h : ∀ cell ∈ m, cell.1 = a → p cell = true) : Memory.read (m.filter p) a = m.read a := by
  induction m with
  | nil => rfl
  | cons cell m ih =>
    obtain ⟨x, b⟩ := cell
    have hrest := ih fun cell hc => h cell (by simp [hc])
    by_cases hp : p (x, b) = true
    · simp only [List.filter_cons, hp, if_true, Memory.read, hrest]
    · have hx : x ≠ a := fun hxa => hp (h (x, b) (by simp) hxa)
      simp only [List.filter_cons, hp, Memory.read, hx, if_false, Bool.false_eq_true, hrest]

/-- The entries of a byte string list addresses of its range only. -/
theorem cellsFrom_range (a : Nat) (bs : List Byte) :
    ∀ cell ∈ cellsFrom a bs, a ≤ cell.1 ∧ cell.1 < a + bs.length := by
  induction bs generalizing a with
  | nil => simp [cellsFrom]
  | cons b bs ih =>
    intro cell hc
    simp only [cellsFrom] at hc
    split at hc
    · have h := ih (a + 1) cell hc
      simp only [List.length_cons]
      omega
    · rcases List.mem_cons.mp hc with rfl | hc
      · simp
      · have h := ih (a + 1) cell hc
        simp only [List.length_cons]
        omega

/-- What the entries of a byte string read as, inside its range. -/
theorem cellsFrom_read (a x : Nat) (bs : List Byte) (h : a ≤ x) (h' : x < a + bs.length) :
    (cellsFrom a bs).read x = bs.getD (x - a) 0 := by
  induction bs generalizing a with
  | nil => simp at h'; omega
  | cons b bs ih =>
    simp only [List.length_cons] at h'
    simp only [cellsFrom]
    rcases Nat.eq_or_lt_of_le h with rfl | hlt
    · split
      · next hb =>
        rw [Memory.read_unlisted _ _ fun cell hc => by
          have := cellsFrom_range (a + 1) bs cell hc
          omega]
        simp [hb]
      · simp [Memory.read]
    · have hrec := ih (a + 1) (by omega) (by omega)
      have hidx : x - a = (x - (a + 1)) + 1 := by omega
      rw [hidx, List.getD_cons_succ, ← hrec]
      split
      · rfl
      · have hne : a ≠ x := by omega
        simp [Memory.read, hne]

/-- What a read gives after a write: the byte written inside the range, the byte before outside it. -/
theorem Memory.read_writeBytes (m : Memory) (a x : Nat) (bs : List Byte) :
    (m.writeBytes a bs).read x = if a ≤ x ∧ x < a + bs.length then bs.getD (x - a) 0 else m.read x := by
  have hlow : x < a → Memory.read (m.filter fun cell => cell.1 < a) x = m.read x := fun hx =>
    Memory.read_filter m _ x fun cell _ hc => by simpa [hc] using hx
  have hhigh : a + bs.length ≤ x → Memory.read (m.filter fun cell => a + bs.length ≤ cell.1) x = m.read x :=
    fun hx => Memory.read_filter m _ x fun cell _ hc => by simpa [hc] using hx
  have memLow : ∀ cell ∈ m.filter (fun cell => cell.1 < a), cell.1 < a := fun cell hc => by
    simpa using (List.mem_filter.mp hc).2
  have memHigh : ∀ cell ∈ m.filter (fun cell => a + bs.length ≤ cell.1), a + bs.length ≤ cell.1 :=
    fun cell hc => by simpa using (List.mem_filter.mp hc).2
  have memMid := cellsFrom_range a bs
  unfold Memory.writeBytes
  split
  · next h =>
    rw [Memory.read_append_right _ _ _ fun cell hc => by have := memLow cell hc; omega,
      Memory.read_append_left _ _ _ fun cell hc => by have := memHigh cell hc; omega]
    exact cellsFrom_read a x bs h.1 h.2
  · next h =>
    by_cases hx : x < a
    · rw [Memory.read_append_left _ _ _ fun cell hc => by
        rcases List.mem_append.mp hc with hc | hc
        · have := memMid cell hc; omega
        · have := memHigh cell hc; omega]
      exact hlow hx
    · rw [Memory.read_append_right _ _ _ fun cell hc => by have := memLow cell hc; omega,
        Memory.read_append_right _ _ _ fun cell hc => by have := memMid cell hc; omega]
      exact hhigh (by omega)

@[simp] theorem Memory.readBytes_length (m : Memory) (a n : Nat) : (m.readBytes a n).length = n := by
  induction n generalizing a with
  | zero => rfl
  | succ n ih => simp [Memory.readBytes, ih]

theorem Memory.readBytes_getD (m : Memory) (a n i : Nat) (h : i < n) : (m.readBytes a n).getD i 0 = m.read (a + i) := by
  induction n generalizing a i with
  | zero => omega
  | succ n ih =>
    cases i with
    | zero => simp [Memory.readBytes]
    | succ i =>
      rw [Memory.readBytes, List.getD_cons_succ, ih (a + 1) i (by omega)]
      congr 1
      omega

/-- Two memories that read alike over a range give the same byte string there. -/
theorem Memory.readBytes_congr (m m' : Memory) (a n : Nat) (h : ∀ x, a ≤ x → x < a + n → m.read x = m'.read x) :
    m.readBytes a n = m'.readBytes a n := by
  induction n generalizing a with
  | zero => rfl
  | succ n ih =>
    rw [Memory.readBytes, Memory.readBytes, h a (by omega) (by omega),
      ih (a + 1) fun x h1 h2 => h x (by omega) (by omega)]

/-- Reading back the range just written gives the string written. -/
theorem Memory.readBytes_writeBytes_same (m : Memory) (a : Nat) (bs : List Byte) :
    (m.writeBytes a bs).readBytes a bs.length = bs := by
  apply List.ext_getElem (by simp)
  intro i h1 h2
  have hg := Memory.readBytes_getD (m.writeBytes a bs) a bs.length i h2
  rw [Memory.read_writeBytes] at hg
  simp only [Nat.le_add_right, Nat.add_lt_add_left h2, and_self, if_true, Nat.add_sub_cancel_left] at hg
  rw [List.getD_eq_getElem _ _ h1, List.getD_eq_getElem _ _ h2] at hg
  exact hg

/-- Reading a range apart from the one written gives what it gave before. -/
theorem Memory.readBytes_writeBytes_apart (m : Memory) (a x n : Nat) (bs : List Byte)
    (h : x + n ≤ a ∨ a + bs.length ≤ x) : (m.writeBytes a bs).readBytes x n = m.readBytes x n := by
  apply Memory.readBytes_congr
  intro y h1 h2
  rw [Memory.read_writeBytes, if_neg]
  omega

theorem cellsFrom_pairwise (a : Nat) (bs : List Byte) : (cellsFrom a bs).Pairwise (fun x y => x.1 < y.1) := by
  induction bs generalizing a with
  | nil => simp [cellsFrom]
  | cons b bs ih =>
    simp only [cellsFrom]
    split
    · exact ih (a + 1)
    · refine List.pairwise_cons.mpr ⟨fun cell hc => ?_, ih (a + 1)⟩
      have := cellsFrom_range (a + 1) bs cell hc
      show a < cell.1
      omega

theorem cellsFrom_listed (a : Nat) (bs : List Byte) : ∀ cell ∈ cellsFrom a bs, cell.2 ≠ Config.unlistedByte := by
  induction bs generalizing a with
  | nil => simp [cellsFrom]
  | cons b bs ih =>
    intro cell hc
    simp only [cellsFrom] at hc
    split at hc
    · exact ih (a + 1) cell hc
    · next hb =>
      rcases List.mem_cons.mp hc with rfl | hc
      · exact hb
      · exact ih (a + 1) cell hc

/-- The canonical form, spelled out. -/
theorem Memory.wf_iff (size : Nat) (m : Memory) :
    m.wf size = true ↔ m.Pairwise (fun x y => x.1 < y.1) ∧
      ∀ cell ∈ m, cell.2 ≠ Config.unlistedByte ∧ cell.1 < size := by
  simp [Memory.wf]

theorem Memory.wf_nil (size : Nat) : Memory.wf size [] = true := by simp [Memory.wf]

/-- Every write inside the memory keeps the canonical form. -/
theorem Memory.wf_writeBytes (size : Nat) (m : Memory) (a : Nat) (bs : List Byte) (hm : m.wf size = true)
    (hr : a + bs.length ≤ size) : (m.writeBytes a bs).wf size = true := by
  rw [Memory.wf_iff] at hm ⊢
  obtain ⟨hp, hall⟩ := hm
  have memLow : ∀ cell ∈ m.filter (fun cell => cell.1 < a), cell.1 < a := fun cell hc => by
    simpa using (List.mem_filter.mp hc).2
  have memHigh : ∀ cell ∈ m.filter (fun cell => a + bs.length ≤ cell.1), a + bs.length ≤ cell.1 :=
    fun cell hc => by simpa using (List.mem_filter.mp hc).2
  have memMid := cellsFrom_range a bs
  refine ⟨?_, fun cell hc => ?_⟩
  · refine List.pairwise_append.mpr ⟨hp.filter _, List.pairwise_append.mpr
      ⟨cellsFrom_pairwise a bs, hp.filter _, fun x hx y hy => ?_⟩, fun x hx y hy => ?_⟩
    · have h1 := memMid x hx
      have h2 := memHigh y hy
      omega
    · have h1 := memLow x hx
      rcases List.mem_append.mp hy with hy | hy
      · have h2 := memMid y hy
        omega
      · have h2 := memHigh y hy
        omega
  · rcases List.mem_append.mp hc with hc | hc
    · exact hall cell (List.mem_filter.mp hc).1
    · rcases List.mem_append.mp hc with hc | hc
      · have h := memMid cell hc
        exact ⟨cellsFrom_listed a bs cell hc, by omega⟩
      · exact hall cell (List.mem_filter.mp hc).1

/-- Memories in canonical form that read alike everywhere are equal data. -/
theorem Memory.eq_of_read (size : Nat) (m m' : Memory) (hm : m.wf size = true) (hm' : m'.wf size = true)
    (h : ∀ a, m.read a = m'.read a) : m = m' := by
  rw [Memory.wf_iff] at hm hm'
  induction m generalizing m' with
  | nil =>
    cases m' with
    | nil => rfl
    | cons cell m' =>
      obtain ⟨x, b⟩ := cell
      have hb := h x
      simp only [Memory.read, if_true] at hb
      exact absurd hb.symm (hm'.2 (x, b) (by simp)).1
  | cons cell m ih =>
    obtain ⟨x, b⟩ := cell
    have hx := h x
    simp only [Memory.read, if_true] at hx
    have hlow : ∀ cell ∈ m, x < cell.1 := (List.pairwise_cons.mp hm.1).1
    cases m' with
    | nil => exact absurd hx (hm.2 (x, b) (by simp)).1
    | cons cell' m' =>
      obtain ⟨y, b'⟩ := cell'
      have hlow' : ∀ cell ∈ m', y < cell.1 := (List.pairwise_cons.mp hm'.1).1
      have hy := h y
      simp only [Memory.read, if_true] at hy
      have hxy : x = y := by
        rcases Nat.lt_trichotomy x y with hlt | heq | hgt
        · have hne : y ≠ x := by omega
          simp only [Memory.read, hne, if_false] at hx
          rw [Memory.read_unlisted m' x fun cell hc => by have := hlow' cell hc; omega] at hx
          exact absurd hx (hm.2 (x, b) (by simp)).1
        · exact heq
        · have hne : x ≠ y := by omega
          simp only [hne, if_false] at hy
          rw [Memory.read_unlisted m y fun cell hc => by have := hlow cell hc; omega] at hy
          exact absurd hy.symm (hm'.2 (y, b') (by simp)).1
      subst hxy
      simp only [Memory.read, if_true] at hx
      subst hx
      congr 1
      refine ih m' ⟨(List.pairwise_cons.mp hm.1).2, fun cell hc => hm.2 cell (by simp [hc])⟩
        ⟨(List.pairwise_cons.mp hm'.1).2, fun cell hc => hm'.2 cell (by simp [hc])⟩ fun a => ?_
      have ha := h a
      simp only [Memory.read] at ha
      by_cases hxa : x = a
      · subst hxa
        rw [Memory.read_unlisted m x fun cell hc => by have := hlow cell hc; omega,
          Memory.read_unlisted m' x fun cell hc => by have := hlow' cell hc; omega]
      · simpa [hxa] using ha

end Sys2Proof.Machine
end

