-- ==== Sys2Proof/Laws/State.lean ====
section
/-! SUPPORT. One lemma per field of State per update, each true by rfl. -/

namespace Sys2Proof.Machine

section haltOkFields

variable (s : State)

@[simp] theorem haltOk_dm : (haltOk s).dm = s.dm := rfl
@[simp] theorem haltOk_cm : (haltOk s).cm = s.cm := rfl
@[simp] theorem haltOk_pc : (haltOk s).pc = s.pc := rfl
@[simp] theorem haltOk_errpc : (haltOk s).errpc = s.errpc := rfl
@[simp] theorem haltOk_busy : (haltOk s).busy = false := rfl
@[simp] theorem haltOk_done : (haltOk s).done = true := rfl
@[simp] theorem haltOk_err : (haltOk s).err = s.err := rfl
@[simp] theorem haltOk_c : (haltOk s).c = s.c := rfl
@[simp] theorem haltOk_v : (haltOk s).v = s.v := rfl
@[simp] theorem haltOk_cmp : (haltOk s).cmp = s.cmp := rfl
@[simp] theorem haltOk_errcode : (haltOk s).errcode = s.errcode := rfl
@[simp] theorem haltOk_doneie : (haltOk s).doneie = s.doneie := rfl
@[simp] theorem haltOk_inReset : (haltOk s).inReset = s.inReset := rfl
@[simp] theorem haltOk_pending : (haltOk s).pending = s.pending := rfl
@[simp] theorem haltOk_busData : (haltOk s).busData = s.busData := rfl
@[simp] theorem haltOk_freeCount : (haltOk s).freeCount = s.freeCount := rfl

end haltOkFields

section haltErrorFields

variable (e : ErrCode) (i : BitVec 8) (s : State)

@[simp] theorem haltError_dm : (haltError e i s).dm = s.dm := rfl
@[simp] theorem haltError_cm : (haltError e i s).cm = s.cm := rfl
@[simp] theorem haltError_pc : (haltError e i s).pc = i := rfl
@[simp] theorem haltError_errpc : (haltError e i s).errpc = i := rfl
@[simp] theorem haltError_busy : (haltError e i s).busy = false := rfl
@[simp] theorem haltError_done : (haltError e i s).done = true := rfl
@[simp] theorem haltError_err : (haltError e i s).err = true := rfl
@[simp] theorem haltError_c : (haltError e i s).c = s.c := rfl
@[simp] theorem haltError_v : (haltError e i s).v = false := rfl
@[simp] theorem haltError_cmp : (haltError e i s).cmp = s.cmp := rfl
@[simp] theorem haltError_errcode : (haltError e i s).errcode = e := rfl
@[simp] theorem haltError_doneie : (haltError e i s).doneie = s.doneie := rfl
@[simp] theorem haltError_inReset : (haltError e i s).inReset = s.inReset := rfl
@[simp] theorem haltError_pending : (haltError e i s).pending = s.pending := rfl
@[simp] theorem haltError_busData : (haltError e i s).busData = s.busData := rfl
@[simp] theorem haltError_freeCount : (haltError e i s).freeCount = s.freeCount := rfl

end haltErrorFields

section startFields

variable (s : State)

@[simp] theorem start_dm : (start s).dm = s.dm := rfl
@[simp] theorem start_cm : (start s).cm = s.cm := rfl
@[simp] theorem start_pc : (start s).pc = s.pc := rfl
@[simp] theorem start_errpc : (start s).errpc = s.errpc := rfl
@[simp] theorem start_busy : (start s).busy = true := rfl
@[simp] theorem start_done : (start s).done = false := rfl
@[simp] theorem start_err : (start s).err = false := rfl
@[simp] theorem start_c : (start s).c = s.c := rfl
@[simp] theorem start_v : (start s).v = s.v := rfl
@[simp] theorem start_cmp : (start s).cmp = s.cmp := rfl
@[simp] theorem start_errcode : (start s).errcode = .ok := rfl
@[simp] theorem start_doneie : (start s).doneie = s.doneie := rfl
@[simp] theorem start_inReset : (start s).inReset = s.inReset := rfl
@[simp] theorem start_pending : (start s).pending = s.pending := rfl
@[simp] theorem start_busData : (start s).busData = s.busData := rfl
@[simp] theorem start_freeCount : (start s).freeCount = s.freeCount := rfl

end startFields

section commitFields

variable (e : Effect) (s : State)

@[simp] theorem commit_dm : (commit e s).dm = applyWrites s.dm e.writes := rfl
@[simp] theorem commit_cm : (commit e s).cm = s.cm := rfl
@[simp] theorem commit_pc : (commit e s).pc = s.pc := rfl
@[simp] theorem commit_errpc : (commit e s).errpc = s.errpc := rfl
@[simp] theorem commit_busy : (commit e s).busy = s.busy := rfl
@[simp] theorem commit_done : (commit e s).done = s.done := rfl
@[simp] theorem commit_err : (commit e s).err = s.err := rfl
@[simp] theorem commit_c : (commit e s).c = e.c.getD s.c := rfl
@[simp] theorem commit_v : (commit e s).v = e.v.getD s.v := rfl
@[simp] theorem commit_cmp : (commit e s).cmp = e.cmp.getD s.cmp := rfl
@[simp] theorem commit_errcode : (commit e s).errcode = s.errcode := rfl
@[simp] theorem commit_doneie : (commit e s).doneie = s.doneie := rfl
@[simp] theorem commit_inReset : (commit e s).inReset = s.inReset := rfl
@[simp] theorem commit_pending : (commit e s).pending = s.pending := rfl
@[simp] theorem commit_busData : (commit e s).busData = s.busData := rfl
@[simp] theorem commit_freeCount : (commit e s).freeCount = s.freeCount := rfl

end commitFields

end Sys2Proof.Machine
end

