-- ==== Sys2Proof/Laws/Exec.lean ====
section
/-! SUPPORT. What the shared operations can do, said once: a command other than END is its rule under the range check,
and it ends in exactly one of four ways. -/

namespace Sys2Proof.Machine

/-- The rule of each command other than END (END has none; the value here is never used). -/
def ruleOf : Instr → State → Result
  | .endSeq => ruleNop
  | .nop => ruleNop
  | .ldc d index => ruleLdc d index
  | .add d a b => ruleAdd d a b
  | .sub d a b => ruleSub d a b
  | .mul d a b => ruleMul d a b
  | .cmp a b => ruleCmp a b
  | .modadd d a b c => ruleModadd d a b c
  | .modsub d a b c => ruleModsub d a b c
  | .modmul d a b c => ruleModmul d a b c
  | .montmul d a b c => ruleMontmul d a b c
  | .montin d a c => ruleMontin d a c
  | .montout d a c => ruleMontout d a c
  | .modexp d a b c => ruleModexp d a b c
  | .gcd d a b => ruleGcd d a b
  | .modinv d a c => ruleModinv d a c
  | .modinvvt d a c => ruleModinvvt d a c
  | .ecadd d a b => ruleEcadd d a b
  | .ecdbl d a => ruleEcdbl d a
  | .ecmul d a b => ruleEcmul d a b
  | .ecmulg d b => ruleEcmulg d b
  | .ecchk a => ruleEcchk a
  | .pkenc d a compressed => rulePkenc d a compressed
  | .pkdec d a l1 => rulePkdec d a l1
  | .ecdsaSign d a b c lows => ruleEcdsaSign d a b c lows
  | .ecdsaVerify a b c lows => ruleEcdsaVerify a b c lows
  | .sha256Init c => ruleSha256Init c
  | .sha256Update a c l1 => ruleSha256Update a c l1
  | .sha256Final d c => ruleSha256Final d c
  | .sha256Compress a c => ruleSha256Compress a c
  | .keccakInit c => ruleKeccakInit c
  | .keccakUpdate a c l1 => ruleKeccakUpdate a c l1
  | .keccakFinal d c => ruleKeccakFinal d c
  | .keccakf c => ruleKeccakf c
  | .b3Compress d a b c => ruleB3Compress d a b c
  | .chachaQr d a => ruleChachaQr d a
  | .chachaBlock d c => ruleChachaBlock d c
  | .chachaXor d a c l1 => ruleChachaXor d a c l1
  | .poly1305 d a c l1 => rulePoly1305 d a c l1
  | .aeadEnc d a b c l1 l2 => ruleAeadEnc d a b c l1 l2
  | .aeadDec d a b c l1 l2 => ruleAeadDec d a b c l1 l2

/-- Every command but END is its rule under the range check. -/
theorem exec_eq_runRule (i : Instr) (s : State) (h : i ≠ .endSeq) : exec i s = runRule i (ruleOf i) s := by
  cases i <;> first | exact absurd rfl h | rfl

/-- END is a clean halt with PC moved on. -/
theorem exec_endSeq (s : State) : exec .endSeq s = .next (haltOk { s with pc := s.pc + 1 }) := rfl

/-- The four ways a command other than END can end: out of range, an error of its rule, OVERRUN after its commit, or
completion. -/
theorem runRule_cases (i : Instr) (rule : State → Result) (s t : State) (h : runRule i rule s = .next t) :
    (regionsInRange i = false ∧ t = haltError .range s.pc s) ∨
    (regionsInRange i = true ∧ ∃ e, rule s = .error e ∧ t = haltError e s.pc s) ∨
    (regionsInRange i = true ∧ ∃ e, rule s = .ok e ∧ s.pc = 255 ∧ t = haltError .overrun 255 (commit e s)) ∨
    (regionsInRange i = true ∧ ∃ e, rule s = .ok e ∧ s.pc ≠ 255 ∧ t = { commit e s with pc := s.pc + 1 }) := by
  unfold runRule at h
  split at h
  · next hr =>
    unfold retire at h
    split at h
    · next e he => exact .inr (.inl ⟨hr, e, he, by injection h with h; exact h.symm⟩)
    · next e he =>
      injection h with h
      unfold advance at h
      split at h
      · next hpc => exact .inr (.inr (.inl ⟨hr, e, he, hpc, h.symm⟩))
      · next hpc => exact .inr (.inr (.inr ⟨hr, e, he, hpc, h.symm⟩))
  · next hr => exact .inl ⟨by simpa using hr, by injection h with h; exact h.symm⟩

/-- The same of `exec`, with the rule of the command. -/
theorem exec_cases (i : Instr) (s t : State) (hi : i ≠ .endSeq) (h : exec i s = .next t) :
    (regionsInRange i = false ∧ t = haltError .range s.pc s) ∨
    (regionsInRange i = true ∧ ∃ e, ruleOf i s = .error e ∧ t = haltError e s.pc s) ∨
    (regionsInRange i = true ∧ ∃ e, ruleOf i s = .ok e ∧ s.pc = 255 ∧ t = haltError .overrun 255 (commit e s)) ∨
    (regionsInRange i = true ∧ ∃ e, ruleOf i s = .ok e ∧ s.pc ≠ 255 ∧ t = { commit e s with pc := s.pc + 1 }) :=
  runRule_cases i (ruleOf i) s t (by rw [← exec_eq_runRule i s hi]; exact h)

/-- A command whose regions pass the end of DM halts with RANGE. -/
theorem runRule_outOfRange (i : Instr) (rule : State → Result) (s : State) (h : regionsInRange i = false) :
    runRule i rule s = .next (haltError .range s.pc s) := by
  simp [runRule, h]

/-- A command whose rule raises an error halts with it. -/
theorem runRule_error (i : Instr) (rule : State → Result) (s : State) (e : ErrCode)
    (hr : regionsInRange i = true) (h : rule s = .error e) : runRule i rule s = .next (haltError e s.pc s) := by
  simp [runRule, hr, retire, h]

/-- A command whose rule gives an effect completes below index 255. -/
theorem runRule_ok (i : Instr) (rule : State → Result) (s : State) (e : Effect)
    (hr : regionsInRange i = true) (h : rule s = .ok e) (hpc : s.pc ≠ 255) :
    runRule i rule s = .next { commit e s with pc := s.pc + 1 } := by
  have hc : (commit e s).pc ≠ 255 := hpc
  simp only [runRule, hr, if_true, retire, h, advance, if_neg hc]
  rfl

/-- At index 255 its effect is committed and the run ends with OVERRUN. -/
theorem runRule_overrun (i : Instr) (rule : State → Result) (s : State) (e : Effect)
    (hr : regionsInRange i = true) (h : rule s = .ok e) (hpc : s.pc = 255) :
    runRule i rule s = .next (haltError .overrun 255 (commit e s)) := by
  have hc : (commit e s).pc = 255 := hpc
  simp only [runRule, hr, if_true, retire, h, advance, if_pos hc]

/-- Every rule reads nothing of the state but DM (spec/00_scope.md R15). -/
theorem ruleOf_dm (i : Instr) (s s' : State) (h : s.dm = s'.dm) : ruleOf i s = ruleOf i s' := by
  have hm : memRead s = memRead s' := by funext a n; simp only [memRead, h]
  have hv : slotValue s = slotValue s' := by funext x; simp only [slotValue, hm]
  have hn : nextSlotValue s = nextSlotValue s' := by funext x; simp only [nextSlotValue, hm]
  have hp : slotPoint s = slotPoint s' := by funext x; simp only [slotPoint, hv, hn]
  cases i <;>
    simp only [ruleOf, ruleNop, ruleLdc, ruleAdd, ruleSub, ruleMul, ruleCmp, ruleModadd, ruleModsub, ruleModmul,
      ruleMontmul, ruleMontin, ruleMontout, ruleModexp, ruleGcd, ruleModinv, ruleModinvvt, ruleEcadd, ruleEcdbl,
      ruleEcmul, ruleEcmulg, ruleEcchk, rulePkenc, rulePkdec, ruleEcdsaSign, ruleEcdsaVerify, ruleSha256Init,
      ruleSha256Update, ruleSha256Final, ruleSha256Compress, ruleKeccakInit, ruleKeccakUpdate, ruleKeccakFinal,
      ruleKeccakf, ruleB3Compress, ruleChachaQr, ruleChachaBlock, ruleChachaXor, rulePoly1305, ruleAeadEnc,
      ruleAeadDec] <;>
    (try rw [hm]) <;> (try rw [hv]) <;> (try rw [hn]) <;> (try rw [hp])

/-- A slot is always in range; k slots from X are in range exactly when X + k is at most 128 (spec/30_encoding.md R116). -/
theorem slotsAt_inRange (x : Slot) (k : Nat) : (slotsAt x k).inRange = true ↔ x.toNat + k ≤ 128 := by
  show decide (32 * x.toNat + 32 * k ≤ 4096) = true ↔ _
  rw [decide_eq_true_iff]
  omega

theorem slotAt_inRange (x : Slot) : (slotsAt x 1).inRange = true := by
  have := x.isLt
  rw [slotsAt_inRange]
  omega

/-- An integer of one slot is below `2^256`. -/
theorem slotValue_lt (s : State) (x : Slot) : slotValue s x < 2 ^ 256 := by
  have h := be_lt (memRead s (slotAddr x) 32)
  simp only [memRead, Memory.readBytes_length] at h
  simpa [slotValue, memRead] using h

theorem nextSlotValue_lt (s : State) (x : Slot) : nextSlotValue s x < 2 ^ 256 := by
  have h := be_lt (memRead s (slotAddr x + 32) 32)
  simp only [memRead, Memory.readBytes_length] at h
  simpa [nextSlotValue, memRead] using h

end Sys2Proof.Machine
end

