-- ==== Sys2Proof/Laws/Errors.lean ====
section
/-! SUPPORT. Which errors a rule can raise: never code 0, and never OVERRUN, which is the sequencer's
(spec/60_exceptions.md R435). -/

namespace Sys2Proof.Machine

/-- Cases on a rule that raises an error: it is one of the codes the rule names. -/
theorem sec1Decode_error (bs : List Byte) (e : ErrCode) (h : sec1Decode bs = .error e) :
    e = .encoding ∨ e = .domain := by
  unfold sec1Decode at h
  repeat' (first | split at h | (dsimp only at h; split at h))
  all_goals first
    | (cases h; done)
    | (cases h; exact .inl rfl)
    | (cases h; exact .inr rfl)

theorem ecdsaSignValue_error (x d k : Nat) (lows : Bool) (e : ErrCode) (h : ecdsaSignValue x d k lows = .error e) :
    e = .domain := by
  unfold ecdsaSignValue at h
  repeat' split at h
  all_goals first
    | (cases h; done)
    | (cases h; rfl)

theorem ecdsaVerifyValue_error (x qx qy r y : Nat) (lows : Bool) (e : ErrCode)
    (h : ecdsaVerifyValue x qx qy r y lows = .error e) : e = .domain := by
  unfold ecdsaVerifyValue at h
  split at h
  · cases h; rfl
  · split at h
    · cases h; rfl
    · cases h

/-- No rule raises code 0 or OVERRUN. -/
theorem ruleOf_error (i : Instr) (s : State) (e : ErrCode) (h : ruleOf i s = .error e) : e ≠ .ok ∧ e ≠ .overrun := by
  cases i <;> rw [ruleOf] at h
  case endSeq => cases h
  case nop => cases h
  case ldc => unfold ruleLdc at h; split at h <;> cases h; decide
  case add => cases h
  case sub => cases h
  case mul => cases h
  case cmp => cases h
  case modadd => unfold ruleModadd at h; split at h <;> cases h; decide
  case modsub => unfold ruleModsub at h; split at h <;> cases h; decide
  case modmul => unfold ruleModmul at h; split at h <;> cases h; decide
  case montmul => unfold ruleMontmul at h; split at h <;> cases h; decide
  case montin => unfold ruleMontin at h; split at h <;> cases h; decide
  case montout => unfold ruleMontout at h; split at h <;> cases h; decide
  case modexp => unfold ruleModexp at h; split at h <;> cases h; decide
  case gcd => cases h
  case modinv =>
    unfold ruleModinv at h
    split at h
    · cases h; decide
    · dsimp only at h; split at h <;> cases h; decide
  case modinvvt =>
    unfold ruleModinvvt at h
    split at h
    · cases h; decide
    · split at h <;> cases h; decide
  case ecadd => unfold ruleEcadd at h; split at h <;> cases h; decide
  case ecdbl => unfold ruleEcdbl at h; split at h <;> cases h; decide
  case ecmul => unfold ruleEcmul at h; split at h <;> cases h; decide
  case ecmulg => cases h
  case ecchk => cases h
  case pkenc => unfold rulePkenc at h; split at h <;> cases h; decide
  case pkdec =>
    unfold rulePkdec at h
    split at h
    · next he => cases h; rcases sec1Decode_error _ _ he with rfl | rfl <;> decide
    · cases h
  case ecdsaSign =>
    unfold ruleEcdsaSign at h
    split at h
    · next he => cases h; rw [ecdsaSignValue_error _ _ _ _ _ he]; decide
    · cases h
  case ecdsaVerify =>
    unfold ruleEcdsaVerify at h
    generalize hv : ecdsaVerifyValue _ _ _ _ _ _ = v at h
    cases v with
    | ok x => cases h
    | error x => cases h; rw [ecdsaVerifyValue_error _ _ _ _ _ _ _ hv]; decide
  case sha256Init => cases h
  case sha256Update =>
    unfold ruleSha256Update at h
    dsimp only at h; split at h
    · cases h; decide
    · split at h <;> cases h; decide
  case sha256Final =>
    unfold ruleSha256Final at h
    dsimp only at h; split at h
    · cases h; decide
    · split at h <;> cases h; decide
  case sha256Compress => cases h
  case keccakInit => cases h
  case keccakUpdate =>
    unfold ruleKeccakUpdate at h
    dsimp only at h; split at h
    · cases h; decide
    · split at h <;> cases h; decide
  case keccakFinal =>
    unfold ruleKeccakFinal at h
    dsimp only at h; split at h
    · cases h; decide
    · split at h <;> cases h; decide
  case keccakf => cases h
  case b3Compress => unfold ruleB3Compress at h; dsimp only at h; split at h <;> cases h; decide
  case chachaQr => cases h
  case chachaBlock => cases h
  case chachaXor =>
    unfold ruleChachaXor at h
    dsimp only at h
    split at h
    · cases h; decide
    · split at h
      · cases h; decide
      · split at h <;> cases h
  case poly1305 => cases h
  case aeadEnc => cases h
  case aeadDec => unfold ruleAeadDec at h; dsimp only at h; split at h <;> cases h; decide

end Sys2Proof.Machine
end

