-- ==== Sys2Proof/Laws/PerInstr.lean ====
section
/-! SUPPORT. Facts about every command as syntax, one lemma per constructor: its word carries exactly its fields. -/

namespace Sys2Proof

/-- The word of given fields, as an integer. -/
theorem joinFields_toNat (x : Fields) : (joinFields x).toNat =
    x.opc.toNat * 72057594037927936 + x.d.toNat * 562949953421312 + x.a.toNat * 4398046511104 +
      x.b.toNat * 34359738368 + x.c.toNat * 268435456 + x.l1.toNat * 65536 + x.l2.toNat * 16 + x.f.toNat := by
  have ho := x.opc.isLt
  have hd := x.d.isLt
  have ha := x.a.isLt
  have hb := x.b.isLt
  have hc := x.c.isLt
  have h1 := x.l1.isLt
  have h2 := x.l2.isLt
  have hf := x.f.isLt
  rw [joinFields, BitVec.toNat_ofNat]
  norm_num at *
  omega

/-- A field of a word, read as the word divided by its place. -/
theorem field_eq (w : CmdWord) (lo n : Nat) (v : BitVec n) (h : w.toNat / 2 ^ lo % 2 ^ n = v.toNat) :
    w.extractLsb' lo n = v := by
  apply BitVec.eq_of_toNat_eq
  rw [BitVec.extractLsb'_toNat, Nat.shiftRight_eq_div_pow, h]

/-- Splitting a joined word gives the fields back: the eight fields of spec/30_encoding.md R111 do not overlap and none is
cut short. -/
theorem splitWord_joinFields (x : Fields) : splitWord (joinFields x) = x := by
  have ho := x.opc.isLt
  have hd := x.d.isLt
  have ha := x.a.isLt
  have hb := x.b.isLt
  have hc := x.c.isLt
  have h1 := x.l1.isLt
  have h2 := x.l2.isLt
  have hf := x.f.isLt
  have hw := joinFields_toNat x
  generalize joinFields x = w at hw
  norm_num at ho hd ha hb hc h1 h2 hf
  have e1 : w.extractLsb' 56 8 = x.opc := field_eq _ _ _ _ (by norm_num; omega)
  have e2 : w.extractLsb' 49 7 = x.d := field_eq _ _ _ _ (by norm_num; omega)
  have e3 : w.extractLsb' 42 7 = x.a := field_eq _ _ _ _ (by norm_num; omega)
  have e4 : w.extractLsb' 35 7 = x.b := field_eq _ _ _ _ (by norm_num; omega)
  have e5 : w.extractLsb' 28 7 = x.c := field_eq _ _ _ _ (by norm_num; omega)
  have e6 : w.extractLsb' 16 12 = x.l1 := field_eq _ _ _ _ (by norm_num; omega)
  have e7 : w.extractLsb' 4 12 = x.l2 := field_eq _ _ _ _ (by norm_num; omega)
  have e8 : w.extractLsb' 0 4 = x.f := field_eq _ _ _ _ (by norm_num; omega)
  rw [splitWord, e1, e2, e3, e4, e5, e6, e7, e8]

/-- Decoding an encoded command is decoding its fields. -/
theorem decode_encode_fields (i : Instr) : decode (encode i) = decodeFields (fieldsOf i) :=
  congrArg decodeFields (splitWord_joinFields (fieldsOf i))

/-- A legal word names the command it decodes to. -/
theorem namedCommand_of_decode (w : CmdWord) (i : Instr) (h : decode w = .ok i) : namedCommand w = some i := by
  unfold decode decodeFields at h
  unfold namedCommand
  cases hf : opTable.find? (fun r => r.opc == (splitWord w).opc) with
  | none => rw [hf] at h; cases h
  | some r =>
    rw [hf] at h
    dsimp only at h
    split at h
    · cases h
    split at h
    · cases h
    split at h
    · cases h
    injection h with h
    simp [h]

end Sys2Proof

namespace Sys2Proof.Laws

/-- The word of a command splits into the command's fields: opcode and operands where spec/30_encoding.md R112 puts
them, zero elsewhere. -/
def EncodesFields.Statement (i : Instr) : Prop := splitWord (encode i) = fieldsOf i

theorem EncodesFields.endSeq : EncodesFields.Statement .endSeq :=
  splitWord_joinFields _

theorem EncodesFields.nop : EncodesFields.Statement .nop :=
  splitWord_joinFields _

theorem EncodesFields.ldc (d : Slot) (index : Len) : EncodesFields.Statement (.ldc d index) :=
  splitWord_joinFields _

theorem EncodesFields.add (d a b : Slot) : EncodesFields.Statement (.add d a b) :=
  splitWord_joinFields _

theorem EncodesFields.sub (d a b : Slot) : EncodesFields.Statement (.sub d a b) :=
  splitWord_joinFields _

theorem EncodesFields.mul (d a b : Slot) : EncodesFields.Statement (.mul d a b) :=
  splitWord_joinFields _

theorem EncodesFields.cmp (a b : Slot) : EncodesFields.Statement (.cmp a b) :=
  splitWord_joinFields _

theorem EncodesFields.modadd (d a b c : Slot) : EncodesFields.Statement (.modadd d a b c) :=
  splitWord_joinFields _

theorem EncodesFields.modsub (d a b c : Slot) : EncodesFields.Statement (.modsub d a b c) :=
  splitWord_joinFields _

theorem EncodesFields.modmul (d a b c : Slot) : EncodesFields.Statement (.modmul d a b c) :=
  splitWord_joinFields _

theorem EncodesFields.montmul (d a b c : Slot) : EncodesFields.Statement (.montmul d a b c) :=
  splitWord_joinFields _

theorem EncodesFields.montin (d a c : Slot) : EncodesFields.Statement (.montin d a c) :=
  splitWord_joinFields _

theorem EncodesFields.montout (d a c : Slot) : EncodesFields.Statement (.montout d a c) :=
  splitWord_joinFields _

theorem EncodesFields.modexp (d a b c : Slot) : EncodesFields.Statement (.modexp d a b c) :=
  splitWord_joinFields _

theorem EncodesFields.gcd (d a b : Slot) : EncodesFields.Statement (.gcd d a b) :=
  splitWord_joinFields _

theorem EncodesFields.modinv (d a c : Slot) : EncodesFields.Statement (.modinv d a c) :=
  splitWord_joinFields _

theorem EncodesFields.modinvvt (d a c : Slot) : EncodesFields.Statement (.modinvvt d a c) :=
  splitWord_joinFields _

theorem EncodesFields.ecadd (d a b : Slot) : EncodesFields.Statement (.ecadd d a b) :=
  splitWord_joinFields _

theorem EncodesFields.ecdbl (d a : Slot) : EncodesFields.Statement (.ecdbl d a) :=
  splitWord_joinFields _

theorem EncodesFields.ecmul (d a b : Slot) : EncodesFields.Statement (.ecmul d a b) :=
  splitWord_joinFields _

theorem EncodesFields.ecmulg (d b : Slot) : EncodesFields.Statement (.ecmulg d b) :=
  splitWord_joinFields _

theorem EncodesFields.ecchk (a : Slot) : EncodesFields.Statement (.ecchk a) :=
  splitWord_joinFields _

theorem EncodesFields.pkenc (d a : Slot) (compressed : Bool) : EncodesFields.Statement (.pkenc d a compressed) :=
  splitWord_joinFields _

theorem EncodesFields.pkdec (d a : Slot) (l1 : Len) : EncodesFields.Statement (.pkdec d a l1) :=
  splitWord_joinFields _

theorem EncodesFields.ecdsaSign (d a b c : Slot) (lows : Bool) : EncodesFields.Statement (.ecdsaSign d a b c lows) :=
  splitWord_joinFields _

theorem EncodesFields.ecdsaVerify (a b c : Slot) (lows : Bool) : EncodesFields.Statement (.ecdsaVerify a b c lows) :=
  splitWord_joinFields _

theorem EncodesFields.sha256Init (c : Slot) : EncodesFields.Statement (.sha256Init c) :=
  splitWord_joinFields _

theorem EncodesFields.sha256Update (a c : Slot) (l1 : Len) : EncodesFields.Statement (.sha256Update a c l1) :=
  splitWord_joinFields _

theorem EncodesFields.sha256Final (d c : Slot) : EncodesFields.Statement (.sha256Final d c) :=
  splitWord_joinFields _

theorem EncodesFields.sha256Compress (a c : Slot) : EncodesFields.Statement (.sha256Compress a c) :=
  splitWord_joinFields _

theorem EncodesFields.keccakInit (c : Slot) : EncodesFields.Statement (.keccakInit c) :=
  splitWord_joinFields _

theorem EncodesFields.keccakUpdate (a c : Slot) (l1 : Len) : EncodesFields.Statement (.keccakUpdate a c l1) :=
  splitWord_joinFields _

theorem EncodesFields.keccakFinal (d c : Slot) : EncodesFields.Statement (.keccakFinal d c) :=
  splitWord_joinFields _

theorem EncodesFields.keccakf (c : Slot) : EncodesFields.Statement (.keccakf c) :=
  splitWord_joinFields _

theorem EncodesFields.b3Compress (d a b c : Slot) : EncodesFields.Statement (.b3Compress d a b c) :=
  splitWord_joinFields _

theorem EncodesFields.chachaQr (d a : Slot) : EncodesFields.Statement (.chachaQr d a) :=
  splitWord_joinFields _

theorem EncodesFields.chachaBlock (d c : Slot) : EncodesFields.Statement (.chachaBlock d c) :=
  splitWord_joinFields _

theorem EncodesFields.chachaXor (d a c : Slot) (l1 : Len) : EncodesFields.Statement (.chachaXor d a c l1) :=
  splitWord_joinFields _

theorem EncodesFields.poly1305 (d a c : Slot) (l1 : Len) : EncodesFields.Statement (.poly1305 d a c l1) :=
  splitWord_joinFields _

theorem EncodesFields.aeadEnc (d a b c : Slot) (l1 l2 : Len) : EncodesFields.Statement (.aeadEnc d a b c l1 l2) :=
  splitWord_joinFields _

theorem EncodesFields.aeadDec (d a b c : Slot) (l1 l2 : Len) : EncodesFields.Statement (.aeadDec d a b c l1 l2) :=
  splitWord_joinFields _

end Sys2Proof.Laws
end

