-- ==== Sys2Proof/Laws/Writes.lean ====
section
/-! SUPPORT. Where commands write: the lengths of every result, and that every queued write lies in a write region of its
command. -/

namespace Sys2Proof.Machine

@[simp] theorem be32Words_length (s : List Byte) : (be32Words s).length = s.length / 4 := by
  induction s using be32Words.induct with
  | case1 b0 b1 b2 b3 rest ih => simp only [be32Words, List.length_cons, ih]; omega
  | case2 s h =>
    rw [be32Words.eq_2 s h]
    rcases s with _ | ⟨b0, _ | ⟨b1, _ | ⟨b2, _ | ⟨b3, rest⟩⟩⟩⟩ <;> first | exact absurd rfl (h _ _ _ _ _) | simp

@[simp] theorem le32Words_length (s : List Byte) : (le32Words s).length = s.length / 4 := by
  induction s using le32Words.induct with
  | case1 b0 b1 b2 b3 rest ih => simp only [le32Words, List.length_cons, ih]; omega
  | case2 s h =>
    rw [le32Words.eq_2 s h]
    rcases s with _ | ⟨b0, _ | ⟨b1, _ | ⟨b2, _ | ⟨b3, rest⟩⟩⟩⟩ <;> first | exact absurd rfl (h _ _ _ _ _) | simp

@[simp] theorem slice_length (s : List Byte) (i j : Nat) : (slice s i j).length = min j s.length - i := by
  simp [slice]

@[simp] theorem memRead_length (s : State) (a n : Nat) : (memRead s a n).length = n := by simp [memRead]

@[simp] theorem shaCompress_length (hs : List W32) (block : List Byte) :
    (shaCompress hs block).length = min hs.length 8 := by simp [shaCompress, shaFeedForward]

theorem shaAbsorb_length (n : Nat) (hs : List W32) (data : List Byte) (h : hs.length = 8) :
    (shaAbsorb n hs data).1.length = 8 ∧ (shaAbsorb n hs data).2.length = data.length - 64 * n := by
  induction n generalizing hs data with
  | zero => simp [shaAbsorb, h]
  | succ n ih =>
    have hrec := ih (shaCompress hs (data.take 64)) (data.drop 64) (by simp [h])
    simp only [shaAbsorb, hrec, List.length_drop, true_and]
    omega

theorem shaUpdated_length (ctx data : List Byte) (h : 32 ≤ ctx.length) : (shaUpdated ctx data).length = 104 := by
  have habs := shaAbsorb_length ((shaBuffered ctx ++ data).length / 64) (be32Words (ctx.take 32))
    (shaBuffered ctx ++ data) (by simp; omega)
  simp only [shaUpdated, List.length_append, wordsBe32_length, zeros_length, beBytes_length] at *
  omega

theorem shaDigest_length (ctx : List Byte) (h : 32 ≤ ctx.length) : (shaDigest ctx).length = 32 := by
  simp only [shaDigest, wordsBe32_length]
  rw [(shaAbsorb_length _ _ _ (by simp; omega)).1]

@[simp] theorem lanesBy_length (f : Nat → Nat → W64) : (lanesBy f).length = 25 := by simp [lanesBy]

@[simp] theorem keccakRound_length (st : List W64) (rc : W64) : (keccakRound st rc).length = 25 := by
  simp [keccakRound, keccakIota, keccakChi]

theorem keccakRounds_length (rcs : List W64) (st : List W64) (h : st.length = 25) :
    (rcs.foldl keccakRound st).length = 25 := by
  induction rcs generalizing st with
  | nil => exact h
  | cons rc rcs ih => exact ih _ (keccakRound_length st rc)

@[simp] theorem keccakPermute_length (st : List Byte) : (keccakPermute st).length = 200 := by
  have hrc : keccakRc = (rcRow 0).1 :: keccakRc.tail := rfl
  rw [keccakPermute, wordsLe64_length, hrc, List.foldl_cons, keccakRounds_length _ _ (keccakRound_length _ _)]

@[simp] theorem xorAt_length (st : List Byte) (i : Nat) (b : Byte) : (xorAt st i b).length = st.length := by
  simp [xorAt]

theorem keccakAbsorb_length (x : List Byte × Nat) (data : List Byte) (h : x.1.length = 200) :
    (keccakAbsorb x data).1.length = 200 := by
  induction data generalizing x with
  | nil => exact h
  | cons b data ih =>
    refine ih (keccakAbsorbByte x b) ?_
    unfold keccakAbsorbByte
    split <;> simp [h]

theorem keccakUpdated_length (ctx data : List Byte) (h : 200 ≤ ctx.length) :
    (keccakUpdated ctx data).length = 201 := by
  have habs := keccakAbsorb_length (ctx.take 200, keccakPos ctx) data (by simp [h])
  simp [keccakUpdated, habs]

@[simp] theorem keccakSqueeze_length (st : List Byte) (pos : Nat) : (keccakSqueeze st pos).length = 32 := by
  simp [keccakSqueeze]

@[simp] theorem b3G_length (v : List W32) (a b c d : Nat) (x y : W32) : (b3G v a b c d x y).length = v.length := by
  simp [b3G]

@[simp] theorem b3Rounds_length (n : Nat) (v m : List W32) : (b3Rounds n v m).length = v.length := by
  induction n generalizing v m with
  | zero => rfl
  | succ n ih => simp [b3Rounds, ih, b3Round]

theorem b3CompressWords_length (cv m : List W32) (t b d : Nat) (h : cv.length = 8) :
    (b3CompressWords cv m t b d).length = 16 := by
  simp [b3CompressWords, h, shaIv]

@[simp] theorem quarterAt_length (i j k l : Nat) (x : List W32) : (quarterAt i j k l x).length = x.length := by
  simp [quarterAt]

@[simp] theorem doubleRounds_length (n : Nat) (x : List W32) : (doubleRounds n x).length = x.length := by
  induction n generalizing x with
  | zero => rfl
  | succ n ih => simp [doubleRounds, ih, doubleRound]

theorem chachaBlock_length (key nonce : List Byte) (counter : Nat) (hk : key.length = 32) (hn : nonce.length = 12) :
    (chachaBlock key counter nonce).length = 64 := by
  simp [chachaBlock, chachaState, hk, hn]

theorem keystream_length (key nonce : List Byte) (c n : Nat) (hk : key.length = 32) (hn : nonce.length = 12) :
    (keystream key nonce c n).length = 64 * n := by
  induction n generalizing c with
  | zero => rfl
  | succ n ih => simp only [keystream, List.length_append, ih, chachaBlock_length _ _ _ hk hn]; omega

theorem ctxKey_length (ctx : List Byte) (h : ctx.length = 64) : (ctxKey ctx).length = 32 := by simp [ctxKey, h]

theorem ctxNonce_length (ctx : List Byte) (h : ctx.length = 64) : (ctxNonce ctx).length = 12 := by
  simp [ctxNonce, h]

/-- The keystream of `ceil(L / 64)` blocks covers a text of length `L`. -/
theorem xor_keystream_length (key nonce text : List Byte) (c : Nat) (hk : key.length = 32)
    (hn : nonce.length = 12) :
    (xorBytes text (keystream key nonce c (blocksFor text.length))).length = text.length := by
  rw [xorBytes_length, keystream_length _ _ _ _ hk hn, blocksFor]
  omega

@[simp] theorem poly1305Tag_length (key msg : List Byte) : (poly1305Tag key msg).length = 16 := by
  simp [poly1305Tag]

theorem sec1Encode_length (compressed : Bool) (x y : Nat) :
    (sec1Encode compressed x y).length = pkencLength compressed := by
  cases compressed <;> simp [sec1Encode, pkencLength]

/-- A write stays in a region. -/
def Write.within (w : Write) (r : Region) : Prop := r.start ≤ w.addr ∧ w.addr + w.bytes.length ≤ r.start + r.size

/-- Every write of a list stays in one of the regions. -/
def allWithin (ws : List Write) (rs : List Region) : Prop := ∀ w ∈ ws, ∃ r ∈ rs, w.within r

theorem allWithin_nil (rs : List Region) : allWithin [] rs := by simp [allWithin]

theorem allWithin_cons (w : Write) (ws : List Write) (rs : List Region) (h : ∃ r ∈ rs, w.within r)
    (hs : allWithin ws rs) : allWithin (w :: ws) rs := by
  intro w' hw'
  rcases List.mem_cons.mp hw' with rfl | hw'
  · exact h
  · exact hs w' hw'

/-- One byte string written at a slot stays in a region at that slot of its length. -/
theorem putBytes_within (x : Slot) (bs : List Byte) (n : Nat) (h : bs.length ≤ n) :
    (putBytes x bs).within (bytesAt x n) := by
  simp only [Write.within, putBytes, bytesAt]
  omega

theorem putSlot_within (x : Slot) (v k : Nat) (h : 1 ≤ k) : (putSlot x v).within (slotsAt x k) := by
  simp only [Write.within, putSlot, slotsAt, beBytes_length]
  omega

theorem putNextSlot_within (x : Slot) (v : Nat) : (putNextSlot x v).within (slotsAt x 2) := by
  simp only [Write.within, putNextSlot, slotsAt, beBytes_length]
  omega

theorem slotPair_within (x : Slot) (u v : Nat) : allWithin [putSlot x u, putNextSlot x v] [slotsAt x 2] := by
  refine allWithin_cons _ _ _ ⟨_, by simp, putSlot_within x u 2 (by omega)⟩ ?_
  exact allWithin_cons _ _ _ ⟨_, by simp, putNextSlot_within x v⟩ (allWithin_nil _)

theorem oneSlot_within (x : Slot) (v : Nat) : allWithin [putSlot x v] [slotsAt x 1] :=
  allWithin_cons _ _ _ ⟨_, by simp, putSlot_within x v 1 (by omega)⟩ (allWithin_nil _)

theorem oneString_within (x : Slot) (bs : List Byte) (n : Nat) (h : bs.length = n) :
    allWithin [putBytes x bs] [bytesAt x n] :=
  allWithin_cons _ _ _ ⟨_, by simp, putBytes_within x bs n (by omega)⟩ (allWithin_nil _)

theorem slots_eq_bytes (x : Slot) (k : Nat) : slotsAt x k = bytesAt x (32 * k) := rfl

theorem ruleAdd_writes (d : Slot) (a : Slot) (b : Slot) (s : State) (e : Effect) (h : ruleAdd d a b s = .ok e) :
    allWithin e.writes [slotsAt d 1] := by
  injection h with h
  subst h
  exact oneSlot_within _ _

theorem ruleSub_writes (d : Slot) (a : Slot) (b : Slot) (s : State) (e : Effect) (h : ruleSub d a b s = .ok e) :
    allWithin e.writes [slotsAt d 1] := by
  injection h with h
  subst h
  exact oneSlot_within _ _

theorem ruleGcd_writes (d : Slot) (a : Slot) (b : Slot) (s : State) (e : Effect) (h : ruleGcd d a b s = .ok e) :
    allWithin e.writes [slotsAt d 1] := by
  injection h with h
  subst h
  exact oneSlot_within _ _

theorem ruleModadd_writes (d : Slot) (a : Slot) (b : Slot) (c : Slot) (s : State) (e : Effect) (h : ruleModadd d a b c s = .ok e) :
    allWithin e.writes [slotsAt d 1] := by
  unfold ruleModadd at h
  split at h
  · cases h
  · injection h with h
    subst h
    exact oneSlot_within _ _

theorem ruleModsub_writes (d : Slot) (a : Slot) (b : Slot) (c : Slot) (s : State) (e : Effect) (h : ruleModsub d a b c s = .ok e) :
    allWithin e.writes [slotsAt d 1] := by
  unfold ruleModsub at h
  split at h
  · cases h
  · injection h with h
    subst h
    exact oneSlot_within _ _

theorem ruleModmul_writes (d : Slot) (a : Slot) (b : Slot) (c : Slot) (s : State) (e : Effect) (h : ruleModmul d a b c s = .ok e) :
    allWithin e.writes [slotsAt d 1] := by
  unfold ruleModmul at h
  split at h
  · cases h
  · injection h with h
    subst h
    exact oneSlot_within _ _

theorem ruleMontmul_writes (d : Slot) (a : Slot) (b : Slot) (c : Slot) (s : State) (e : Effect) (h : ruleMontmul d a b c s = .ok e) :
    allWithin e.writes [slotsAt d 1] := by
  unfold ruleMontmul at h
  split at h
  · cases h
  · injection h with h
    subst h
    exact oneSlot_within _ _

theorem ruleMontin_writes (d : Slot) (a : Slot) (c : Slot) (s : State) (e : Effect) (h : ruleMontin d a c s = .ok e) :
    allWithin e.writes [slotsAt d 1] := by
  unfold ruleMontin at h
  split at h
  · cases h
  · injection h with h
    subst h
    exact oneSlot_within _ _

theorem ruleMontout_writes (d : Slot) (a : Slot) (c : Slot) (s : State) (e : Effect) (h : ruleMontout d a c s = .ok e) :
    allWithin e.writes [slotsAt d 1] := by
  unfold ruleMontout at h
  split at h
  · cases h
  · injection h with h
    subst h
    exact oneSlot_within _ _

theorem ruleModexp_writes (d : Slot) (a : Slot) (b : Slot) (c : Slot) (s : State) (e : Effect) (h : ruleModexp d a b c s = .ok e) :
    allWithin e.writes [slotsAt d 1] := by
  unfold ruleModexp at h
  split at h
  · cases h
  · injection h with h
    subst h
    exact oneSlot_within _ _

theorem ruleLdc_writes (d : Slot) (index : Len) (s : State) (e : Effect) (h : ruleLdc d index s = .ok e) :
    allWithin e.writes [slotsAt d 1] := by
  unfold ruleLdc at h
  split at h
  · cases h
  · injection h with h
    subst h
    exact oneSlot_within _ _

theorem ruleMul_writes (d : Slot) (a : Slot) (b : Slot) (s : State) (e : Effect) (h : ruleMul d a b s = .ok e) :
    allWithin e.writes [slotsAt d 2] := by
  injection h with h
  subst h
  exact oneString_within d _ 64 (by simp)

theorem ruleModinv_writes (d : Slot) (a : Slot) (c : Slot) (s : State) (e : Effect) (h : ruleModinv d a c s = .ok e) :
    allWithin e.writes [slotsAt d 1] := by
  unfold ruleModinv at h
  split at h
  · cases h
  · dsimp only at h
    split at h
    · injection h with h
      subst h
      exact oneSlot_within _ _
    · cases h

theorem ruleModinvvt_writes (d : Slot) (a : Slot) (c : Slot) (s : State) (e : Effect) (h : ruleModinvvt d a c s = .ok e) :
    allWithin e.writes [slotsAt d 1] := by
  unfold ruleModinvvt at h
  split at h
  · cases h
  · split at h
    · injection h with h
      subst h
      exact oneSlot_within _ _
    · cases h

theorem ruleEcadd_writes (d : Slot) (a : Slot) (b : Slot) (s : State) (e : Effect) (h : ruleEcadd d a b s = .ok e) :
    allWithin e.writes [slotsAt d 2] := by
  unfold ruleEcadd at h
  split at h
  · injection h with h
    subst h
    exact slotPair_within _ _ _
  · cases h

theorem ruleEcdbl_writes (d : Slot) (a : Slot) (s : State) (e : Effect) (h : ruleEcdbl d a s = .ok e) :
    allWithin e.writes [slotsAt d 2] := by
  unfold ruleEcdbl at h
  split at h
  · injection h with h
    subst h
    exact slotPair_within _ _ _
  · cases h

theorem ruleEcmul_writes (d : Slot) (a : Slot) (b : Slot) (s : State) (e : Effect) (h : ruleEcmul d a b s = .ok e) :
    allWithin e.writes [slotsAt d 2] := by
  unfold ruleEcmul at h
  split at h
  · injection h with h
    subst h
    exact slotPair_within _ _ _
  · cases h

theorem ruleEcmulg_writes (d : Slot) (b : Slot) (s : State) (e : Effect) (h : ruleEcmulg d b s = .ok e) :
    allWithin e.writes [slotsAt d 2] := by
  injection h with h
  subst h
  exact slotPair_within _ _ _

theorem rulePkenc_writes (d : Slot) (a : Slot) (compressed : Bool) (s : State) (e : Effect) (h : rulePkenc d a compressed s = .ok e) :
    allWithin e.writes [bytesAt d (pkencLength compressed)] := by
  unfold rulePkenc at h
  split at h
  · injection h with h
    subst h
    exact oneString_within d _ _ (sec1Encode_length _ _ _)
  · cases h

theorem rulePkdec_writes (d : Slot) (a : Slot) (l1 : Len) (s : State) (e : Effect) (h : rulePkdec d a l1 s = .ok e) :
    allWithin e.writes [slotsAt d 2] := by
  unfold rulePkdec at h
  split at h
  · cases h
  · injection h with h
    subst h
    exact slotPair_within _ _ _

theorem ruleEcdsaSign_writes (d : Slot) (a : Slot) (b : Slot) (c : Slot) (lows : Bool) (s : State) (e : Effect) (h : ruleEcdsaSign d a b c lows s = .ok e) :
    allWithin e.writes [slotsAt d 2] := by
  unfold ruleEcdsaSign at h
  split at h
  · cases h
  · injection h with h
    subst h
    exact slotPair_within _ _ _

theorem ruleSha256Init_writes (c : Slot) (s : State) (e : Effect) (h : ruleSha256Init c s = .ok e) :
    allWithin e.writes [slotsAt c 4] := by
  injection h with h
  subst h
  exact oneString_within c _ 128 (by simp [shaInitContext, shaIv])

theorem ruleSha256Update_writes (a : Slot) (c : Slot) (l1 : Len) (s : State) (e : Effect) (h : ruleSha256Update a c l1 s = .ok e) :
    allWithin e.writes [bytesAt c 104] := by
  unfold ruleSha256Update at h
  dsimp only at h
  split at h
  · cases h
  · split at h
    · cases h
    · injection h with h
      subst h
      exact oneString_within c _ 104 (shaUpdated_length _ _ (by simp))

theorem ruleSha256Final_writes (d : Slot) (c : Slot) (s : State) (e : Effect) (h : ruleSha256Final d c s = .ok e) :
    allWithin e.writes [bytesAt c 105, slotsAt d 1] := by
  unfold ruleSha256Final at h
  dsimp only at h
  split at h
  · cases h
  · split at h
    · cases h
    · injection h with h
      subst h
      refine allWithin_cons _ _ _ ⟨_, by simp, putBytes_within c _ 105 (by simp)⟩ ?_
      exact allWithin_cons _ _ _ ⟨slotsAt d 1, by simp, putBytes_within d _ 32 (by rw [shaDigest_length _ (by simp)])⟩
        (allWithin_nil _)

theorem ruleSha256Compress_writes (a : Slot) (c : Slot) (s : State) (e : Effect) (h : ruleSha256Compress a c s = .ok e) :
    allWithin e.writes [slotsAt c 1] := by
  injection h with h
  subst h
  exact oneString_within c _ 32 (by simp)

theorem ruleKeccakInit_writes (c : Slot) (s : State) (e : Effect) (h : ruleKeccakInit c s = .ok e) :
    allWithin e.writes [slotsAt c 7] := by
  injection h with h
  subst h
  exact oneString_within c _ 224 (by simp [keccakInitContext])

theorem ruleKeccakUpdate_writes (a : Slot) (c : Slot) (l1 : Len) (s : State) (e : Effect) (h : ruleKeccakUpdate a c l1 s = .ok e) :
    allWithin e.writes [bytesAt c 201] := by
  unfold ruleKeccakUpdate at h
  dsimp only at h
  split at h
  · cases h
  · split at h
    · cases h
    · injection h with h
      subst h
      exact oneString_within c _ 201 (keccakUpdated_length _ _ (by simp))

theorem ruleKeccakFinal_writes (d : Slot) (c : Slot) (s : State) (e : Effect) (h : ruleKeccakFinal d c s = .ok e) :
    allWithin e.writes [bytesAt c 202, slotsAt d 1] := by
  unfold ruleKeccakFinal at h
  dsimp only at h
  split at h
  · cases h
  · split at h
    · cases h
    · injection h with h
      subst h
      refine allWithin_cons _ _ _ ⟨_, by simp, putBytes_within c _ 202 (by simp)⟩ ?_
      exact allWithin_cons _ _ _ ⟨slotsAt d 1, by simp, putBytes_within d _ 32 (by simp)⟩
        (allWithin_nil _)

theorem ruleKeccakf_writes (c : Slot) (s : State) (e : Effect) (h : ruleKeccakf c s = .ok e) :
    allWithin e.writes [bytesAt c 200] := by
  injection h with h
  subst h
  exact oneString_within c _ 200 (by simp)

theorem ruleB3Compress_writes (d : Slot) (a : Slot) (b : Slot) (c : Slot) (s : State) (e : Effect) (h : ruleB3Compress d a b c s = .ok e) :
    allWithin e.writes [slotsAt d 2] := by
  unfold ruleB3Compress at h
  dsimp only at h
  split at h
  · cases h
  · injection h with h
    subst h
    exact oneString_within d _ 64 (by rw [wordsLe32_length, b3CompressWords_length _ _ _ _ _ (by simp)])

theorem ruleChachaQr_writes (d : Slot) (a : Slot) (s : State) (e : Effect) (h : ruleChachaQr d a s = .ok e) :
    allWithin e.writes [bytesAt d 16] := by
  injection h with h
  subst h
  exact oneString_within d _ 16 (by simp)

theorem ruleChachaBlock_writes (d : Slot) (c : Slot) (s : State) (e : Effect) (h : ruleChachaBlock d c s = .ok e) :
    allWithin e.writes [slotsAt d 2] := by
  injection h with h
  subst h
  exact oneString_within d _ 64
    (chachaBlock_length _ _ _ (ctxKey_length _ (by simp)) (ctxNonce_length _ (by simp)))

theorem ruleChachaXor_writes (d : Slot) (a : Slot) (c : Slot) (l1 : Len) (s : State) (e : Effect) (h : ruleChachaXor d a c l1 s = .ok e) :
    allWithin e.writes [appendedAt c 32 4, appendedAt c 48 1, bytesAt d l1.toNat] := by
  unfold ruleChachaXor at h
  dsimp only at h
  split at h
  · cases h
  · split at h
    · cases h
    · split at h
      · injection h with h
        subst h
        refine allWithin_cons _ _ _ ⟨appendedAt c 32 4, by simp, by simp [Write.within, appendedAt]⟩ ?_
        have hout : ∃ r ∈ [appendedAt c 32 4, appendedAt c 48 1, bytesAt d l1.toNat],
            (putBytes d (xorBytes (memRead s (slotAddr a) l1.toNat)
              (keystream (ctxKey (memRead s (slotAddr c) 64)) (ctxNonce (memRead s (slotAddr c) 64))
                (ctxCounter (memRead s (slotAddr c) 64))
                (blocksFor (memRead s (slotAddr a) l1.toNat).length)))).within r :=
          ⟨_, by simp, putBytes_within d _ l1.toNat (by
            rw [xor_keystream_length _ _ _ _ (ctxKey_length _ (by simp)) (ctxNonce_length _ (by simp))]
            simp)⟩
        split
        · refine allWithin_cons _ _ _ ⟨appendedAt c 48 1, by simp, by simp [Write.within, appendedAt]⟩ ?_
          exact allWithin_cons _ _ _ hout (allWithin_nil _)
        · exact allWithin_cons _ _ _ hout (allWithin_nil _)
      · injection h with h
        subst h
        exact allWithin_nil _

theorem rulePoly1305_writes (d : Slot) (a : Slot) (c : Slot) (l1 : Len) (s : State) (e : Effect) (h : rulePoly1305 d a c l1 s = .ok e) :
    allWithin e.writes [bytesAt d 16] := by
  injection h with h
  subst h
  exact oneString_within d _ 16 (by simp)

theorem ruleAeadEnc_writes (d : Slot) (a : Slot) (b : Slot) (c : Slot) (l1 : Len) (l2 : Len) (s : State) (e : Effect) (h : ruleAeadEnc d a b c l1 l2 s = .ok e) :
    allWithin e.writes [bytesAt d (l1.toNat + 16)] := by
  injection h with h
  subst h
  refine oneString_within d _ (l1.toNat + 16) ?_
  rw [List.length_append, aeadTag, poly1305Tag_length, aeadXor,
    xor_keystream_length _ _ _ _ (ctxKey_length _ (by simp)) (ctxNonce_length _ (by simp)), memRead_length]

theorem ruleAeadDec_writes (d : Slot) (a : Slot) (b : Slot) (c : Slot) (l1 : Len) (l2 : Len) (s : State) (e : Effect) (h : ruleAeadDec d a b c l1 l2 s = .ok e) :
    allWithin e.writes [bytesAt d l1.toNat] := by
  unfold ruleAeadDec at h
  dsimp only at h
  split at h
  · injection h with h
    subst h
    refine oneString_within d _ l1.toNat ?_
    rw [aeadXor, xor_keystream_length _ _ _ _ (ctxKey_length _ (by simp)) (ctxNonce_length _ (by simp)),
      memRead_length]
  · cases h

theorem ruleNop_writes (s : State) (e : Effect) (h : ruleNop s = .ok e) : e.writes = [] := by
  injection h with h
  subst h
  rfl

theorem ruleCmp_writes (a b : Slot) (s : State) (e : Effect) (h : ruleCmp a b s = .ok e) : e.writes = [] := by
  injection h with h
  subst h
  rfl

theorem ruleEcchk_writes (a : Slot) (s : State) (e : Effect) (h : ruleEcchk a s = .ok e) : e.writes = [] := by
  injection h with h
  subst h
  rfl

theorem ruleEcdsaVerify_writes (a b c : Slot) (lows : Bool) (s : State) (e : Effect)
    (h : ruleEcdsaVerify a b c lows s = .ok e) : e.writes = [] := by
  unfold ruleEcdsaVerify at h
  generalize ecdsaVerifyValue _ _ _ _ _ _ = verdict at h
  cases verdict with
  | error x => cases h
  | ok x =>
    injection h with h
    subst h
    rfl

/-- Every write a rule queues lies in a write region of its command. -/
theorem ruleOf_writes (i : Instr) (s : State) (e : Effect) (h : ruleOf i s = .ok e) :
    allWithin e.writes (writeRegions i) := by
  cases i <;> rw [ruleOf] at h <;> rw [writeRegions]
  · rw [ruleNop_writes _ _ h]; exact allWithin_nil _
  · rw [ruleNop_writes _ _ h]; exact allWithin_nil _
  · exact ruleLdc_writes _ _ _ _ h
  · exact ruleAdd_writes _ _ _ _ _ h
  · exact ruleSub_writes _ _ _ _ _ h
  · exact ruleMul_writes _ _ _ _ _ h
  · rw [ruleCmp_writes _ _ _ _ h]; exact allWithin_nil _
  · exact ruleModadd_writes _ _ _ _ _ _ h
  · exact ruleModsub_writes _ _ _ _ _ _ h
  · exact ruleModmul_writes _ _ _ _ _ _ h
  · exact ruleMontmul_writes _ _ _ _ _ _ h
  · exact ruleMontin_writes _ _ _ _ _ h
  · exact ruleMontout_writes _ _ _ _ _ h
  · exact ruleModexp_writes _ _ _ _ _ _ h
  · exact ruleGcd_writes _ _ _ _ _ h
  · exact ruleModinv_writes _ _ _ _ _ h
  · exact ruleModinvvt_writes _ _ _ _ _ h
  · exact ruleEcadd_writes _ _ _ _ _ h
  · exact ruleEcdbl_writes _ _ _ _ h
  · exact ruleEcmul_writes _ _ _ _ _ h
  · exact ruleEcmulg_writes _ _ _ _ h
  · rw [ruleEcchk_writes _ _ _ h]; exact allWithin_nil _
  · exact rulePkenc_writes _ _ _ _ _ h
  · exact rulePkdec_writes _ _ _ _ _ h
  · exact ruleEcdsaSign_writes _ _ _ _ _ _ _ h
  · rw [ruleEcdsaVerify_writes _ _ _ _ _ _ h]; exact allWithin_nil _
  · exact ruleSha256Init_writes _ _ _ h
  · exact ruleSha256Update_writes _ _ _ _ _ h
  · exact ruleSha256Final_writes _ _ _ _ h
  · exact ruleSha256Compress_writes _ _ _ _ h
  · exact ruleKeccakInit_writes _ _ _ h
  · exact ruleKeccakUpdate_writes _ _ _ _ _ h
  · exact ruleKeccakFinal_writes _ _ _ _ h
  · exact ruleKeccakf_writes _ _ _ h
  · exact ruleB3Compress_writes _ _ _ _ _ _ h
  · exact ruleChachaQr_writes _ _ _ _ h
  · exact ruleChachaBlock_writes _ _ _ _ h
  · exact ruleChachaXor_writes _ _ _ _ _ _ h
  · exact rulePoly1305_writes _ _ _ _ _ _ h
  · exact ruleAeadEnc_writes _ _ _ _ _ _ _ _ h
  · exact ruleAeadDec_writes _ _ _ _ _ _ _ _ h

end Sys2Proof.Machine
end

