-- ==== Sys2Proof/Laws/Commands.lean ====
section
/-! SUPPORT. What committing, completing, halting and resetting do to memory and the registers, said once in the terms of
Safety.lean. -/

namespace Sys2Proof.Machine

theorem Region.has_eq_false (r : Region) (a : Nat) : r.has a = false ↔ a < r.start ∨ r.start + r.size ≤ a := by
  simp [Region.has]
  omega

/-- Committed writes leave every byte outside their regions. -/
theorem applyWrites_outside (dm : Memory) (ws : List Write) (rs : List Region) (h : allWithin ws rs) :
    SameOutside rs dm (applyWrites dm ws) := by
  intro a ha
  induction ws generalizing dm with
  | nil => rfl
  | cons w ws ih =>
    obtain ⟨r, hr, hw⟩ := h w (by simp)
    have hout := (Region.has_eq_false r a).mp (ha r hr)
    show (applyWrites (dm.writeBytes w.addr w.bytes) ws).read a = dm.read a
    rw [ih (dm.writeBytes w.addr w.bytes) fun w' hw' => h w' (by simp [hw']), Memory.read_writeBytes, if_neg]
    unfold Write.within at hw
    omega

/-- Committed writes inside a memory keep its canonical form. -/
theorem applyWrites_wf (size : Nat) (dm : Memory) (ws : List Write) (rs : List Region) (h : allWithin ws rs)
    (hr : ∀ r ∈ rs, r.start + r.size ≤ size) (hm : dm.wf size = true) : (applyWrites dm ws).wf size = true := by
  induction ws generalizing dm with
  | nil => exact hm
  | cons w ws ih =>
    obtain ⟨r, hrm, hw⟩ := h w (by simp)
    have hsize := hr r hrm
    unfold Write.within at hw
    exact ih _ (fun w' hw' => h w' (by simp [hw'])) (Memory.wf_writeBytes size dm _ _ hm (by omega))

/-- A command in range has each of its regions in DM. -/
theorem regions_inRange (i : Instr) (h : regionsInRange i = true) (r : Region)
    (hr : r ∈ readRegions i ++ writeRegions i) : r.start + r.size ≤ 4096 := by
  have hall := List.all_eq_true.mp h r hr
  simpa [Region.inRange] using hall

/-- The next state of a command other than END that is in range and whose rule gives an effect, below index 255: the
effect is committed, PC moves on, and nothing else changes. -/
theorem exec_completes (i : Instr) (s : State) (e : Effect) (hi : i ≠ .endSeq) (hr : regionsInRange i = true)
    (h : ruleOf i s = .ok e) (hpc : s.pc ≠ 255) :
    ∃ t, exec i s = .next t ∧ Completed s t ∧ t.dm = applyWrites s.dm e.writes ∧ t.c = e.c.getD s.c ∧
      t.v = e.v.getD s.v ∧ t.cmp = e.cmp.getD s.cmp ∧ SameOutside (writeRegions i) s.dm t.dm := by
  refine ⟨{ commit e s with pc := s.pc + 1 }, ?_, ?_, rfl, rfl, rfl, rfl, ?_⟩
  · rw [exec_eq_runRule i s hi, runRule_ok i _ s e hr h hpc]
  · exact ⟨rfl, rfl, rfl, rfl, rfl, rfl, rfl, rfl, rfl, rfl, rfl, rfl⟩
  · exact applyWrites_outside s.dm e.writes _ (ruleOf_writes i s e h)

/-- The same for a rule that writes no flag. -/
theorem exec_completesWriting (i : Instr) (s : State) (ws : List Write) (result : State → Prop) (hi : i ≠ .endSeq)
    (hr : regionsInRange i = true) (h : ruleOf i s = writesResult ws) (hpc : s.pc ≠ 255)
    (hres : ∀ t, t.dm = applyWrites s.dm ws → result t) : CompletesWriting i s (writeRegions i) result := by
  obtain ⟨t, ht, hc, hdm, h1, h2, h3, ho⟩ := exec_completes i s { writes := ws } hi hr h hpc
  exact ⟨t, ht, hres t hdm, hc, ⟨h1, h2, h3⟩, ho⟩

/-- A command in range whose rule raises an error halts with it. -/
theorem exec_halts (i : Instr) (s : State) (e : ErrCode) (hi : i ≠ .endSeq) (hr : regionsInRange i = true)
    (h : ruleOf i s = .error e) : HaltsWith i s e := by
  refine ⟨haltError e s.pc s, ?_, ?_⟩
  · rw [exec_eq_runRule i s hi, runRule_error i _ s e hr h]
  · exact ⟨rfl, rfl, rfl, rfl, rfl, rfl, rfl, rfl, rfl, rfl, rfl, rfl, rfl, rfl, rfl, rfl⟩

/-- A command out of range halts with RANGE. -/
theorem exec_outOfRange (i : Instr) (s : State) (hi : i ≠ .endSeq) (hr : regionsInRange i = false) :
    HaltsWith i s .range := by
  refine ⟨haltError .range s.pc s, ?_, ?_⟩
  · rw [exec_eq_runRule i s hi, runRule_outOfRange i _ s hr]
  · exact ⟨rfl, rfl, rfl, rfl, rfl, rfl, rfl, rfl, rfl, rfl, rfl, rfl, rfl, rfl, rfl, rfl⟩

/-- A command has a form when its fields are those of the form and its range check is the form's. -/
theorem hasForm_of_fields (i : Instr) (x : Fields) (rs : List (Nat × Nat)) (hx : fieldsOf i = x)
    (hr : regionsInRange i = rs.all fun r => decide (r.1 + r.2 ≤ 4096)) : HasForm i x rs :=
  ⟨by rw [encode, splitWord_joinFields, hx], hr⟩

/-- No PC is its own successor: a command that moved PC on did not halt on an error. -/
theorem pc_add_one_ne (p : BitVec 8) : p + 1 ≠ p := by
  intro h
  bv_omega

/-- A slice of bytes read is the bytes read further up. -/
theorem slice_memRead (s : State) (a n i j : Nat) (h : j ≤ n) :
    slice (memRead s a n) i j = memRead s (a + i) (j - i) := by
  apply List.ext_getElem
  · simp
    omega
  · intro k h1 h2
    simp only [slice_length, memRead_length] at h1 h2
    have e1 : (memRead s (a + i) (j - i)).getD k 0 = s.dm.read (a + i + k) := Memory.readBytes_getD _ _ _ _ (by omega)
    have e2 : (memRead s a n).getD (i + k) 0 = s.dm.read (a + (i + k)) := Memory.readBytes_getD _ _ _ _ (by omega)
    rw [List.getD_eq_getElem _ _ (by simp; omega)] at e1 e2
    simp only [slice, List.getElem_drop, List.getElem_take, e1, e2]
    congr 1
    omega

/-- One byte of the bytes read. -/
theorem byteAt_memRead (s : State) (a n i : Nat) (h : i < n) : byteAt (memRead s a n) i = s.dm.read (a + i) :=
  Memory.readBytes_getD _ _ _ _ h

/-- One byte of a little-endian representation. -/
theorem leBytes_getD (n v k : Nat) (h : k < n) : (leBytes n v).getD k 0 = BitVec.ofNat 8 (v / 256 ^ k) := by
  induction n generalizing v k with
  | zero => omega
  | succ n ih =>
    cases k with
    | zero => simp [leBytes]
    | succ k =>
      rw [leBytes, List.getD_cons_succ, ih _ _ (by omega), Nat.div_div_eq_div_mul, pow_succ, Nat.mul_comm 256]

/-- The last write of a list is read back whole. -/
theorem readBytes_applyWrites_last (dm : Memory) (ws : List Write) (a n : Nat) (bs : List Byte) (h : bs.length = n) :
    (applyWrites dm (ws ++ [⟨a, bs⟩])).readBytes a n = bs := by
  rw [applyWrites, List.foldl_append]
  show ((applyWrites dm ws).writeBytes a bs).readBytes a n = bs
  rw [← h]
  exact Memory.readBytes_writeBytes_same _ _ _

/-- A byte string written alone is read back whole. -/
theorem readBytes_applyWrites_one (dm : Memory) (a n : Nat) (bs : List Byte) (h : bs.length = n) :
    (applyWrites dm [⟨a, bs⟩]).readBytes a n = bs :=
  readBytes_applyWrites_last dm [] a n bs h

/-- The slot a rule wrote holds the value it wrote, an integer below `2^256`. -/
theorem slotValue_putSlot (s t : State) (x : Slot) (v : Nat) (hv : v < 2 ^ 256)
    (h : t.dm = applyWrites s.dm [putSlot x v]) : slotValue t x = v := by
  rw [slotValue, memRead, h, putSlot, readBytes_applyWrites_one _ _ _ _ (beBytes_length 32 v), be_beBytes]
  exact Nat.mod_eq_of_lt (by norm_num at *; exact hv)

theorem applyWrites_pair (dm : Memory) (w w' : Write) :
    applyWrites dm [w, w'] = (dm.writeBytes w.addr w.bytes).writeBytes w'.addr w'.bytes := rfl

/-- The pair of slots a rule wrote holds the two values it wrote. -/
theorem slotValue_putPair (s t : State) (x : Slot) (u v : Nat) (hu : u < 2 ^ 256) (hv : v < 2 ^ 256)
    (h : t.dm = applyWrites s.dm [putSlot x u, putNextSlot x v]) : slotValue t x = u ∧ nextSlotValue t x = v := by
  have hfirst : t.dm.readBytes (slotAddr x) 32 = beBytes 32 u := by
    rw [h, applyWrites_pair, putSlot, putNextSlot,
      Memory.readBytes_writeBytes_apart _ _ _ _ _ (.inl (Nat.le_refl _))]
    exact readBytes_applyWrites_one s.dm _ _ _ (beBytes_length 32 u)
  have hsecond : t.dm.readBytes (slotAddr x + 32) 32 = beBytes 32 v := by
    rw [h, putNextSlot]
    exact readBytes_applyWrites_last s.dm [putSlot x u] _ _ _ (beBytes_length 32 v)
  constructor
  · rw [slotValue, memRead, hfirst, be_beBytes]
    exact Nat.mod_eq_of_lt (by norm_num at *; exact hu)
  · rw [nextSlotValue, memRead, hsecond, be_beBytes]
    exact Nat.mod_eq_of_lt (by norm_num at *; exact hv)

/-- Free bytes have the length asked for. -/
@[simp] theorem freeBytes_length (k n : Nat) : (freeBytes k n).length = n := by
  induction n generalizing k with
  | zero => rfl
  | succ n ih => simp [freeBytes, ih]

/-- Free values over regions leave every byte outside them. -/
theorem scramble_outside (dm : Memory) (k : Nat) (rs : List Region) : SameOutside rs dm (scramble dm k rs) := by
  intro a ha
  induction rs generalizing dm k with
  | nil => rfl
  | cons r rs ih =>
    have hr := (Region.has_eq_false r a).mp (ha r (by simp))
    rw [scramble, ih _ _ fun r' hr' => ha r' (by simp [hr']), Memory.read_writeBytes, if_neg]
    simp only [freeBytes_length]
    omega

/-- The free bytes drawn are numbered on from the first. -/
theorem freeBytes_getD (k n j : Nat) (h : j < n) : (freeBytes k n).getD j 0 = Config.freeByte (k + j) := by
  induction n generalizing k j with
  | zero => omega
  | succ n ih =>
    cases j with
    | zero => rfl
    | succ j =>
      rw [freeBytes, List.getD_cons_succ, ih _ _ (by omega), Nat.add_right_comm, Nat.add_assoc]

/-- A byte inside regions that are given free values reads as one of those drawn. -/
theorem scramble_inside (dm : Memory) (k : Nat) (rs : List Region) (a : Nat) (h : ∃ r ∈ rs, r.has a = true) :
    ∃ j, j < regionBytes rs ∧ (scramble dm k rs).read a = Config.freeByte (k + j) := by
  induction rs generalizing dm k with
  | nil => simp at h
  | cons q rs ih =>
    by_cases hrest : ∃ r ∈ rs, r.has a = true
    · obtain ⟨j, hj, hread⟩ := ih (dm.writeBytes q.start (freeBytes k q.size)) (k + q.size) hrest
      refine ⟨q.size + j, by simpa [regionBytes] using hj, ?_⟩
      rw [scramble, hread, Nat.add_assoc]
    · have hq : q.has a = true := by
        obtain ⟨r, hr, ha⟩ := h
        rcases List.mem_cons.mp hr with rfl | hr
        · exact ha
        · exact absurd ⟨r, hr, ha⟩ hrest
      have hin : q.start ≤ a ∧ a < q.start + q.size := by simpa [Region.has] using hq
      have hout : ∀ r ∈ rs, r.has a = false := fun r hr => by
        by_contra hne
        exact hrest ⟨r, hr, by simpa using hne⟩
      refine ⟨a - q.start, by simp [regionBytes]; omega, ?_⟩
      rw [scramble, scramble_outside _ _ rs a hout, Memory.read_writeBytes, if_pos (by simpa using hin),
        freeBytes_getD _ _ _ (by omega)]

/-- A listed write region starts in DM. -/
theorem listedWriteRegions_start (i : Instr) : ∀ r ∈ listedWriteRegions i, r.start ≤ 4096 := by
  cases i <;> simp [listedWriteRegions, writeRegions, slotsAt, bytesAt, slotAddr] <;> omega

/-- Of a region's bytes, those below the end of DM remain. -/
theorem Region.inDm_has (r : Region) (a : Nat) : r.inDm.has a = (r.has a && decide (a < 4096)) := by
  rw [Bool.eq_iff_iff]
  simp only [Region.has, Bool.and_eq_true, decide_eq_true_eq]
  simp only [Region.inDm]
  omega

/-- Every byte a command may write lies in a region its rule lists. -/
theorem writeRegions_listed (i : Instr) (a : Nat) (h : ∃ r ∈ writeRegions i, r.has a = true) :
    ∃ r ∈ listedWriteRegions i, r.has a = true := by
  cases i
  case sha256Update => simp [writeRegions, listedWriteRegions, Region.has, slotsAt, bytesAt] at h ⊢; omega
  case sha256Final => simp [writeRegions, listedWriteRegions, Region.has, slotsAt, bytesAt] at h ⊢; omega
  case keccakUpdate => simp [writeRegions, listedWriteRegions, Region.has, slotsAt, bytesAt] at h ⊢; omega
  case keccakFinal => simp [writeRegions, listedWriteRegions, Region.has, slotsAt, bytesAt] at h ⊢; omega
  case chachaXor =>
    simp [writeRegions, listedWriteRegions, Region.has, slotsAt, bytesAt, appendedAt] at h ⊢; omega
  all_goals exact h

/-- What a warm reset may leave unspecified lies in DM. -/
theorem cutShortRegions_inDm (s : State) : ∀ r ∈ cutShortRegions s, r.start + r.size ≤ 4096 := by
  intro r hr
  unfold cutShortRegions at hr
  split at hr
  · cases hr
  · next i _ =>
    obtain ⟨q, hq, rfl⟩ := List.mem_map.mp hr
    have := listedWriteRegions_start i q hq
    simp only [Region.inDm]
    omega

/-- Free values over regions of a memory keep its canonical form. -/
theorem scramble_wf (size : Nat) (dm : Memory) (k : Nat) (rs : List Region)
    (hr : ∀ r ∈ rs, r.start + r.size ≤ size) (hm : dm.wf size = true) : (scramble dm k rs).wf size = true := by
  induction rs generalizing dm k with
  | nil => exact hm
  | cons r rs ih =>
    refine ih _ _ (fun r' hr' => hr r' (by simp [hr'])) (Memory.wf_writeBytes size dm _ _ hm ?_)
    have := hr r (by simp)
    simpa using this

/-- A word written in a window is read back there. -/
theorem windowRead_windowWrite (m : Memory) (a : Nat) (data : HostWord) :
    windowRead (windowWrite m a data) a = data := by
  have hb := Memory.readBytes_writeBytes_same m a (leBytes 4 data.toNat)
  rw [leBytes_length] at hb
  rw [windowRead, windowWrite, hb, le_leBytes]
  apply BitVec.eq_of_toNat_eq
  have := data.isLt
  simp only [BitVec.toNat_ofNat]
  norm_num at *
  omega

/-- A word written in a window, byte by byte. -/
theorem windowWrite_lane (m : Memory) (a j : Nat) (w : HostWord) (hj : j < 4) :
    (windowWrite m a w).read (a + j) = w.extractLsb' (8 * j) 8 := by
  rw [windowWrite, Memory.read_writeBytes, if_pos (by simp; omega)]
  rcases j with _ | _ | _ | _ | j
  case succ.succ.succ.succ => omega
  all_goals
    simp [leBytes, List.getD]
    apply BitVec.eq_of_toNat_eq
    simp [Nat.shiftRight_eq_div_pow] <;> omega

/-- The byte each lane of the bus carries. -/
theorem busWord_lane (lanes : BitVec 4) (data : HostWord) (n j : Nat) (hj : j < 4) :
    (busWord lanes data n).extractLsb' (8 * j) 8 = laneByte lanes data j (n + j) := by
  unfold busWord
  split
  · next h =>
    subst h
    rcases j with _ | _ | _ | _ | j
    case succ.succ.succ.succ => omega
    all_goals simp [laneByte]
  · have h0 := (laneByte lanes data 0 n).isLt
    have h1 := (laneByte lanes data 1 (n + 1)).isLt
    have h2 := (laneByte lanes data 2 (n + 2)).isLt
    have h3 := (laneByte lanes data 3 (n + 3)).isLt
    rcases j with _ | _ | _ | _ | j
    case succ.succ.succ.succ => omega
    all_goals
      apply BitVec.eq_of_toNat_eq
      simp [le, Nat.shiftRight_eq_div_pow]
      omega

/-- What a host write never changes, and what it leaves alone while Running. -/
theorem hostWrite_keeps (offset : Nat) (data : HostWord) (s : State) :
    (hostWrite offset data s).freeCount = s.freeCount ∧ (hostWrite offset data s).pending = s.pending ∧
      (s.busy = true → (hostWrite offset data s).busy = true ∧ (hostWrite offset data s).pc = s.pc ∧
        (hostWrite offset data s).done = s.done) := by
  unfold hostWrite ctrlWrite pcWrite dmWindowWrite cmWindowWrite start
  dsimp only
  repeat' split
  all_goals simp_all

/-- A word written in a window leaves every other byte. -/
theorem windowWrite_read (m : Memory) (a x : Nat) (data : HostWord) (h : x < a ∨ a + 4 ≤ x) :
    (windowWrite m a data).read x = m.read x := by
  rw [windowWrite, Memory.read_writeBytes, if_neg]
  simp only [leBytes_length]
  omega

/-- A word written inside a memory keeps its canonical form. -/
theorem windowWrite_wf (size : Nat) (m : Memory) (a : Nat) (data : HostWord) (hm : m.wf size = true)
    (ha : a + 4 ≤ size) : (windowWrite m a data).wf size = true :=
  Memory.wf_writeBytes size m a _ hm (by simpa using ha)

/-- Contents given at power-on read as given, byte for byte (spec/70_reset_and_hazards.md R472). -/
theorem powerOn_read (dmInit cmInit : List Byte) (a : Nat) (h : a < dmInit.length) (ha : a < 4096) :
    (State.powerOn dmInit cmInit).dm.read a = dmInit.getD a 0 := by
  show (Memory.writeBytes [] 0 (dmInit.take 4096)).read a = _
  rw [Memory.read_writeBytes, if_pos ⟨by omega, by simp; omega⟩]
  simp [List.getD_eq_getElem?_getD, ha]

/-- With nothing given, the power-on state is the listed reset state. -/
theorem powerOn_nil : State.powerOn [] [] = State.reset := rfl

end Sys2Proof.Machine
end

