-- ==== Sys2Proof/Machine/Timing.lean ====
section
/-! DEFINITION. Latency (spec/70_reset_and_hazards.md R480 to R482), as a function of the opaque parameters of Config.
No step reads it: a command is one step (log entry 8). -/

namespace Sys2Proof.Machine

/-- `LAT(op, L1, L2, F)`: the cycles of a constant-time command that completes, a positive function of its word alone
(spec/70_reset_and_hazards.md R480, R481). -/
def constantCycles (i : Instr) : Nat :=
  Config.latency (fieldsOf i).opc.toNat (fieldsOf i).l1.toNat (fieldsOf i).l2.toNat ((fieldsOf i).f.getLsbD 0) + 1

/-- The cycles of a command that completes: GCD and MODINVVT may depend on their operand values, no other command on
any byte of DM (spec/70_reset_and_hazards.md R481, R482). -/
def commandCycles (s : State) : Instr → Nat
  | .gcd _ a b => Config.variableLatency 0x1B (slotValue s a) (slotValue s b) + 1
  | .modinvvt _ a c => Config.variableLatency 0x1D (slotValue s a) (slotValue s c) + 1
  | i@(.endSeq) | i@(.nop) | i@(.ldc _ _) | i@(.add _ _ _) | i@(.sub _ _ _) | i@(.mul _ _ _) | i@(.cmp _ _)
  | i@(.modadd _ _ _ _) | i@(.modsub _ _ _ _) | i@(.modmul _ _ _ _) | i@(.montmul _ _ _ _) | i@(.montin _ _ _)
  | i@(.montout _ _ _) | i@(.modexp _ _ _ _) | i@(.modinv _ _ _) | i@(.ecadd _ _ _) | i@(.ecdbl _ _)
  | i@(.ecmul _ _ _) | i@(.ecmulg _ _) | i@(.ecchk _) | i@(.pkenc _ _ _) | i@(.pkdec _ _ _)
  | i@(.ecdsaSign _ _ _ _ _) | i@(.ecdsaVerify _ _ _ _) | i@(.sha256Init _) | i@(.sha256Update _ _ _)
  | i@(.sha256Final _ _) | i@(.sha256Compress _ _) | i@(.keccakInit _) | i@(.keccakUpdate _ _ _)
  | i@(.keccakFinal _ _) | i@(.keccakf _) | i@(.b3Compress _ _ _ _) | i@(.chachaQr _ _) | i@(.chachaBlock _ _)
  | i@(.chachaXor _ _ _ _) | i@(.poly1305 _ _ _ _) | i@(.aeadEnc _ _ _ _ _ _) | i@(.aeadDec _ _ _ _ _ _) =>
    constantCycles i

/-- What a completing command adds to its run: its latency and `SEQ_OVH` (spec/70_reset_and_hazards.md R480). -/
def cyclesOfRunStep (s : State) (i : Instr) : Nat := commandCycles s i + (Config.sequencerOverhead + 1)

end Sys2Proof.Machine
end

