-- ==== Sys2Proof/Tests/Slice0.lean ====
section
/-! SUPPORT. Small tests. Expected words and values come from spec/30_encoding.md and from the vectors of
spec/95_test_vectors.md (named in each comment as "95 §n"), or are worked by hand from the rule named. Every test
of a command is one step from `State.withFetchWord`: while the run goes on, STATUS shows BUSY where the vector, read
after END, shows DONE. The last part gives, for each obligation with hypotheses, states and operands that meet them. -/

namespace Sys2Proof.Tests

open Sys2Proof Sys2Proof.Machine

set_option Elab.async false

/-- The state a step answers, for tests that know it answers one. -/
def after (o : Host.Outcome State Fault Refusal) : State :=
  match o with
  | .next t => t
  | _ => State.reset

/-- The outcome is a next state. -/
def isNext (o : Host.Outcome State Fault Refusal) : Bool :=
  match o with
  | .next _ => true
  | _ => false

theorem next_after {o : Host.Outcome State Fault Refusal} (h : isNext o = true) : o = .next (after o) := by
  cases o <;> simp_all [isNext, after]

/-- A Running state with these writes in an otherwise zero DM. -/
def running (pc : Nat) (ws : List Write) : State :=
  { State.reset with dm := applyWrites [] ws, pc := BitVec.ofNat 8 pc, busy := true }

/-- `DM[a], DM[a+1], …` hold the `n` bytes of a number written in hexadecimal. -/
def bytes (a n v : Nat) : Write := ⟨a, beBytes n v⟩

/-- One step of a command word. -/
def stepWord (word : Nat) (ws : List Write) : State :=
  after (step ({ State.reset with dm := applyWrites [] ws }.withFetchWord 64 word))

/-- STATUS as a number. -/
def status (s : State) : Nat := (statusWord s).toNat

/-- A slot's value. -/
def slot (s : State) (x : Nat) : Nat := slotValue s (BitVec.ofNat 7 x)

/-- `n` bytes from an address, as the number their hexadecimal writes. -/
def hex (s : State) (a n : Nat) : Nat := be (memRead s a n)

/-! ### Well-formedness: the one check, and the term it refuses -/

theorem test_wellFormed_ldc_four : (Instr.ldc 5 4).wellFormed = true := by decide
theorem test_wellFormed_refuses_ldc_five : (Instr.ldc 5 5).wellFormed = false := by decide
theorem test_wellFormed_refuses_ldc_last : (Instr.ldc 127 4095).wellFormed = false := by decide

/-! ### Decoding: a word of every constructor, from spec/30_encoding.md R111 and 95 -/

theorem test_decode_end : decode 0x0100000000000000 = .ok .endSeq := by decide +kernel
theorem test_decode_nop : decode 0x0200000000000000 = .ok .nop := by decide +kernel
theorem test_decode_ldc : decode 0x030A000000040000 = .ok (.ldc 5 4) := by decide +kernel
theorem test_decode_add : decode 0x1006041000000000 = .ok (.add 3 1 2) := by decide +kernel
theorem test_decode_sub : decode 0x1106041000000000 = .ok (.sub 3 1 2) := by decide +kernel
theorem test_decode_mul : decode 0x12FE041000000000 = .ok (.mul 127 1 2) := by decide +kernel
theorem test_decode_cmp : decode 0x1300183800000000 = .ok (.cmp 6 7) := by decide +kernel
/-- By R111: 0x14, D = 127, A = 64, B = 1, C = 126. -/
theorem test_decode_modadd : decode 0x14FF000FE0000000 = .ok (.modadd 127 64 1 126) := by decide +kernel
theorem test_decode_modsub : decode 0x1506041000000000 = .ok (.modsub 3 1 2 0) := by decide +kernel
theorem test_decode_modmul : decode 0x1614200800000000 = .ok (.modmul 10 8 1 0) := by decide +kernel
theorem test_decode_montmul : decode 0x170A0C2000000000 = .ok (.montmul 5 3 4 0) := by decide +kernel
theorem test_decode_montin : decode 0x1808080000000000 = .ok (.montin 4 2 0) := by decide +kernel
theorem test_decode_montout : decode 0x190C140000000000 = .ok (.montout 6 5 0) := by decide +kernel
theorem test_decode_modexp : decode 0x1A10044800000000 = .ok (.modexp 8 1 9 0) := by decide +kernel
theorem test_decode_gcd : decode 0x1B06041000000000 = .ok (.gcd 3 1 2) := by decide +kernel
theorem test_decode_modinv : decode 0x1C1C3C0100000000 = .ok (.modinv 14 15 16) := by decide +kernel
theorem test_decode_modinvvt : decode 0x1D06040000000000 = .ok (.modinvvt 3 1 0) := by decide +kernel
theorem test_decode_ecadd : decode 0x200A0C3800000000 = .ok (.ecadd 5 3 7) := by decide +kernel
theorem test_decode_ecdbl : decode 0x210A0C0000000000 = .ok (.ecdbl 5 3) := by decide +kernel
theorem test_decode_ecmul : decode 0x220A1C1800000000 = .ok (.ecmul 5 7 3) := by decide +kernel
theorem test_decode_ecmulg : decode 0x231C004800000000 = .ok (.ecmulg 14 9) := by decide +kernel
theorem test_decode_ecchk : decode 0x24000C0000000000 = .ok (.ecchk 3) := by decide +kernel
theorem test_decode_pkenc : decode 0x250A040000000001 = .ok (.pkenc 5 1 true) := by decide +kernel
theorem test_decode_pkenc_uncompressed : decode 0x250A040000000000 = .ok (.pkenc 5 1 false) := by decide +kernel
theorem test_decode_pkdec : decode 0x260BFC0000210000 = .ok (.pkdec 5 127 33) := by decide +kernel
theorem test_decode_ecdsa_sign :
    decode 0x30182048A0000001 = .ok (.ecdsaSign 12 8 9 10 true) := by decide +kernel
theorem test_decode_ecdsa_verify :
    decode 0x31002070C0000001 = .ok (.ecdsaVerify 8 14 12 true) := by decide +kernel
theorem test_decode_sha256_init : decode 0x40000007D0000000 = .ok (.sha256Init 125) := by decide +kernel
theorem test_decode_sha256_update : decode 0x41001000A00B0000 = .ok (.sha256Update 4 10 11) := by decide +kernel
theorem test_decode_sha256_final : decode 0x4210000000000000 = .ok (.sha256Final 8 0) := by decide +kernel
/-- By R111: 0x43, A = 2, C = 1. -/
theorem test_decode_sha256_compress : decode 0x4300080010000000 = .ok (.sha256Compress 2 1) := by decide +kernel
/-- By R111: 0x44, C = 9. -/
theorem test_decode_keccak_init : decode 0x4400000090000000 = .ok (.keccakInit 9) := by decide +kernel
/-- By R111: 0x45, A = 8, C = 1, L1 = 136. -/
theorem test_decode_keccak_update :
    decode 0x4500200010880000 = .ok (.keccakUpdate 8 1 136) := by decide +kernel
theorem test_decode_keccak_final : decode 0x460E000000000000 = .ok (.keccakFinal 7 0) := by decide +kernel
theorem test_decode_keccakf : decode 0x47000007A0000000 = .ok (.keccakf 122) := by decide +kernel
theorem test_decode_b3_compress : decode 0x481C288120000000 = .ok (.b3Compress 14 10 16 18) := by decide +kernel
/-- By R111: 0x50, D = 3, A = 1. -/
theorem test_decode_chacha_qr : decode 0x5006040000000000 = .ok (.chachaQr 3 1) := by decide +kernel
/-- By R111: 0x51, D = 4, C = 2. -/
theorem test_decode_chacha_block : decode 0x5108000020000000 = .ok (.chachaBlock 4 2) := by decide +kernel
theorem test_decode_chacha_xor :
    decode 0x5238500180460000 = .ok (.chachaXor 28 20 24 70) := by decide +kernel
/-- By R111: 0x53, D = 6, A = 2, C = 1, L1 = 34. -/
theorem test_decode_poly1305 : decode 0x530C080010220000 = .ok (.poly1305 6 2 1 34) := by decide +kernel
theorem test_decode_aead_enc :
    decode 0x54080C10000B0060 = .ok (.aeadEnc 4 3 2 0 11 6) := by decide +kernel
theorem test_decode_aead_dec :
    decode 0x550C1010000B0060 = .ok (.aeadDec 6 4 2 0 11 6) := by decide +kernel

/-! ### Refused words (95 §3) -/

theorem test_decode_refuses_zero : decode 0 = .error .reservedOpcode := by decide +kernel
theorem test_decode_refuses_opcode_four : decode 0x0400000000000000 = .error .reservedOpcode := by decide +kernel
theorem test_decode_refuses_used_fields :
    ((decode 0x0202000000000000).isOk, (decode 0x0200000000000001).isOk, (decode 0x1006041000000002).isOk,
      (decode 0x1000041000010000).isOk, (decode 0x0300000000050000).isOk) =
    (false, false, false, false, false) := by decide +kernel
theorem test_table_word_layout :
    (decodeTableWord 64 0x1606041000000000, decodeTableWord 64 0x0400000000000000) =
    (some (.modmul 3 1 2 0), none) := by decide +kernel


/-! ### One step of each command (95 §2, §3) -/

/-- p, n and the generator (spec/40_sequencer.md R157), written out here once for the tests. -/
def p : Nat := 0xFFFFFFFFFFFFFFFFFFFFFFFFFFFFFFFFFFFFFFFFFFFFFFFFFFFFFFFEFFFFFC2F
def n : Nat := 0xFFFFFFFFFFFFFFFFFFFFFFFFFFFFFFFEBAAEDCE6AF48A03BBFD25E8CD0364141
def gx : Nat := 0x79BE667EF9DCBBAC55A06295CE870B07029BFCDB2DCE28D959F2815B16F81798
def gy : Nat := 0x483ADA7726A3C4655DA4FBFC0E1108A8FD17B448A68554199C47D08FFB10D4B8

/-- The writes that put a value into a slot, and a byte string at an address. -/
def put (x v : Nat) : Write := bytes (32 * x) 32 v

theorem test_end :
    let t := stepWord 0x0100000000000000 []
    (status t, t.pc.toNat) = (0x2, 1) := by decide +kernel
theorem test_nop :
    let t := stepWord 0x0200000000000000 [put 3 7]
    (status t, t.pc.toNat, slot t 3) = (0x1, 1, 7) := by decide +kernel
theorem test_ldc_half :
    let t := stepWord 0x030A000000040000 []
    (status t, slot t 5) =
    (0x1, 0x7FFFFFFFFFFFFFFFFFFFFFFFFFFFFFFF5D576E7357A4501DDFE92F46681B20A0) := by decide +kernel
theorem test_ldc_illegal :
    let t := stepWord 0x0300000000050000 []
    (status t, t.pc.toNat) = (0x504 + 2, 0) := by decide +kernel
theorem test_add_carry_out :
    let t := stepWord 0x1006041000000000 [put 1 (2 ^ 256 - 1), put 2 1]
    (status t, slot t 3, t.pc.toNat) = (0x9, 0, 1) := by decide +kernel
theorem test_add_in_place :
    let t := stepWord 0x1002040800000000 [put 1 5]
    (status t, slot t 1) = (0x1, 0xA) := by decide +kernel
theorem test_sub_borrow :
    let t := stepWord 0x1106041000000000 [put 2 1]
    (status t, slot t 3) = (0x9, 2 ^ 256 - 1) := by decide +kernel
theorem test_sub_same :
    let t := stepWord 0x1106040800000000 [put 1 119]
    (status t, slot t 3) = (0x1, 0) := by decide +kernel
theorem test_mul_max :
    let t := stepWord 0x1206041000000000 [put 1 (2 ^ 256 - 1), put 2 (2 ^ 256 - 1)]
    (status t, slot t 3, slot t 4) = (0x1, 2 ^ 256 - 2, 1) := by decide +kernel
theorem test_mul_last_slot :
    let t := stepWord 0x12FE041000000000 []
    (status t, t.errpc.toNat) = (0x606, 0) := by decide +kernel
theorem test_cmp_less :
    let t := stepWord 0x1300041000000000 [put 1 5, put 2 7]
    (status t) = (0x21) := by decide +kernel
theorem test_cmp_greater :
    let t := stepWord 0x1300041000000000 [put 1 7, put 2 5]
    (status t) = (0x41) := by decide +kernel
theorem test_modadd_max :
    let t := stepWord 0x1406041000000000 [put 0 p, put 1 (2 ^ 256 - 1), put 2 (2 ^ 256 - 1)]
    (status t, slot t 3) = (0x1, 0x2000007A0) := by decide +kernel
theorem test_modadd_zero_modulus :
    let t := stepWord 0x1406041000000000 [put 1 5]
    (status t) = (0x106) := by decide +kernel
theorem test_modsub_wraps :
    let t := stepWord 0x1506041000000000 [put 0 p, put 2 1]
    (status t, slot t 3) = (0x1, p - 1) := by decide +kernel
theorem test_modsub_negative :
    let t := stepWord 0x1506041000000000 [put 0 7, put 1 2, put 2 5]
    (status t, slot t 3) = (0x1, 4) := by decide +kernel
theorem test_modmul_max :
    let t := stepWord 0x1606041000000000 [put 0 p, put 1 (2 ^ 256 - 1), put 2 (2 ^ 256 - 1)]
    (status t, slot t 3) = (0x1, 0x1000007A0000E8900) := by decide +kernel
theorem test_modmul_even_modulus :
    let t := stepWord 0x1606041000000000 [put 0 10, put 1 7, put 2 9]
    (status t, slot t 3) = (0x1, 3) := by decide +kernel
theorem test_montmul :
    let t := stepWord 0x1706041000000000 [put 0 7, put 1 3, put 2 5]
    (status t, slot t 3) = (0x1, 4) := by decide +kernel
theorem test_montmul_even_modulus :
    let t := stepWord 0x1706041000000000 [put 0 8, put 1 3, put 2 5]
    (status t) = (0x106) := by decide +kernel
theorem test_montin_one :
    let t := stepWord 0x1806040000000000 [put 0 p, put 1 1]
    (status t, slot t 3) = (0x1, 0x1000003D1) := by decide +kernel
theorem test_montout_one :
    let t := stepWord 0x1906040000000000 [put 0 p, put 1 0x1000003D1]
    (status t, slot t 3) = (0x1, 1) := by decide +kernel
theorem test_modexp_fermat :
    let t := stepWord 0x1A06041000000000 [put 0 p, put 1 2, put 2 (p - 1)]
    (status t, slot t 3) = (0x1, 1) := by decide +kernel
theorem test_modexp_zero_zero :
    let t := stepWord 0x1A06041000000000 [put 0 7]
    (status t, slot t 3) = (0x1, 1) := by decide +kernel
theorem test_gcd :
    let t := stepWord 0x1B06041000000000 [put 1 48, put 2 18]
    (status t, slot t 3) = (0x1, 6) := by decide +kernel
theorem test_gcd_zero :
    let t := stepWord 0x1B06041000000000 [put 1 12]
    (status t, slot t 3) = (0x1, 0xC) := by decide +kernel
theorem test_modinv_two :
    let t := stepWord 0x1C06040000000000 [put 0 p, put 1 2]
    (status t, slot t 3) = (0x1, (p + 1) / 2) := by decide +kernel
theorem test_modinv_composite :
    let t := stepWord 0x1C06040000000000 [put 0 15, put 1 2]
    (status t, slot t 3) = (0x106, 0) := by decide +kernel
theorem test_modinvvt_composite :
    let t := stepWord 0x1D06040000000000 [put 0 15, put 1 2]
    (status t, slot t 3) = (0x1, 8) := by decide +kernel
theorem test_modinvvt_not_invertible :
    let t := stepWord 0x1D06040000000000 [put 0 15, put 1 3]
    (status t) = (0x106) := by decide +kernel
theorem test_ecadd_three_g :
    let t := stepWord 0x200A041800000000 [put 1 0xC6047F9441ED7D6D3045406E95C07CD85C778E4B8CEF3CA7ABAC09B95C709EE5, put 2 0x1AE168FEA63DC339A3C58419466CEAEEF7F632653266D0E1236431A950CFE52A, put 3 gx, put 4 gy]
    (status t, slot t 5, slot t 6) =
    (0x1, 0xF9308A019258C31049344F85F89D5229B531C845836F99B08601F113BCE036F9, 0x388F7B0F632DE8140FE337E62A37F3566500A99934C2231B6CB9FD7584B8E672) := by decide +kernel
theorem test_ecadd_opposite :
    let t := stepWord 0x200A041800000000 [put 1 gx, put 2 gy, put 3 gx, put 4 (p - gy), put 5 1]
    (status t, slot t 5, slot t 6) = (0x1, 0, 0) := by decide +kernel
theorem test_ecdbl :
    let t := stepWord 0x210A040000000000 [put 1 gx, put 2 gy]
    (status t, slot t 5, slot t 6) =
    (0x1, 0xC6047F9441ED7D6D3045406E95C07CD85C778E4B8CEF3CA7ABAC09B95C709EE5, 0x1AE168FEA63DC339A3C58419466CEAEEF7F632653266D0E1236431A950CFE52A) := by decide +kernel
theorem test_ecdbl_infinity :
    let t := stepWord 0x210A0C0000000000 []
    (status t, slot t 5, slot t 6) = (0x1, 0, 0) := by decide +kernel
theorem test_ecmul_past_order :
    let t := stepWord 0x220A041800000000 [put 1 gx, put 2 gy, put 3 (n + 2)]
    (status t, slot t 5, slot t 6) =
    (0x1, 0xC6047F9441ED7D6D3045406E95C07CD85C778E4B8CEF3CA7ABAC09B95C709EE5, 0x1AE168FEA63DC339A3C58419466CEAEEF7F632653266D0E1236431A950CFE52A) := by decide +kernel
theorem test_ecmul_off_curve :
    let t := stepWord 0x220A041800000000 [put 1 gx, put 2 (gy + 1), put 3 1]
    (status t) = (0x106) := by decide +kernel
/-- 95 §4, P1: the public key of 0xC0FFEE. -/
theorem test_ecmulg_key :
    let t := stepWord 0x231C004800000000 [put 9 0xC0FFEE]
    (status t, slot t 14, slot t 15) =
    (0x1, 0x2A5BBCB0EEDE528E6ABE5F2EC50AD7887EB5677AF383A460B05EE23BF892DFE5, 0x52C93747550EDA8404C8B473786C00DFD8FD1EF4BC033F359CCF5B77BD656D21) := by decide +kernel
theorem test_ecmulg_order :
    let t := stepWord 0x230A001800000000 [put 3 n]
    (status t, slot t 5, slot t 6) = (0x1, 0, 0) := by decide +kernel
theorem test_ecchk_generator :
    let t := stepWord 0x2400040000000000 [put 1 gx, put 2 gy]
    (status t) = (0x11) := by decide +kernel
theorem test_ecchk_x_is_p :
    let t := stepWord 0x2400040000000000 [put 1 p, put 2 gy]
    (status t) = (0x1) := by decide +kernel
theorem test_pkenc_compressed_odd :
    let t := stepWord 0x250A040000000001 [put 1 gx, put 2 (p - gy)]
    (status t, hex t 160 33) = (0x1, 3 * 2 ^ 256 + gx) := by decide +kernel
theorem test_pkenc_uncompressed :
    let t := stepWord 0x250A040000000000 [put 1 gx, put 2 gy]
    (status t, hex t 160 65) = (0x1, 4 * 2 ^ 512 + gx * 2 ^ 256 + gy) := by decide +kernel
/-- 1 + 7 = 8 has the square root of 95 §2.2, an even number; prefix 03 asks for the odd one. -/
theorem test_pkdec_compressed :
    let t := stepWord 0x260A200000210000 [bytes 256 33 (3 * 2 ^ 256 + 1)]
    (status t, slot t 5, slot t 6) =
    (0x1, 1, p - 0x4218F20AE6C646B363DB68605822FB14264CA8D2587FDD6FBC750D587E76A7EE) := by decide +kernel
theorem test_pkdec_hybrid_prefix :
    let t := stepWord 0x260A200000410000 [bytes 256 65 (6 * 2 ^ 512 + gx * 2 ^ 256 + gy)]
    (status t) = (0x306) := by decide +kernel
/-- spec/43_ecdsa.md R261 by hand: e = 0, sk = k = 1 give r = Gx and s = 1 * (0 + Gx * 1). -/
theorem test_ecdsa_sign :
    let t := stepWord 0x300A041030000000 [put 2 1, put 3 1]
    (status t, slot t 5, slot t 6) = (0x1, gx, gx) := by decide +kernel
theorem test_ecdsa_sign_zero_s :
    let t := stepWord 0x300A041030000000 [put 1 (n - gx), put 2 1, put 3 1]
    (status t, slot t 5) = (0x106, 0) := by decide +kernel
/-- By hand, the signature of `test_ecdsa_sign`: w = Gx^-1, u1 = 0, u2 = 1, X = Q = G, whose x is r. -/
theorem test_ecdsa_verify_accepts :
    let t := stepWord 0x31002070C0000001 [put 12 gx, put 13 gx, put 14 gx, put 15 gy]
    (status t) = (0x11) := by decide +kernel
/-- By hand, n - Gx is above HALF: LOWS refuses it (spec/43_ecdsa.md R264). -/
theorem test_ecdsa_verify_refuses_high_s :
    let t := stepWord 0x31002070C0000001 [put 12 gx, put 13 (n - gx), put 14 gx, put 15 gy]
    (status t) = (0x1) := by decide +kernel
theorem test_sha256_init :
    let t := stepWord 0x4000000000000000 [put 1 (2 ^ 256 - 1)]
    (status t, slot t 0, slot t 1, slot t 3) =
    (0x1, 0x6A09E667BB67AE853C6EF372A54FF53A510E527F9B05688C1F83D9AB5BE0CD19, 0, 2 ^ 184) := by decide +kernel
theorem test_sha256_update :
    let t := stepWord 0x4100100000030000 [put 0 0x6A09E667BB67AE853C6EF372A54FF53A510E527F9B05688C1F83D9AB5BE0CD19, bytes 104 1 1, bytes 128 3 0x616263]
    (status t, slot t 0, slot t 1, slot t 3) =
    (0x1, 0x6A09E667BB67AE853C6EF372A54FF53A510E527F9B05688C1F83D9AB5BE0CD19, 0x616263 * 2 ^ 232, 3 * 2 ^ 192 + 2 ^ 184) := by decide +kernel
theorem test_sha256_update_uninitialised :
    let t := stepWord 0x4100100000030000 []
    (status t) = (0x406) := by decide +kernel
theorem test_sha256_final_empty :
    let t := stepWord 0x4210000000000000 [put 0 0x6A09E667BB67AE853C6EF372A54FF53A510E527F9B05688C1F83D9AB5BE0CD19, bytes 104 1 1]
    (status t, slot t 8, slot t 0, slot t 3) =
    (0x1, 0xE3B0C44298FC1C149AFBF4C8996FB92427AE41E4649B934CA495991B7852B855, 0, 2 ^ 185) := by decide +kernel
theorem test_sha256_final_abc :
    let t := stepWord 0x4210000000000000 [put 0 0x6A09E667BB67AE853C6EF372A54FF53A510E527F9B05688C1F83D9AB5BE0CD19, bytes 32 3 0x616263, bytes 103 2 0x0301]
    (status t, slot t 8) =
    (0x1, 0xBA7816BF8F01CFEA414140DE5DAE2223B00361A396177A9CB410FF61F20015AD) := by decide +kernel
theorem test_sha256_compress :
    let t := stepWord 0x4300080000000000 [put 0 0x6A09E667BB67AE853C6EF372A54FF53A510E527F9B05688C1F83D9AB5BE0CD19, bytes 64 4 0x61626380, bytes 127 1 0x18]
    (status t, slot t 0) =
    (0x1, 0xBA7816BF8F01CFEA414140DE5DAE2223B00361A396177A9CB410FF61F20015AD) := by decide +kernel
/-- Byte 201 of the context is byte 9 of slot 6. -/
theorem test_keccak_init :
    let t := stepWord 0x4400000000000000 [put 3 (2 ^ 256 - 1)]
    (status t, slot t 3, slot t 6) = (0x1, 0, 2 ^ 176) := by decide +kernel
theorem test_keccak_update_abc :
    let t := stepWord 0x4500200000030000 [bytes 201 1 1, bytes 256 3 0x616263]
    (status t, slot t 0, slot t 6) = (0x1, 0x616263 * 2 ^ 232, 3 * 2 ^ 184 + 2 ^ 176) := by decide +kernel
theorem test_keccak_update_position :
    let t := stepWord 0x4500200000000000 [bytes 200 2 0x8801]
    (status t) = (0x406) := by decide +kernel
theorem test_keccak_final_empty :
    let t := stepWord 0x460E000000000000 [bytes 201 1 1]
    (status t, slot t 7, slot t 0, slot t 6) =
    (0x1, 0xC5D2460186F7233C927E7DB2DCC703C0E500B653CA82273B7BFAD8045D85A470, 0, 2 ^ 177) := by decide +kernel
theorem test_keccak_final_abc :
    let t := stepWord 0x4610000000000000 [bytes 0 3 0x616263, bytes 200 2 0x0301]
    (status t, slot t 8) =
    (0x1, 0x4E03657AEA45A94FC7D47BA826C8D667C0D1E6E33A64A036EC44F58FA12D6C45) := by decide +kernel
theorem test_keccakf_zero :
    let t := stepWord 0x4700000790000000 []
    (status t, slot t 121) =
    (0x1, 0xE7DDE140798F25F18A47C033F9CCD584EEA95AA61E2698D54D49806F304715BD) := by decide +kernel
theorem test_keccakf_out_of_range :
    let t := stepWord 0x47000007A0000000 []
    (status t) = (0x606) := by decide +kernel
theorem test_b3_compress_abc :
    let t := stepWord 0x481C288120000000 [put 10 0x67E6096A85AE67BB72F36E3C3AF54FA57F520E518C68059BABD9831F19CDE05B, bytes 512 3 0x616263, bytes 584 2 0x030B]
    (status t, slot t 14, slot t 15) =
    (0x1, 0x6437B3AC38465133FFB63B75273A8DB548C558465D79DB03FD359C6CD5BD9D85, 0x1FB250AE7393F5D02813B65D521A0D492D9BA09CF7CE7F4CFFD900F23374BF0B) := by decide +kernel
theorem test_b3_compress_length :
    let t := stepWord 0x48102860B0000000 [bytes 360 1 0x41]
    (status t) = (0x306) := by decide +kernel
theorem test_chacha_qr :
    let t := stepWord 0x5006040000000000 [bytes 32 16 0x1111111104030201436F8D9B67452301]
    (status t, hex t 96 16) = (0x1, 0xF4922AEACEF81CCB2E478145BBC48158) := by decide +kernel
theorem test_chacha_block :
    let t := stepWord 0x5108000020000000 [put 2 0x000102030405060708090A0B0C0D0E0F101112131415161718191A1B1C1D1E1F, bytes 96 16 0x01000000000000090000004A00000000]
    (status t, slot t 4, slot t 5, hex t 96 4) =
    (0x1, 0x10F1E7E4D13B5915500FDD1FA32071C4C7D1F4C733C068030422AA9AC3D46C4E, 0xD2826446079FAA0914C2D705D98B02A2B5129CD1DE164EB9CBD083E8A2503C4E, 0x01000000) := by decide +kernel
/-- 95 §4, P4: the counter wraps to 0 and EXH, byte 48 of the context, is set. -/
theorem test_chacha_xor_last_counter :
    let t := stepWord 0x5238500180460000 [bytes 800 4 0xFEFFFFFF]
    (status t, hex t 896 70, hex t 800 32) =
    (0x1, 0x032CC123482C31711F94C941AF5AB1F4155784332ED5348FE79AEC5EAD4C06C3F13C280D8CC49925E4A6A5922EC80E13A4CDFA840C70A1427A3CB699166991A5ACE4CD09E294, 2 ^ 120) := by decide +kernel
theorem test_chacha_xor_exhausted :
    let t := stepWord 0x5208080000010000 [bytes 48 1 1]
    (status t) = (0x406) := by decide +kernel
theorem test_poly1305 :
    let t := stepWord 0x530C080010220000 [put 1 0x85D6BE7857556D337F4452FE42D506A80103808AFB0DB2FD4ABFF6AF4149F51B, bytes 64 34 0x43727970746F6772617068696320466F72756D2052657365617263682047726F7570]
    (status t, hex t 192 16) = (0x1, 0xA8061DC1305136C6C22B8BAF0C0127A9) := by decide +kernel
theorem test_poly1305_empty :
    let t := stepWord 0x530C080010000000 [put 1 0x85D6BE7857556D337F4452FE42D506A80103808AFB0DB2FD4ABFF6AF4149F51B]
    (status t, hex t 192 16) = (0x1, 0x0103808AFB0DB2FD4ABFF6AF4149F51B) := by decide +kernel
/-- 95 §1.2: ciphertext, then tag, then 5 bytes not written. -/
theorem test_aead_enc :
    let t := stepWord 0x54080C10000B0060 [bytes 64 6 0x686561646572, bytes 96 11 0x68656C6C6F206176696C61]
    (status t, hex t 128 32) =
    (0x1, 0xF7628BD23A71590CF1D6F683AA70BE65C35F0D399651ACE6AF75EC * 2 ^ 40) := by decide +kernel
theorem test_aead_dec :
    let t := stepWord 0x550C1010000B0060 [bytes 64 6 0x686561646572, bytes 128 27 0xF7628BD23A71590CF1D6F683AA70BE65C35F0D399651ACE6AF75EC]
    (status t, hex t 192 12) = (0x1, 0x68656C6C6F206176696C6100) := by decide +kernel
theorem test_aead_dec_wrong_tag :
    let t := stepWord 0x550C1010000B0060 [bytes 64 6 0x686561646572, bytes 128 27 0xF7628BD23A71590CF1D6F682AA70BE65C35F0D399651ACE6AF75EC]
    (status t, hex t 192 12) = (0x206, 0) := by decide +kernel

/-! ### Errors of the word, the last index, the host's view and reset -/

theorem test_illegal_word :
    let t := stepWord 0x1000041000010000 []
    (status t, t.pc.toNat, t.errpc.toNat) = (0x506, 0, 0) := by decide +kernel
/-- 95 §4, P5: NOP at index 255 halts with OVERRUN; END there wraps PC to 0. -/
theorem test_last_index :
    let t := after (exec .nop (running 255 []))
    let u := after (exec .endSeq (running 255 []))
    (status t, t.pc.toNat, t.errpc.toNat, status u, u.pc.toNat) = (0x706, 255, 255, 0x2, 0) := by decide +kernel
theorem test_host_reads_constants :
    ((hostRead State.reset 0x0000).toNat, (hostRead State.reset 0x0004).toNat, (hostRead State.reset 0x000C).toNat) =
    (0x565A4301, 0x01000080, 0) := by decide +kernel
/-- 95 §2.9: w0 = 7 in the DM window. -/
theorem test_dm_window :
    let s := { State.reset with dm := applyWrites [] [put 0 7] }
    ((hostRead s 0x1018).toNat, (hostRead s 0x101C).toNat, (hostRead { s with busy := true } 0x101C).toNat) =
    (0, 0x07000000, 0) := by decide +kernel
/-- 95 §2.9: CM[3] = 0x1606041000000000 in the CM window. -/
theorem test_cm_window :
    let s := { State.reset with cm := Memory.writeBytes [] 24 (leBytes 8 0x1606041000000000) }
    ((hostRead s 0x2018).toNat, (hostRead s 0x201C).toNat, (fetch { s with pc := 3 }).toNat) =
    (0, 0x16060410, 0x1606041000000000) := by decide +kernel
/-- A host's whole run (spec/40_sequencer.md R155): it writes CM[0] = END, START, lets the sequencer pass, reads STATUS. -/
theorem test_host_runs_end :
    let s := { State.reset with pending := [.write 0x2000 0xF 0, .write 0x2004 0xF 0x01000000, .write 0x0008 0xF 1,
      .pass, .read 0x000C] }
    let t := after (step (after (step (after (step (after (step (after (step s)))))))))
    (t.busData.toNat, t.pc.toNat, t.pending) = (2, 1, []) := by decide +kernel
/-- spec/20_memory.md R90: bits [1:0] of the offset are ignored. -/
theorem test_offset_low_bits :
    (hostWrite 0x1003 0x04030201 State.reset).dm = [(0, 1), (1, 2), (2, 3), (3, 4)] := by decide +kernel
theorem test_outside_aperture :
    (match step { State.reset with pending := [.read 0x4000] } with
      | .fault .outsideAperture => true | _ => false) = true := by decide +kernel
/-- spec/70_reset_and_hazards.md R471: a warm reset clears the registers, keeps CM and DM of an Idle core. -/
theorem test_warm_reset :
    let s := { haltError .domain 9 (running 9 [put 1 5]) with cm := [(0, 1)], c := true, doneie := true }
    let t := warmReset s
    (status t, t.pc.toNat, t.errpc.toNat, t.doneie.toNat, (t.cm.read 0).toNat, slot t 1) = (0, 0, 0, 0, 1, 5) := by
  decide +kernel
/-- spec/70_reset_and_hazards.md R472: what a reset cuts short is the whole of a listed region (a SHA-256 context, 4
slots), of a command out of range too (MUL to slot 127, as far as DM goes); a reserved opcode has no region. -/
theorem test_cut_short_regions :
    (cutShortRegions { State.reset with cm := State.reset.cm.writeBytes 0 (leBytes 8 0x41001000A00B0000) }).map
      (fun r => (r.start, r.size)) = [(320, 128)] ∧
    (cutShortRegions { State.reset with cm := State.reset.cm.writeBytes 0 (leBytes 8 0x12FE041000000000) }).map
      (fun r => (r.start, r.size)) = [(4064, 32)] ∧ cutShortRegions State.reset = [] := by decide +kernel
/-- spec/60_exceptions.md R439: START after an error runs the failing command again. -/
theorem test_restart :
    let t := start (haltError .domain 9 (running 9 []))
    (status t, t.pc.toNat, t.errpc.toNat) = (0x1, 9, 9) := by decide +kernel
/-- spec/45_keccak.md R313: the rho and pi steps as one gather, against the rule's scatter (B[y][2x+3y] from A[x][y]) on a
state whose 25 lanes are the numbers 0 to 24 shifted apart. -/
theorem test_rho_pi_scatter :
    let st : List W64 := (List.range 25).map fun i => BitVec.ofNat 64 (0x0123456789ABCDEF * (i + 1))
    (List.range 25).all (fun i => let x := i % 5; let y := i / 5
      lane (keccakRhoPi st) y (2 * x + 3 * y) ==
        (lane st x y).rotateLeft (rhoOffset x y)) = true := by decide +kernel
/-- The offsets of the table against the definition beneath it (spec/45_keccak.md R311): from `(1, 0)`, the `t`-th lane of
the walk `(x, y) <- (y, 2x + 3y mod 5)` is rotated by `(t+1)(t+2)/2 mod 64`. -/
theorem test_rho_offsets_walk :
    ((List.range 24).foldl (fun (w : Bool × Nat × Nat) t =>
      (w.1 && rhoOffset w.2.1 w.2.2 == (t + 1) * (t + 2) / 2 % 64, w.2.2, (2 * w.2.1 + 3 * w.2.2) % 5))
      (true, 1, 0)).1 = true ∧ rhoOffset 0 0 = 0 := by decide +kernel

/-! ### Witnesses: what meets the hypotheses of each obligation, clause by clause -/

/-- `Completed`, as a value the kernel computes. -/
def completedB (s t : State) : Bool :=
  decide (t.pc = s.pc + 1 ∧ t.errpc = s.errpc ∧ t.busy = s.busy ∧ t.done = s.done ∧ t.err = s.err ∧
    t.errcode = s.errcode ∧ t.cm = s.cm ∧ t.doneie = s.doneie ∧ t.inReset = s.inReset ∧ t.pending = s.pending ∧
    t.busData = s.busData ∧ t.freeCount = s.freeCount)

/-- `ErrorHalted`, as a value the kernel computes. -/
def haltedB (e : ErrCode) (s t : State) : Bool :=
  decide (t.errcode = e ∧ t.err = true ∧ t.errpc = s.pc ∧ t.v = false ∧ t.busy = false ∧ t.done = true ∧
    t.pc = s.pc ∧ t.dm = s.dm ∧ t.c = s.c ∧ t.cmp = s.cmp ∧ t.cm = s.cm ∧ t.doneie = s.doneie ∧
    t.inReset = s.inReset ∧ t.pending = s.pending ∧ t.busData = s.busData ∧ t.freeCount = s.freeCount)

/-- What a command leaves, for tests that know it answers a next state. -/
def then' (i : Instr) (s : State) : State := after (exec i s)

theorem completes {i : Instr} {s : State} (h : (isNext (exec i s) && completedB s (then' i s)) = true) :
    exec i s = .next (then' i s) ∧ Completed s (then' i s) := by
  simp only [Bool.and_eq_true] at h
  refine ⟨next_after h.1, ?_⟩
  have h2 := of_decide_eq_true h.2
  simpa only [Completed, SameSurroundings, and_assoc] using h2

theorem halts {e : ErrCode} {i : Instr} {s : State} (h : (isNext (exec i s) && haltedB e s (then' i s)) = true) :
    exec i s = .next (then' i s) ∧ ErrorHalted e s (then' i s) := by
  simp only [Bool.and_eq_true] at h
  refine ⟨next_after h.1, ?_⟩
  have h2 := of_decide_eq_true h.2
  simpa only [ErrorHalted, SameSurroundings, and_assoc] using h2

theorem reset_inv : State.reset.Inv := by unfold State.Inv; decide +kernel

theorem witness_DecodeOfEncode :
    (Instr.ldc 127 4).wellFormed = true ∧ (Instr.aeadDec 127 127 127 127 4095 4095).wellFormed = true := by decide
theorem witness_EncodeOfDecode :
    decode 0x55FFFFFFFFFFFFF0 = .ok (.aeadDec 127 127 127 127 4095 4095) ∧
    decode 0x0300000000040000 = .ok (.ldc 0 4) := by decide +kernel
/-- One word for each of the four clauses, at the nearest values. -/
theorem witness_IllegalWords :
    (0x5600000000000000 : CmdWord).toNat / 2 ^ 56 = 0x56 ∧ (0x0400000000000000 : CmdWord).toNat / 2 ^ 56 = 0x04 ∧
    2 ≤ (0x2500000000000002 : CmdWord).toNat % 16 ∧ (0x2400000000000001 : CmdWord).toNat % 2 = 1 ∧
    (0x2400000000000001 : CmdWord).toNat / 2 ^ 56 = 0x24 ∧ (0x0300000000050000 : CmdWord).toNat / 2 ^ 56 = 0x03 ∧
    4 < (0x0300000000050000 : CmdWord).toNat / 2 ^ 16 % 4096 := by decide +kernel

/-- A Running state about to run a word. -/
def loaded (word : Nat) (ws : List Write) : State :=
  { State.reset with dm := applyWrites [] ws }.withFetchWord 64 word

theorem witness_StepRunsTheDecodedCommand :
    (loaded 0x1006041000000000 []).busy = true ∧ decode (fetch (loaded 0x1006041000000000 [])) = .ok (.add 3 1 2) ∧
    (loaded 0x1006041000000000 []).pending = [] ∧
    { loaded 0x1006041000000000 [] with pending := [.pass, .warmReset] }.pending = .pass :: [.warmReset] ∧
    State.reset.busy = false ∧ State.reset.pending = [] := by decide +kernel
theorem witness_IllegalWordHalts :
    (loaded 0x0400000000000000 []).busy = true ∧ (loaded 0x0400000000000000 []).pending = [] ∧
    decode (fetch (loaded 0x0400000000000000 [])) = .error .reservedOpcode := by decide +kernel
/-- A command of the sequencer, and a reset that cuts a command short. -/
theorem witness_StepKeepsTheInvariant :
    (loaded 0x1006041000000000 []).Inv ∧ isNext (step (loaded 0x1006041000000000 [])) = true ∧
    { loaded 0x1006041000000000 [] with pending := [.warmReset] }.Inv ∧
    isNext (step { loaded 0x1006041000000000 [] with pending := [.warmReset] }) = true := by
  unfold State.Inv; decide +kernel
theorem witness_ResetValues :
    (∃ t, t = warmReset (running 3 [put 1 5])) ∧ ∃ t, t = powerOnReset [1, 2] [3] (running 3 []) :=
  ⟨⟨_, rfl⟩, ⟨_, rfl⟩⟩
/-- Lengths, an Idle core, and in progress: ADD, MUL to slot 127 (out of range), LDC of index 5 (ILLEGAL), each with
bytes in and out of its regions, the last byte of DM among them; a reserved opcode. -/
theorem witness_ResetMemories :
    (zeros 4096).length = 4096 ∧ (zeros 2048).length = 2048 ∧ State.reset.busy = false ∧
    ((loaded 0x1006041000000000 []).busy = true ∧
      namedCommand (fetch (loaded 0x1006041000000000 [])) = some (.add 3 1 2) ∧
      (listedWriteRegions (.add 3 1 2)).map (fun r => (r.has 95, r.has 96, r.has 127, r.has 128)) =
        [(false, true, true, false)]) ∧
    ((loaded 0x12FE041000000000 []).busy = true ∧
      namedCommand (fetch (loaded 0x12FE041000000000 [])) = some (.mul 127 1 2) ∧
      (listedWriteRegions (.mul 127 1 2)).map (fun r => (r.has 4063, r.has 4064, r.has 4095)) =
        [(false, true, true)]) ∧
    ((loaded 0x030A000000050000 []).busy = true ∧
      namedCommand (fetch (loaded 0x030A000000050000 [])) = some (.ldc 5 5)) ∧
    namedCommand (fetch (loaded 0 [])) = none ∧ decode 0x1006041000000000 = .ok (.add 3 1 2) :=
  ⟨List.length_replicate .., List.length_replicate .., by decide +kernel⟩
/-- A run with no input, and one at the last index with a read, a write and a `pass` waiting, each at an edge of the
aperture. -/
theorem witness_EveryRunHalts :
    (running 0 []).busy = true ∧ (running 0 []).pending = [] ∧ (running 255 []).busy = true ∧
    ∀ x ∈ { running 255 [] with pending := [.read 0x3FFF, .write 0 0xF 1, .pass] }.pending,
      x ≠ .warmReset ∧ (∀ dmInit cmInit, x ≠ .powerOnReset dmInit cmInit) ∧
      (∀ offset, x = .read offset → offset < 0x4000) ∧
      (∀ offset lanes data, x = .write offset lanes data → offset < 0x4000) := by
  refine ⟨by decide, by decide, by decide, fun x hx => ?_⟩
  change x ∈ [Input.read 0x3FFF, .write 0 0xF 1, .pass] at hx
  simp only [List.mem_cons, List.not_mem_nil, or_false] at hx
  rcases hx with rfl | rfl | rfl <;> simp
/-- States that agree in DM alone, PC at 0, at 254 and at 255 (twice): a command that completes, and one that halts. -/
theorem witness_CommandsArePure :
    let s := running 0 [put 1 5]
    let s' := { s with pc := 254, cm := [(7, 1)], c := true, v := true, cmp := .less, doneie := true }
    let u := { s with pc := 255 }
    let u' := { s' with pc := 255 }
    s.dm = s'.dm ∧ s.dm = u.dm ∧ u.dm = u'.dm ∧ (s.pc = 255 ↔ s'.pc = 255) ∧ (u.pc = 255 ↔ u'.pc = 255) ∧ u.pc = u'.pc ∧
    isNext (exec (.add 3 1 2) s) = true ∧ isNext (exec (.add 3 1 2) s') = true ∧
    isNext (exec (.add 3 1 2) u) = true ∧ isNext (exec (.add 3 1 2) u') = true ∧
    haltedB .domain s (then' (.modadd 3 1 2 4) s) = true ∧ haltedB .domain s' (then' (.modadd 3 1 2 4) s') = true ∧
    ErrCode.domain ≠ .overrun := by
  decide +kernel
/-- A command that writes no flag, the four that write one, and one that sets ERR. -/
theorem witness_FlagWriters :
    isNext (exec (.mul 3 1 2) (running 254 [])) = true ∧ isNext (exec (.add 3 1 2) (running 254 [])) = true ∧
    isNext (exec (.sub 3 1 2) (running 255 [])) = true ∧ isNext (exec (.cmp 1 2) (running 0 [put 1 5])) = true ∧
    (running 0 []).err = false ∧ (then' (.modadd 3 1 2 4) (running 0 [])).err = true := by decide +kernel
theorem witness_FlagWriters_verdicts :
    (∃ t, exec (.ecchk 126) (running 254 []) = .next t ∧ Completed (running 254 []) t) ∧
    ∃ t, exec (.ecdsaVerify 8 14 12 true) (running 0 [put 12 gx, put 13 (n - gx), put 14 gx, put 15 gy]) = .next t ∧
      Completed (running 0 [put 12 gx, put 13 (n - gx), put 14 gx, put 15 gy]) t :=
  ⟨⟨_, completes (by decide +kernel)⟩, ⟨_, completes (by decide +kernel)⟩⟩
theorem witness_OverrunAfterTheCommit :
    Instr.add 3 1 2 ≠ .endSeq ∧ (running 254 []).pc ≠ 255 ∧
    ∃ t, exec (.add 3 1 2) (running 254 []) = .next t ∧ Completed (running 254 []) t :=
  ⟨by decide, by decide, _, completes (by decide +kernel)⟩
/-- On each side of the edge: MUL at 127 and 126, an appended tag one byte too far, a byte string ending at byte 4095. -/
theorem witness_RangeCheck :
    regionsInRange (.mul 127 1 2) = false ∧ regionsInRange (.mul 126 1 2) = true ∧
    regionsInRange (.aeadDec 0 127 0 0 17 0) = false ∧ regionsInRange (.aeadDec 0 127 0 0 16 0) = true ∧
    regionsInRange (.pkdec 5 127 33) = false ∧ regionsInRange (.poly1305 0 127 0 32) = true := by decide
/-- CTRL at its first and last byte offset, and a data word for each clause. -/
theorem witness_ControlRegister :
    8 / 4 = 2 ∧ 11 / 4 = 2 ∧ State.reset.inReset = false ∧ (running 0 []).busy = true ∧
    { running 0 [] with pending := [.write 11 0xF 1] }.pending = .write 11 0xF 1 :: [] ∧ State.reset.busy = false ∧
    (3 : HostWord).getLsbD 0 = true ∧ (2 : HostWord).getLsbD 0 = false ∧ (2 : HostWord).getLsbD 1 = true ∧
    (0xFFFFFFFC : HostWord).getLsbD 0 = false ∧ (0xFFFFFFFC : HostWord).getLsbD 1 = false := by decide
theorem witness_DmWindow :
    0 < 1024 ∧ 1023 < 1024 ∧ State.reset.inReset = false ∧ State.reset.busy = false ∧
    (running 0 []).inReset = false ∧ (running 0 []).busy = true := by decide
theorem witness_CmWindow :
    State.reset.inReset = false ∧ State.reset.busy = false ∧ (running 0 []).inReset = false ∧
    (running 0 []).busy = true ∧ (254 : BitVec 8) ≠ 255 := by decide
theorem witness_IdentificationAndStatus :
    State.reset.inReset = false ∧ 0 / 4 ∈ [0, 1, 3, 5] ∧ 7 / 4 ∈ [0, 1, 3, 5] ∧ 15 / 4 ∈ [0, 1, 3, 5] ∧
    23 / 4 ∈ [0, 1, 3, 5] := by decide
/-- The first and last reserved offsets of both gaps; the last offset of the aperture, and of CM. -/
theorem witness_ReservedOffsetsAndReads :
    (0x1C ≤ 0x1C ∧ 0x1C < 0x1000) ∧ (0x1C ≤ 0xFFF ∧ 0xFFF < 0x1000) ∧ (0x2800 ≤ 0x2800 ∧ 0x2800 < 0x4000) ∧
    (0x2800 ≤ 0x3FFF ∧ 0x3FFF < 0x4000) ∧
    { State.reset with pending := [.read 0x3FFF] }.pending = .read 0x3FFF :: [] ∧
    0x27FF < 0x4000 ∧ { State.reset with pending := [.write 0x27FF 0xF 5] }.pending = .write 0x27FF 0xF 5 :: [] := by
  decide
theorem witness_PcAndIrqenRegisters :
    State.reset.inReset = false ∧ State.reset.busy = false ∧ (running 255 []).inReset = false ∧
    (running 255 []).busy = true := by decide
/-- A run's end by END, by an error, by OVERRUN, and by an undecodable word, this one as a step; a START, an ACK, and a
clearing of DONEIE. -/
theorem witness_InterruptLine :
    (running 0 []).busy = true ∧ isNext (exec .endSeq (running 0 [])) = true ∧
    (then' .endSeq (running 0 [])).busy = false ∧ (then' (.ldc 0 5) (running 0 [])).busy = false ∧
    (then' .nop (running 255 [])).busy = false ∧
    (loaded 0 []).busy = true ∧ (loaded 0 []).pending = [] ∧ decode (fetch (loaded 0 [])) = .error .reservedOpcode ∧
    isNext (step (loaded 0 [])) = true ∧ (after (step (loaded 0 []))).busy = false ∧
    State.reset.inReset = false ∧ State.reset.busy = false ∧
    (1 : HostWord).getLsbD 0 = true ∧ (2 : HostWord).getLsbD 1 = true ∧ (2 : HostWord).getLsbD 0 = false := by
  decide +kernel
/-- A high line that each step of the statement's last clause but one lowers: a reset, an ACK, a clearing of DONEIE. -/
theorem witness_InterruptLine_lowered :
    let s := { State.reset with done := true, doneie := true }
    irq s = true ∧ ∀ x ∈ [Input.warmReset, .powerOnReset [] [], .write 0x0008 0xF 2, .write 0x0018 0xF 0],
      isNext (step { s with pending := [x] }) = true ∧ irq (after (step { s with pending := [x] })) = false := by
  decide +kernel
/-- MODADD with m = 0 halts with DOMAIN; with m corrected to 7 it completes. -/
theorem witness_RecoveryByStart :
    (∃ t, exec (.modadd 3 1 2 0) (running 254 [put 1 5]) = .next t ∧ ErrorHalted .domain (running 254 [put 1 5]) t) ∧
    ∃ u, exec (.modadd 3 1 2 0) { running 254 [put 1 5] with dm := applyWrites [] [put 0 7] } = .next u ∧
      Completed { running 254 [put 1 5] with dm := applyWrites [] [put 0 7] } u :=
  ⟨⟨_, halts (by decide +kernel)⟩, ⟨_, completes (by decide +kernel)⟩⟩
/-- The last byte of the window, with only its last lane enabled. -/
theorem witness_ByteLanes :
    1023 < 1024 ∧ 3 < 4 ∧ State.reset.inReset = false ∧ State.reset.busy = false ∧
    { State.reset with pending := [.write (0x1000 + 4 * 1023 + 3) 0b1000 0xAB000000] }.pending =
      .write (0x1000 + 4 * 1023 + 3) 0b1000 0xAB000000 :: [] ∧ (0b1000 : BitVec 4).getLsbD 3 = true ∧
    (0b1000 : BitVec 4).getLsbD 0 = false ∧ (0b1000 : BitVec 4).getLsbD 2 = false := by decide
/-- PC on each side of the last index, for this and every statement with `pc ≠ 255`. -/
theorem witness_EndAndNop : (running 254 []).pc ≠ 255 ∧ (running 0 []).pc ≠ 255 ∧ (running 255 []).pc = 255 := by
  decide
theorem witness_LdcLoadsTheConstant :
    (0 : Len).toNat ≤ 4 ∧ (4 : Len).toNat ≤ 4 ∧ (running 254 []).pc ≠ 255 ∧ 4 < (5 : Len).toNat ∧
    4 < (4095 : Len).toNat := by decide
theorem witness_AddWritesSumAndCarry : (running 254 [put 1 (2 ^ 256 - 1), put 2 1]).pc ≠ 255 := by decide
theorem witness_SubWritesDifferenceAndBorrow : (running 254 [put 2 1]).pc ≠ 255 := by decide
theorem witness_MulWritesTheProduct :
    (126 : Slot).toNat ≤ 126 ∧ (running 254 []).pc ≠ 255 ∧ (127 : Slot).toNat = 127 := by decide
/-- The three orders of the operands. -/
theorem witness_CmpWritesTheComparison :
    let s := running 254 [put 1 5, put 2 7, put 3 5]
    s.pc ≠ 255 ∧ slotValue s 1 = slotValue s 3 ∧ slotValue s 1 < slotValue s 2 ∧ slotValue s 3 < slotValue s 2 := by
  decide +kernel
/-- m = 0, and m at its least and greatest. -/
theorem witness_ModularArithmetic :
    let s := running 254 [put 1 1, put 2 (2 ^ 256 - 1)]
    slotValue s 0 = 0 ∧ slotValue s 1 ≠ 0 ∧ slotValue s 2 ≠ 0 ∧ s.pc ≠ 255 := by decide +kernel
/-- Even moduli 0 and 8; odd moduli 1 and `2^256 - 1`. -/
theorem witness_MontgomeryCommands :
    let s := running 254 [put 1 1, put 2 (2 ^ 256 - 1), put 3 8]
    slotValue s 0 % 2 = 0 ∧ slotValue s 3 % 2 = 0 ∧ slotValue s 1 % 2 = 1 ∧ slotValue s 2 % 2 = 1 ∧ s.pc ≠ 255 := by
  decide +kernel
theorem witness_ModexpIsThePower :
    let s := running 254 [put 1 1]
    slotValue s 0 = 0 ∧ slotValue s 1 ≠ 0 ∧ s.pc ≠ 255 := by decide +kernel
theorem witness_GcdIsTheGreatestCommonDivisor :
    let s := running 254 [put 1 48, put 2 18]
    s.pc ≠ 255 ∧ 6 ∣ slotValue s 1 ∧ 6 ∣ slotValue s 2 := by decide +kernel
theorem witness_SteinComputesTheGcd : 0 < 2 ^ 256 ∧ 2 ^ 256 - 1 < 2 ^ 256 := by decide +kernel
/-- m = 1; m = 15 where the Fermat form is no inverse; m = 2 and 7 where it is. -/
theorem witness_ModinvIsTheFermatInverse :
    let s := running 254 [put 1 1, put 2 2, put 3 3, put 7 7, put 15 15]
    slotValue s 1 < 2 ∧ 2 ≤ slotValue s 15 ∧
    slotValue s 2 * (slotValue s 2 ^ (slotValue s 15 - 2) % slotValue s 15) % slotValue s 15 ≠ 1 ∧
    2 ≤ slotValue s 2 ∧ slotValue s 3 * (slotValue s 3 ^ (slotValue s 2 - 2) % slotValue s 2) % slotValue s 2 = 1 ∧
    slotValue s 3 * (slotValue s 3 ^ (slotValue s 7 - 2) % slotValue s 7) % slotValue s 7 = 1 ∧ s.pc ≠ 255 := by
  decide +kernel
/-- m = 1; a factor in common; m = 2, and the composite 15, with a unit. -/
theorem witness_ModinvvtIsTheInverse :
    let s := running 254 [put 1 1, put 2 2, put 3 3, put 15 15]
    slotValue s 1 < 2 ∧ Nat.gcd (slotValue s 3 % slotValue s 15) (slotValue s 15) ≠ 1 ∧ 2 ≤ slotValue s 2 ∧
    Nat.gcd (slotValue s 3 % slotValue s 2) (slotValue s 2) = 1 ∧
    Nat.gcd (slotValue s 2 % slotValue s 15) (slotValue s 15) = 1 ∧ s.pc ≠ 255 := by decide +kernel
/-- ADD with a carry, then a state that holds its result and its second operand: the state it left. -/
theorem witness_ArithmeticLaws_add :
    let s := running 0 [put 1 (2 ^ 256 - 1), put 2 1]
    ∃ t, exec (.add 3 1 2) s = .next t ∧ Completed s t ∧ slotValue t 2 = slotValue s 2 ∧ t.pc ≠ 255 :=
  ⟨_, (completes (by decide +kernel)).1, (completes (by decide +kernel)).2, by decide +kernel, by decide +kernel⟩
/-- m = 7: 3 and 5 into Montgomery form, their product, and a state that holds it. -/
theorem witness_ArithmeticLaws_montgomery :
    let s1 := running 0 [put 0 7, put 1 3]
    let s2 := running 0 [put 0 7, put 2 5]
    ∃ t1 t2 t3, slotValue s1 0 % 2 = 1 ∧ slotValue s2 0 = slotValue s1 0 ∧ slotValue s1 1 < slotValue s1 0 ∧
      slotValue s2 2 < slotValue s1 0 ∧ exec (.montin 3 1 0) s1 = .next t1 ∧ Completed s1 t1 ∧
      exec (.montin 3 2 0) s2 = .next t2 ∧ Completed s2 t2 ∧
      slotValue (running 0 [put 0 7, put 1 6, put 2 3]) 1 = slotValue t1 3 ∧
      slotValue (running 0 [put 0 7, put 1 6, put 2 3]) 2 = slotValue t2 3 ∧
      slotValue (running 0 [put 0 7, put 1 6, put 2 3]) 0 = slotValue s1 0 ∧
      exec (.montmul 3 1 2 0) (running 0 [put 0 7, put 1 6, put 2 3]) = .next t3 ∧
      Completed (running 0 [put 0 7, put 1 6, put 2 3]) t3 ∧
      slotValue (running 254 [put 0 7, put 1 2]) 1 = slotValue t3 3 ∧
      slotValue (running 254 [put 0 7, put 1 2]) 0 = slotValue s1 0 ∧ (running 254 [put 0 7, put 1 2]).pc ≠ 255 :=
  ⟨_, _, _, by decide +kernel, by decide +kernel, by decide +kernel, by decide +kernel,
    (completes (by decide +kernel)).1, (completes (by decide +kernel)).2, (completes (by decide +kernel)).1,
    (completes (by decide +kernel)).2, by decide +kernel, by decide +kernel, by decide +kernel,
    (completes (by decide +kernel)).1, (completes (by decide +kernel)).2, by decide +kernel, by decide +kernel,
    by decide +kernel⟩
/-- Valid operands G and O; an x equal to p, a point off the curve. -/
theorem witness_PointAdderAndDoubler :
    let s := running 254 [put 1 gx, put 2 gy, put 5 p, put 6 gy, put 125 gx, put 126 (gy + 1)]
    (126 : Slot).toNat ≤ 126 ∧ ValidOperand (slotValue s 1) (nextSlotValue s 1) ∧
    ValidOperand (slotValue s 8) (nextSlotValue s 8) ∧ ¬ValidOperand (slotValue s 5) (nextSlotValue s 5) ∧
    ¬ValidOperand (slotValue s 125) (nextSlotValue s 125) ∧ s.pc ≠ 255 := by
  unfold ValidOperand AffineOnCurve; decide +kernel
theorem witness_ScalarMultipliers :
    let s := running 254 [put 1 gx, put 2 gy, put 3 (2 ^ 256 - 1), put 125 p]
    (126 : Slot).toNat ≤ 126 ∧ ValidOperand (slotValue s 1) (nextSlotValue s 1) ∧
    ValidOperand (slotValue s 8) (nextSlotValue s 8) ∧ ¬ValidOperand (slotValue s 125) (nextSlotValue s 125) ∧
    s.pc ≠ 255 := by
  unfold ValidOperand AffineOnCurve; decide +kernel
theorem witness_LadderSmallMultiples :
    0 % secN = 0 ∧ secN % secN = 0 ∧ 1 % secN = 1 ∧ (secN + 1) % secN = 1 ∧ 2 % secN = 2 ∧ (secN + 2) % secN = 2 ∧
    3 % secN = 3 ∧ (secN + 3) % secN = 3 := by decide +kernel
theorem witness_EcchkWritesTheVerdict :
    (126 : Slot).toNat ≤ 126 ∧ (running 254 []).pc ≠ 255 ∧ (127 : Slot).toNat = 127 := by decide
/-- G, O, and an x equal to p; D = 126 compressed and D = 125 not. -/
theorem witness_PkencWritesTheEncoding :
    let s := running 254 [put 1 gx, put 2 gy, put 125 p]
    (126 : Slot).toNat ≤ 126 ∧ 32 * (126 : Slot).toNat + (if true then 33 else 65) ≤ 4096 ∧
    32 * (125 : Slot).toNat + (if false then 33 else 65) ≤ 4096 ∧
    AffineOnCurve (slotValue s 1) (nextSlotValue s 1) ∧ ¬AffineOnCurve (slotValue s 8) (nextSlotValue s 8) ∧
    ¬AffineOnCurve (slotValue s 125) (nextSlotValue s 125) ∧ s.pc ≠ 255 := by
  unfold AffineOnCurve; decide +kernel
/-- Lengths 32 at the last slot, 33 and 65; prefixes wrong and right; uncompressed points on and off the curve. -/
theorem witness_PkdecReadsTheEncoding :
    let s := running 254 [bytes 256 1 4, bytes 320 1 2, bytes 384 1 3,
      bytes 512 65 (4 * 2 ^ 512 + gx * 2 ^ 256 + gy), bytes 640 65 (4 * 2 ^ 512 + gx * 2 ^ 256 + gy + 1)]
    32 * (127 : Slot).toNat + (32 : Len).toNat ≤ 4096 ∧ 32 * (126 : Slot).toNat + (33 : Len).toNat ≤ 4096 ∧
    32 * (125 : Slot).toNat + (65 : Len).toNat ≤ 4096 ∧ (126 : Slot).toNat ≤ 126 ∧
    (32 : Len).toNat ≠ 33 ∧ (32 : Len).toNat ≠ 65 ∧ (33 : Len).toNat = 33 ∧ (65 : Len).toNat = 65 ∧
    s.dm.read 256 ≠ 2 ∧ s.dm.read 256 ≠ 3 ∧ s.dm.read 320 ≠ 4 ∧ s.dm.read 512 = 4 ∧ s.dm.read 640 = 4 ∧
    AffineOnCurve (be (memRead s 513 32)) (be (memRead s 545 32)) ∧
    ¬AffineOnCurve (be (memRead s 641 32)) (be (memRead s 673 32)) ∧ s.dm.read 320 = 2 ∧ s.dm.read 384 = 3 ∧
    s.pc ≠ 255 := by
  unfold AffineOnCurve; decide +kernel
/-- An x with `x^3 + 7 = 1` modulo p, so that alpha and beta are 1. -/
def rootOfOne : Nat := 0x1FE1E5EF3FCEB5C135AB7741333CE5A6E80D68167653F6B2B24BCBCFAAAFF507

theorem one_pow_mod {m : Nat} (k : Nat) (h : 1 < m) : 1 = 1 ^ k % m := by rw [Nat.one_pow, Nat.mod_eq_of_lt h]

theorem witness_PkdecReadsTheEncoding_root :
    ∃ s x alpha beta, s = running 254 [bytes 256 33 (2 * 2 ^ 256 + rootOfOne)] ∧ s.dm.read 256 = 2 ∧
      x = be (memRead s 257 32) ∧ alpha = (x ^ 3 + 7) % secP ∧ beta = alpha ^ ((secP + 1) / 4) % secP ∧ x < secP ∧
      beta ^ 2 % secP = alpha :=
  ⟨_, rootOfOne, 1, 1, rfl, by decide +kernel, by decide +kernel, by decide +kernel,
    one_pow_mod _ (by decide +kernel), by decide +kernel, by decide +kernel⟩

/-- A number other than 1 whose square is 1 is not the square of any of its own powers. -/
theorem no_own_root {a m : Nat} (k : Nat) (h : a ^ 2 % m = 1) (hm : 1 < m) (ha : a ≠ 1) :
    (a ^ k % m) ^ 2 % m ≠ a := by
  rw [← Nat.pow_mod, ← Nat.pow_mul, Nat.mul_comm, Nat.pow_mul, Nat.pow_mod, h, Nat.one_pow, Nat.mod_eq_of_lt hm]
  exact Ne.symm ha

/-- `x = p - 2`: `alpha = -8 + 7 = -1`, no square; and an x equal to p. -/
theorem witness_PkdecReadsTheEncoding_no_root :
    ∃ s x alpha beta, s = running 254 [bytes 256 33 (3 * 2 ^ 256 + (p - 2)), bytes 320 33 (3 * 2 ^ 256 + p)] ∧
      s.dm.read 256 = 3 ∧ x = be (memRead s 257 32) ∧ alpha = (x ^ 3 + 7) % secP ∧
      beta = alpha ^ ((secP + 1) / 4) % secP ∧ x < secP ∧ beta ^ 2 % secP ≠ alpha ∧ s.dm.read 320 = 3 ∧
      secP ≤ be (memRead s 321 32) :=
  ⟨_, p - 2, p - 1, _, rfl, by decide +kernel, by decide +kernel, by decide +kernel, rfl, by decide +kernel,
    no_own_root _ (by decide +kernel) (by decide +kernel) (by decide +kernel), by decide +kernel, by decide +kernel⟩

/-- G encoded into the last place it fits, and read back from there. -/
theorem witness_PointCodecRoundTrip :
    let s := running 0 [put 1 gx, put 2 gy]
    ∃ t, exec (.pkenc 125 1 false) s = .next t ∧ Completed s t ∧
      memRead t (slotAddr 125) 65 = memRead t (slotAddr 125) 65 ∧ 32 * (125 : Slot).toNat + 65 ≤ 4096 ∧
      (126 : Slot).toNat ≤ 126 ∧ t.pc ≠ 255 :=
  ⟨_, (completes (by decide +kernel)).1, (completes (by decide +kernel)).2, rfl, by decide, by decide, by decide +kernel⟩
/-- Keys and nonces 0 and n; a nonce n, whose r is 0; D at its last place. -/
theorem witness_EcdsaSign :
    let s := running 254 [put 3 n]
    slotValue s 0 = 0 ∧ secN ≤ slotValue s 3 ∧ (126 : Slot).toNat ≤ 126 ∧ s.pc ≠ 255 ∧
    pointX (scalarMul (slotValue s 3) basePoint) % secN = 0 := by decide +kernel

theorem signature_of_one {v m x y : Nat} (k : Nat) (hv : v = 1) (hm : 1 < m) (h : x = y % m) : x = v ^ k % m * y % m := by
  rw [hv, Nat.one_pow, Nat.mod_eq_of_lt hm, Nat.one_mul, h]

/-- Nonce 1 and key 1: the digest `n - Gx` makes s zero, the digest 0 does not. -/
theorem witness_EcdsaSign_nonce :
    ∃ s r x x', s = running 254 [put 1 (n - gx), put 2 1] ∧ r = pointX (scalarMul (slotValue s 2) basePoint) % secN ∧
      x = slotValue s 2 ^ (secN - 2) % secN * (slotValue s 1 + r * slotValue s 2) % secN ∧ x = 0 ∧
      x' = slotValue s 2 ^ (secN - 2) % secN * (slotValue s 0 + r * slotValue s 2) % secN ∧ slotValue s 2 ≠ 0 ∧
      slotValue s 2 < secN ∧ r ≠ 0 ∧ x' ≠ 0 ∧ s.pc ≠ 255 :=
  ⟨_, gx, 0, gx, rfl, by decide +kernel, signature_of_one _ (by decide +kernel) (by decide +kernel) (by decide +kernel),
    rfl, signature_of_one _ (by decide +kernel) (by decide +kernel) (by decide +kernel), by decide +kernel,
    by decide +kernel, by decide +kernel, by decide +kernel, by decide +kernel⟩
/-- Components 0, n and n - 1; keys O, off the curve, and G. -/
theorem witness_EcdsaVerify :
    let s := running 254 [put 1 n, put 2 (n - 1), put 3 1, put 4 gx, put 5 gy, put 6 gx, put 7 (gy + 1)]
    (126 : Slot).toNat ≤ 126 ∧ slotValue s 0 = 0 ∧ secN ≤ slotValue s 1 ∧ nextSlotValue s 127 = 0 ∧
    secN ≤ nextSlotValue s 0 ∧ ¬AffineOnCurve (slotValue s 8) (nextSlotValue s 8) ∧
    ¬AffineOnCurve (slotValue s 6) (nextSlotValue s 6) ∧ slotValue s 2 ≠ 0 ∧ slotValue s 2 < secN ∧
    nextSlotValue s 2 ≠ 0 ∧ nextSlotValue s 2 < secN ∧ AffineOnCurve (slotValue s 4) (nextSlotValue s 4) ∧
    s.pc ≠ 255 := by
  unfold AffineOnCurve; decide +kernel
theorem witness_ShaInitAndCompress :
    (124 : Slot).toNat ≤ 124 ∧ 125 ≤ (125 : Slot).toNat ∧ (126 : Slot).toNat ≤ 126 ∧ (running 254 []).pc ≠ 255 := by
  decide
/-- Contexts not Active (tag 0), Active at the last counts below the limit, and at it. -/
theorem witness_ShaUpdateAndFinal :
    let s := running 254 [bytes 104 1 1, bytes (128 + 96) 9 ((2 ^ 61 - 1) * 256 + 1),
      bytes (256 + 96) 9 (2 ^ 61 * 256 + 1)]
    (124 : Slot).toNat ≤ 124 ∧ 32 * (127 : Slot).toNat + (32 : Len).toNat ≤ 4096 ∧ s.pc ≠ 255 ∧
    byteAt (memRead s (slotAddr 124) 128) 104 ≠ 1 ∧ byteAt (memRead s (slotAddr 0) 128) 104 = 1 ∧
    shaCount (memRead s (slotAddr 0) 128) + (4095 : Len).toNat < 2 ^ 61 ∧
    byteAt (memRead s (slotAddr 4) 128) 104 = 1 ∧ shaCount (memRead s (slotAddr 4) 128) + (0 : Len).toNat < 2 ^ 61 ∧
    2 ^ 61 ≤ shaCount (memRead s (slotAddr 4) 128) + (1 : Len).toNat ∧
    2 ^ 61 ≤ shaCount (memRead s (slotAddr 8) 128) ∧ (slotsAt 8 1).has (slotAddr 0 + 104) = false := by
  decide +kernel
/-- A context made at slot 0 and fed "abc" from slot 4. -/
theorem witness_ShaStreamingIsOneShot :
    ∃ (s : State) (message : List Byte),
      Fed (.sha256Init 0) (fun a l1 => .sha256Update a 0 l1) 0 128 s message ∧ message = [0x61, 0x62, 0x63] ∧
      message.length < 2 ^ 61 ∧ s.pc ≠ 255 := by
  have h0 : Completed (running 0 [bytes 128 3 0x616263]) (then' (.sha256Init 0) (running 0 [bytes 128 3 0x616263])) :=
    (completes (by decide +kernel)).2
  have h1 := completes (i := .sha256Update 4 0 3)
    (s := then' (.sha256Init 0) (running 0 [bytes 128 3 0x616263])) (by decide +kernel)
  exact ⟨_, _, .piece _ _ _ _ 4 3 (.made _ _ _ (completes (by decide +kernel)).1 h0 rfl) h1.1 h1.2 rfl,
    by decide +kernel, by decide +kernel, by decide +kernel⟩
theorem witness_KeccakInitAndPermutation :
    (121 : Slot).toNat ≤ 121 ∧ 122 ≤ (122 : Slot).toNat ∧ (running 254 []).pc ≠ 255 := by decide
/-- Contexts not Active, Active at positions 0 and 135, and at 136. -/
theorem witness_KeccakUpdateAndFinal :
    let s := running 254 [bytes 201 1 1, bytes (224 + 200) 2 0x8701, bytes (448 + 200) 2 0x8801]
    (121 : Slot).toNat ≤ 121 ∧ 32 * (127 : Slot).toNat + (32 : Len).toNat ≤ 4096 ∧ s.pc ≠ 255 ∧
    byteAt (memRead s (slotAddr 121) 224) 201 ≠ 1 ∧ byteAt (memRead s (slotAddr 0) 224) 201 = 1 ∧
    keccakPos (memRead s (slotAddr 0) 224) < 136 ∧ byteAt (memRead s (slotAddr 7) 224) 201 = 1 ∧
    keccakPos (memRead s (slotAddr 7) 224) < 136 ∧ 136 ≤ keccakPos (memRead s (slotAddr 14) 224) ∧
    (slotsAt 7 1).has (slotAddr 0 + 201) = false := by decide +kernel
theorem witness_KeccakStreamingIsOneShot :
    ∃ (s : State) (message : List Byte),
      Fed (.keccakInit 0) (fun a l1 => .keccakUpdate a 0 l1) 0 224 s message ∧ message = [0x61, 0x62, 0x63] ∧
      s.pc ≠ 255 := by
  have h0 : Completed (running 0 [bytes 256 3 0x616263]) (then' (.keccakInit 0) (running 0 [bytes 256 3 0x616263])) :=
    (completes (by decide +kernel)).2
  have h1 := completes (i := .keccakUpdate 8 0 3)
    (s := then' (.keccakInit 0) (running 0 [bytes 256 3 0x616263])) (by decide +kernel)
  exact ⟨_, _, .piece _ _ _ _ 8 3 (.made _ _ _ (completes (by decide +kernel)).1 h0 rfl) h1.1 h1.2 rfl,
    by decide +kernel, by decide +kernel⟩
/-- Block lengths 64 and 65. -/
theorem witness_Blake3Node :
    let s := running 254 [bytes 8 1 64, bytes 40 1 65]
    (126 : Slot).toNat ≤ 126 ∧ (s.dm.read (32 * (0 : Slot).toNat + 8)).toNat ≤ 64 ∧
    64 < (s.dm.read (32 * (1 : Slot).toNat + 8)).toNat ∧ s.pc ≠ 255 := by decide +kernel
/-- The four words of a quarter round, and their images. -/
theorem witness_ChachaQuarterRoundAndBlock :
    let s := running 254 [bytes 32 16 0x1111111104030201436F8D9B67452301]
    le32Words (memRead s (slotAddr 1) 16) = [0x11111111, 0x01020304, 0x9B8D6F43, 0x01234567] ∧
    quarterRound 0x11111111 0x01020304 0x9B8D6F43 0x01234567 = (0xEA2A92F4, 0xCB1CF8CE, 0x4581472E, 0x5881C4BB) ∧
    (126 : Slot).toNat ≤ 126 ∧ s.pc ≠ 255 := by decide +kernel
/-- L1 = 0; EXH set; the last counter with one block and with two; the one before with two. -/
theorem witness_ChachaXor :
    let s := running 254 [bytes 48 1 1, bytes 96 4 0xFFFFFFFF, bytes 160 4 0xFEFFFFFF]
    32 * (127 : Slot).toNat + (32 : Len).toNat ≤ 4096 ∧ 32 * (125 : Slot).toNat + (65 : Len).toNat ≤ 4096 ∧
    (126 : Slot).toNat ≤ 126 ∧ (0 : Len).toNat = 0 ∧ (1 : Len).toNat ≠ 0 ∧ s.dm.read (slotAddr 0 + 48) ≠ 0 ∧
    2 ^ 32 < le (memRead s (slotAddr 2 + 32) 4) + ((65 : Len).toNat + 63) / 64 ∧
    s.dm.read (slotAddr 2 + 48) = 0 ∧ le (memRead s (slotAddr 2 + 32) 4) + ((64 : Len).toNat + 63) / 64 = 2 ^ 32 ∧
    le (memRead s (slotAddr 4 + 32) 4) + ((65 : Len).toNat + 63) / 64 = 2 ^ 32 ∧
    le (memRead s (slotAddr 4 + 32) 4) + ((64 : Len).toNat + 63) / 64 < 2 ^ 32 ∧
    (bytesAt 30 (65 : Len).toNat).has (slotAddr 2 + 48) = false ∧ s.pc ≠ 255 := by decide +kernel
/-- The message, the associated data and the sealed text each ending at the end of DM. -/
theorem witness_PolyTagAndAeadSeal :
    32 * (127 : Slot).toNat + (32 : Len).toNat ≤ 4096 ∧ 32 * (1 : Slot).toNat + (4064 : Len).toNat ≤ 4096 ∧
    (126 : Slot).toNat ≤ 126 ∧ 32 * (127 : Slot).toNat + (16 : Len).toNat + 16 ≤ 4096 ∧ (running 254 []).pc ≠ 255 := by
  decide
/-- The text of 95 §1.2 at slot 4 with its tag, and at slot 6 with the tag's first byte changed. -/
theorem witness_AeadOpen :
    let s := running 254 [bytes 64 6 0x686561646572, bytes 128 27 0xF7628BD23A71590CF1D6F683AA70BE65C35F0D399651ACE6AF75EC,
      bytes 192 27 0xF7628BD23A71590CF1D6F682AA70BE65C35F0D399651ACE6AF75EC]
    let tag := poly1305Tag ((chachaBlock (memRead s (slotAddr 0) 32) 0 (memRead s (slotAddr 0 + 36) 12)).take 32)
      (macData (memRead s (slotAddr 2) 6) (memRead s (slotAddr 4) 11))
    32 * (4 : Slot).toNat + (11 : Len).toNat + 16 ≤ 4096 ∧ 32 * (2 : Slot).toNat + (6 : Len).toNat ≤ 4096 ∧
    (0 : Slot).toNat ≤ 126 ∧ 32 * (127 : Slot).toNat + (11 : Len).toNat ≤ 4096 ∧
    memRead s (slotAddr 4 + 11) 16 = tag ∧ memRead s (slotAddr 6) 11 = memRead s (slotAddr 4) 11 ∧
    memRead s (slotAddr 6 + 11) 16 ≠ tag ∧ s.pc ≠ 255 := by decide +kernel
/-- A text sealed, then opened from where it was written, with its tag as it is and with its first byte changed. -/
theorem witness_AeadRoundTrip :
    let s := running 0 [bytes 64 6 0x686561646572, bytes 96 11 0x68656C6C6F206176696C61]
    ∃ t, exec (.aeadEnc 4 3 2 0 11 6) s = .next t ∧ Completed s t ∧
      regionsInRange (.aeadDec 127 4 2 0 11 6) = true ∧ memRead t (slotAddr 2) 6 = memRead s (slotAddr 2) 6 ∧
      memRead t (slotAddr 0) 32 = memRead s (slotAddr 0) 32 ∧
      memRead t (slotAddr 0 + 36) 12 = memRead s (slotAddr 0 + 36) 12 ∧ t.pc ≠ 255 ∧
      ∃ m, memRead { t with dm := m } (slotAddr 4) 11 = memRead t (slotAddr 4) 11 ∧
        memRead { t with dm := m } (slotAddr 2) 6 = memRead s (slotAddr 2) 6 ∧
        memRead { t with dm := m } (slotAddr 0) 48 = memRead s (slotAddr 0) 48 ∧
        memRead { t with dm := m } (slotAddr 4 + 11) 16 ≠ memRead t (slotAddr 4 + 11) 16 :=
  ⟨_, (completes (by decide +kernel)).1, (completes (by decide +kernel)).2, by decide +kernel, by decide +kernel,
    by decide +kernel, by decide +kernel, by decide +kernel,
    applyWrites [] [bytes 64 6 0x686561646572, bytes 128 12 0xF7628BD23A71590CF1D6F682],
    by decide +kernel, by decide +kernel, by decide +kernel, by decide +kernel⟩

end Sys2Proof.Tests
end

section
/-! PROOFS. The statements of spec/00_scope.md about every command. One lemma, `exec_outcome`, says that DM alone
decides whether a command halts on an error or commits an effect; how a command ends and that it is pure both follow
from it. -/

namespace Sys2Proof.Machine

/-- What a command other than END does is fixed by DM: on every state with the same DM it halts with the same error, or
commits the same effect inside its write regions and leaves the rest to `advance` (spec/00_scope.md R13, R15). -/
theorem exec_outcome (i : Instr) (s : State) (hi : i ≠ .endSeq) :
    (∃ e, e ≠ .ok ∧ e ≠ .overrun ∧ ∀ s', s.dm = s'.dm → exec i s' = .next (haltError e s'.pc s')) ∨
    (∃ ef, allWithin ef.writes (writeRegions i) ∧
      ∀ s', s.dm = s'.dm → exec i s' = .next (advance (commit ef s'))) := by
  cases hr : regionsInRange i with
  | false =>
    refine .inl ⟨.range, by decide, by decide, fun s' _ => ?_⟩
    rw [exec_eq_runRule i s' hi, runRule_outOfRange i _ s' hr]
  | true =>
    cases h : ruleOf i s with
    | error e =>
      obtain ⟨hok, hoverrun⟩ := ruleOf_error i s e h
      refine .inl ⟨e, hok, hoverrun, fun s' hdm => ?_⟩
      rw [exec_eq_runRule i s' hi, runRule_error i _ s' e hr (ruleOf_dm i s s' hdm ▸ h)]
    | ok ef =>
      refine .inr ⟨ef, ruleOf_writes i s ef h, fun s' hdm => ?_⟩
      rw [exec_eq_runRule i s' hi, runRule, if_pos hr, ← ruleOf_dm i s s' hdm, h, retire]

/-! ### What `advance` does to each field it is asked about -/

theorem advance_of_last (s : State) (h : s.pc = 255) : advance s = haltError .overrun 255 s := if_pos h

theorem advance_of_ne_last (s : State) (h : s.pc ≠ 255) : advance s = { s with pc := s.pc + 1 } := if_neg h

@[simp] theorem advance_dm (s : State) : (advance s).dm = s.dm := by unfold advance; split <;> rfl

@[simp] theorem advance_c (s : State) : (advance s).c = s.c := by unfold advance; split <;> rfl

@[simp] theorem advance_cmp (s : State) : (advance s).cmp = s.cmp := by unfold advance; split <;> rfl

theorem advance_pc (s : State) : (advance s).pc = if s.pc = 255 then 255 else s.pc + 1 := by
  unfold advance; split <;> rfl

/-! ### Which states are an error halt of which -/

theorem errorHalted_haltError (e : ErrCode) (s : State) : ErrorHalted e s (haltError e s.pc s) :=
  ⟨rfl, rfl, rfl, rfl, rfl, rfl, rfl, rfl, rfl, rfl, rfl, rfl, rfl, rfl, rfl, rfl⟩

theorem errorHalted_haltError_iff (e e' : ErrCode) (s : State) :
    ErrorHalted e' s (haltError e s.pc s) ↔ e = e' :=
  ⟨fun ⟨herr, _⟩ => herr, fun h => h ▸ errorHalted_haltError e s⟩

/-- An error halt keeps PC, so a state with PC moved on is none. -/
theorem not_errorHalted_of_pc_moved (e : ErrCode) (s t : State) (h : t.pc = s.pc + 1) : ¬ ErrorHalted e s t := by
  rintro ⟨-, -, -, -, -, -, hpc, -⟩
  exact pc_add_one_ne s.pc (h.symm.trans hpc)

/-- After a commit the sequencer itself raises OVERRUN and no other error. -/
theorem not_errorHalted_advance_commit (e : ErrCode) (ef : Effect) (s : State) (he : e ≠ .overrun) :
    ¬ ErrorHalted e s (advance (commit ef s)) := by
  by_cases hpc : s.pc = 255
  · rw [advance_of_last (commit ef s) hpc]
    rintro ⟨herr, -⟩
    exact he herr.symm
  · exact not_errorHalted_of_pc_moved e s _ (by rw [advance_of_ne_last (commit ef s) hpc]; rfl)

/-! ### The four ways to end -/

theorem sameSurroundings_advance_commit (ef : Effect) (s : State) : SameSurroundings s (advance (commit ef s)) := by
  unfold advance
  split <;> exact ⟨rfl, rfl, rfl, rfl, rfl, rfl⟩

/-- The sequencer's move after a commit completes the command, or is OVERRUN at the last index
(spec/40_sequencer.md R153, R154). -/
theorem advance_commit_cases (ef : Effect) (s : State) :
    (s.pc ≠ 255 ∧ Completed s (advance (commit ef s))) ∨
    (s.pc = 255 ∧ advance (commit ef s) = haltError .overrun 255 (commit ef s)) := by
  by_cases hpc : s.pc = 255
  · exact .inr ⟨hpc, advance_of_last (commit ef s) hpc⟩
  · rw [advance_of_ne_last (commit ef s) hpc]
    exact .inl ⟨hpc, rfl, rfl, rfl, rfl, rfl, rfl, rfl, rfl, rfl, rfl, rfl, rfl⟩

/-- Settles O12: END is its own case; for any other command `exec_outcome` gives the error halt or the commit, and
`advance_commit_cases` parts the commit into completion and OVERRUN. -/
theorem everyCommandEndsInOneOfFourWays : Obligations.EveryCommandEndsInOneOfFourWays := by
  intro i s
  by_cases hi : i = .endSeq
  · subst hi
    exact ⟨_, exec_endSeq s, ⟨rfl, rfl, rfl, rfl, rfl, rfl⟩,
      .inl ⟨rfl, rfl, rfl, rfl, rfl, rfl, rfl, ⟨rfl, rfl, rfl⟩, rfl⟩⟩
  rcases exec_outcome i s hi with ⟨e, hok, hoverrun, hexec⟩ | ⟨ef, hwithin, hexec⟩
  · exact ⟨_, hexec s rfl, ⟨rfl, rfl, rfl, rfl, rfl, rfl⟩,
      .inr (.inr (.inl ⟨hi, e, hok, hoverrun, errorHalted_haltError e s⟩))⟩
  · have hframe : SameOutside (writeRegions i) s.dm (advance (commit ef s)).dm := by
      rw [advance_dm]
      exact applyWrites_outside s.dm ef.writes _ hwithin
    refine ⟨_, hexec s rfl, sameSurroundings_advance_commit ef s, .inr ?_⟩
    rcases advance_commit_cases ef s with ⟨hpc, hdone⟩ | ⟨hpc, hlast⟩
    · exact .inl ⟨hi, hpc, hdone, hframe⟩
    · rw [hlast] at hframe ⊢
      exact .inr (.inr ⟨hi, hpc, rfl, rfl, rfl, rfl, rfl, rfl, rfl, hframe⟩)

/-! ### Purity -/

/-- A flag of an effect is given the same value on both states, or is left alone on both. -/
theorem getD_eq_or_kept {α : Type} (flag : Option α) (x x' : α) :
    flag.getD x = flag.getD x' ∨ (flag.getD x = x ∧ flag.getD x' = x') := by
  cases flag with
  | none => exact .inr ⟨rfl, rfl⟩
  | some y => exact .inl rfl

/-- Two runs of one command, from `s` to `t` and from `s'` to `t'`, did the same: the conclusion of
`Obligations.CommandsArePure`. -/
def EndsAlike (s s' t t' : State) : Prop :=
  t.dm = t'.dm ∧ (t.c = t'.c ∨ (t.c = s.c ∧ t'.c = s'.c)) ∧ (t.cmp = t'.cmp ∨ (t.cmp = s.cmp ∧ t'.cmp = s'.cmp)) ∧
    (∀ e, e ≠ .overrun → (ErrorHalted e s t ↔ ErrorHalted e s' t')) ∧
    ((s.pc = 255 ↔ s'.pc = 255) → t.v = t'.v ∨ (t.v = s.v ∧ t'.v = s'.v)) ∧ (s.pc = s'.pc → t.pc = t'.pc)

/-- END moves PC on and touches neither DM nor a flag. -/
theorem endsAlike_endSeq (s s' : State) (hdm : s.dm = s'.dm) :
    EndsAlike s s' (haltOk { s with pc := s.pc + 1 }) (haltOk { s' with pc := s'.pc + 1 }) := by
  refine ⟨hdm, .inr ⟨rfl, rfl⟩, .inr ⟨rfl, rfl⟩, fun e _ => ?_, fun _ => .inr ⟨rfl, rfl⟩, fun hpc => ?_⟩
  · exact iff_of_false (not_errorHalted_of_pc_moved e s _ rfl) (not_errorHalted_of_pc_moved e s' _ rfl)
  · simp only [haltOk_pc, hpc]

/-- The same error halts both states, with the same code. -/
theorem endsAlike_haltError (e : ErrCode) (s s' : State) (hdm : s.dm = s'.dm) :
    EndsAlike s s' (haltError e s.pc s) (haltError e s'.pc s') := by
  refine ⟨hdm, .inr ⟨rfl, rfl⟩, .inr ⟨rfl, rfl⟩, fun e' _ => ?_, fun _ => .inl rfl, id⟩
  rw [errorHalted_haltError_iff, errorHalted_haltError_iff]

/-- The same effect is committed on both states; PC alone decides about OVERRUN, which clears V. -/
theorem endsAlike_advance_commit (ef : Effect) (s s' : State) (hdm : s.dm = s'.dm) :
    EndsAlike s s' (advance (commit ef s)) (advance (commit ef s')) := by
  refine ⟨?dm, ?c, ?cmp, fun e he => ?err, fun hlast => ?v, fun hpc => ?pc⟩
  case dm => simp only [advance_dm, commit_dm, hdm]
  case c => simpa only [advance_c, commit_c] using getD_eq_or_kept ef.c s.c s'.c
  case cmp => simpa only [advance_cmp, commit_cmp] using getD_eq_or_kept ef.cmp s.cmp s'.cmp
  case err =>
    exact iff_of_false (not_errorHalted_advance_commit e ef s he) (not_errorHalted_advance_commit e ef s' he)
  case v =>
    by_cases h : s.pc = 255
    · rw [advance_of_last (commit ef s) h, advance_of_last (commit ef s') (hlast.mp h)]
      exact .inl rfl
    · rw [advance_of_ne_last (commit ef s) h, advance_of_ne_last (commit ef s') (mt hlast.mpr h)]
      exact getD_eq_or_kept ef.v s.v s'.v
  case pc => rw [advance_pc, advance_pc, commit_pc, commit_pc, hpc]

/-- Settles O13: `exec_outcome` says that both states take the same way, and each way ends alike. -/
theorem commandsArePure : Obligations.CommandsArePure := by
  intro i s s' t t' hdm ht ht'
  show EndsAlike s s' t t'
  by_cases hi : i = .endSeq
  · subst hi
    cases (exec_endSeq s).symm.trans ht
    cases (exec_endSeq s').symm.trans ht'
    exact endsAlike_endSeq s s' hdm
  rcases exec_outcome i s hi with ⟨e, -, -, hexec⟩ | ⟨ef, -, hexec⟩
  · cases (hexec s rfl).symm.trans ht
    cases (hexec s' hdm).symm.trans ht'
    exact endsAlike_haltError e s s' hdm
  · cases (hexec s rfl).symm.trans ht
    cases (hexec s' hdm).symm.trans ht'
    exact endsAlike_advance_commit ef s s' hdm

end Sys2Proof.Machine
end

section
/-! PROOFS. The host's registers (spec/10_state.md R40 to R47). One equation for each register that a host access
reaches, and one inductive, `HostWriteCase`, of everything a host write can do; the statements about single registers
use the equations, the invariant and the interrupt line use the inductive. -/

namespace Sys2Proof.Machine

/-! ### Which register an offset selects -/

/-- The two low bits of an offset do not matter: the word it selects is `offset / 4` (spec/20_memory.md R90). -/
theorem wordOffset_eq {offset k : Nat} (h : offset / 4 = k) : wordOffset offset = 4 * k := by
  rw [wordOffset, h, Nat.mul_comm]

section reads

variable {s : State} {offset : Nat} (hout : s.inReset = false)

include hout

theorem hostRead_id (h : offset / 4 = 0) : hostRead s offset = Config.idWord := by
  simp [hostRead, wordOffset_eq h, hout]

theorem hostRead_config (h : offset / 4 = 1) : hostRead s offset = Config.configWord := by
  simp [hostRead, wordOffset_eq h, hout]

theorem hostRead_ctrl (h : offset / 4 = 2) : hostRead s offset = 0 := by
  simp [hostRead, wordOffset_eq h, hout]

theorem hostRead_status (h : offset / 4 = 3) : hostRead s offset = statusWord s := by
  simp [hostRead, wordOffset_eq h, hout]

theorem hostRead_pc (h : offset / 4 = 4) : hostRead s offset = s.pc.setWidth 32 := by
  simp [hostRead, wordOffset_eq h, hout]

theorem hostRead_errpc (h : offset / 4 = 5) : hostRead s offset = s.errpc.setWidth 32 := by
  simp [hostRead, wordOffset_eq h, hout]

theorem hostRead_irqen (h : offset / 4 = 6) : hostRead s offset = BitVec.ofNat 32 s.doneie.toNat := by
  simp [hostRead, wordOffset_eq h, hout]

end reads

section writes

variable {s : State} {offset : Nat} {data : HostWord}

/-- ID, CONFIG, STATUS and ERRPC ignore writes (spec/10_state.md R40). -/
theorem hostWrite_readOnly (h : offset / 4 ∈ [0, 1, 3, 5]) : hostWrite offset data s = s := by
  simp only [List.mem_cons, List.not_mem_nil, or_false] at h
  rcases h with h | h | h | h <;> simp [hostWrite, wordOffset_eq h]

theorem hostWrite_ctrl (hout : s.inReset = false) (h : offset / 4 = 2) :
    hostWrite offset data s = ctrlWrite data s := by
  simp [hostWrite, wordOffset_eq h, hout]

theorem hostWrite_pc (hout : s.inReset = false) (h : offset / 4 = 4) :
    hostWrite offset data s = pcWrite data s := by
  simp [hostWrite, wordOffset_eq h, hout]

theorem hostWrite_irqen (hout : s.inReset = false) (h : offset / 4 = 6) :
    hostWrite offset data s = { s with doneie := data.getLsbD 0 } := by
  simp [hostWrite, wordOffset_eq h, hout]

end writes

/-! ### The two registers whose write depends on BUSY -/

section busy

variable {s : State} {data : HostWord}

theorem ctrlWrite_busy (h : s.busy = true) : ctrlWrite data s = s := by simp [ctrlWrite, h]

theorem ctrlWrite_start (h : s.busy = false) (hstart : data.getLsbD 0 = true) : ctrlWrite data s = start s := by
  simp only [ctrlWrite, h, hstart, if_true, Bool.false_eq_true, if_false]

theorem ctrlWrite_ack (h : s.busy = false) (hstart : data.getLsbD 0 = false) (hack : data.getLsbD 1 = true) :
    ctrlWrite data s = { s with done := false } := by
  simp only [ctrlWrite, h, hstart, hack, if_true, Bool.false_eq_true, if_false]

theorem ctrlWrite_neither (hstart : data.getLsbD 0 = false) (hack : data.getLsbD 1 = false) :
    ctrlWrite data s = s := by
  simp only [ctrlWrite, hstart, hack, Bool.false_eq_true, if_false, ite_self]

theorem pcWrite_busy (h : s.busy = true) : pcWrite data s = s := by simp [pcWrite, h]

theorem pcWrite_idle (h : s.busy = false) : pcWrite data s = { s with pc := data.setWidth 8 } := by
  simp [pcWrite, h]

end busy

/-! ### Everything a host write can do -/

/-- The ways a host write of a word changes the state, each with the conditions it needs: the registers it reaches
(spec/10_state.md R40) and the windows, in which it stays inside the memory (spec/20_memory.md R87, R88). -/
inductive HostWriteCase (offset : Nat) (data : HostWord) (s : State) : State → Prop
  | ignored : HostWriteCase offset data s s
  | started (hout : s.inReset = false) (hreg : offset / 4 = 2) (hidle : s.busy = false)
      (hstart : data.getLsbD 0 = true) : HostWriteCase offset data s (start s)
  | acked (hreg : offset / 4 = 2) (hidle : s.busy = false) (hack : data.getLsbD 1 = true) :
      HostWriteCase offset data s { s with done := false }
  | pcSet (hidle : s.busy = false) : HostWriteCase offset data s { s with pc := data.setWidth 8 }
  | irqenSet (hreg : offset / 4 = 6) : HostWriteCase offset data s { s with doneie := data.getLsbD 0 }
  | dmSet (a : Nat) (hin : a + 4 ≤ 4096) (hidle : s.busy = false) :
      HostWriteCase offset data s { s with dm := windowWrite s.dm a data }
  | cmSet (a : Nat) (hin : a + 4 ≤ 2048) (hidle : s.busy = false) :
      HostWriteCase offset data s { s with cm := windowWrite s.cm a data }

theorem ctrlWrite_case {s : State} {offset : Nat} (data : HostWord) (hout : s.inReset = false)
    (hreg : offset / 4 = 2) : HostWriteCase offset data s (ctrlWrite data s) := by
  unfold ctrlWrite
  split
  · exact .ignored
  next hbusy =>
    have hidle : s.busy = false := by simpa using hbusy
    split
    next hstart => exact .started hout hreg hidle hstart
    next =>
      split
      next hack => exact .acked hreg hidle hack
      next => exact .ignored

theorem pcWrite_case (s : State) (offset : Nat) (data : HostWord) :
    HostWriteCase offset data s (pcWrite data s) := by
  unfold pcWrite
  split
  next => exact .ignored
  next hbusy => exact .pcSet (by simpa using hbusy)

theorem dmWindowWrite_case (s : State) (offset a : Nat) (data : HostWord) (hin : a + 4 ≤ 4096) :
    HostWriteCase offset data s (dmWindowWrite a data s) := by
  unfold dmWindowWrite
  split
  next => exact .ignored
  next hbusy => exact .dmSet a hin (by simpa using hbusy)

theorem cmWindowWrite_case (s : State) (offset a : Nat) (data : HostWord) (hin : a + 4 ≤ 2048) :
    HostWriteCase offset data s (cmWindowWrite a data s) := by
  unfold cmWindowWrite
  split
  next => exact .ignored
  next hbusy => exact .cmSet a hin (by simpa using hbusy)

/-- Every host write is one of the cases: the address decoder of the port. -/
theorem hostWrite_case (offset : Nat) (data : HostWord) (s : State) :
    HostWriteCase offset data s (hostWrite offset data s) := by
  have hword : wordOffset offset = 4 * (offset / 4) := wordOffset_eq rfl
  simp only [hostWrite]
  split
  next => exact .ignored
  next hreset =>
    have hout : s.inReset = false := by simpa using hreset
    split
    next h => exact ctrlWrite_case data hout (by omega)
    split
    next => exact pcWrite_case s offset data
    split
    next h => exact .irqenSet (by omega)
    split
    next => exact .ignored
    split
    next => exact dmWindowWrite_case s offset _ data (by omega)
    split
    next => exact cmWindowWrite_case s offset _ data (by omega)
    next => exact .ignored

/-! ### A host write as a step -/

@[simp] theorem hostWrite_freeCount (offset : Nat) (data : HostWord) (s : State) :
    (hostWrite offset data s).freeCount = s.freeCount := (hostWrite_keeps offset data s).1

theorem withFreeCount_self {s : State} {n : Nat} (h : n = s.freeCount) : { s with freeCount := n } = s := by
  rw [h]

/-- A whole-word write inside the aperture, taken as a step, is `hostWrite` of the word written. -/
theorem step_wholeWordWrite {s : State} {offset : Nat} {data : HostWord} {rest : List Input}
    (hin : offset < 16384) (hp : s.pending = .write offset 0xF data :: rest) :
    step s = .next (hostWrite offset data { s with pending := rest }) := by
  have hword : busWord 0xF data s.freeCount = data := if_pos rfl
  have hdrawn : lanesDrawn 0xF = 0 := if_pos rfl
  rw [step, nextMove, hp]
  simp only [inputStep, hostWriteStep, Config.apertureBytes, if_pos hin, hword, hdrawn, Nat.add_zero]
  exact congrArg _ (withFreeCount_self (hostWrite_freeCount offset data { s with pending := rest }).symm)

/-! ### CTRL -/

/-- Settles O17: the step is a write of CTRL, and each clause is one case of that write. -/
theorem controlRegister : Obligations.ControlRegister := by
  intro s offset data rest hreg hout hp
  have hstep : step s = .next (ctrlWrite data { s with pending := rest }) := by
    rw [step_wholeWordWrite (by omega) hp]
    exact congrArg _ (hostWrite_ctrl hout hreg)
  rw [hstep]
  refine ⟨fun hbusy => ?_, fun hidle hstart => ?_, fun hidle hstart hack => ?_, fun _ hstart hack => ?_,
    hostRead_ctrl hout hreg⟩
  · exact congrArg _ (ctrlWrite_busy hbusy)
  · exact congrArg _ (ctrlWrite_start hidle hstart)
  · exact congrArg _ (ctrlWrite_ack hidle hstart hack)
  · exact congrArg _ (ctrlWrite_neither hstart hack)

/-! ### STATUS and IRQEN as bit fields -/

/-- A field of a host word, read as the word divided by its place. -/
theorem hostField_eq {w : HostWord} {lo n : Nat} {v : BitVec n} (h : w.toNat / 2 ^ lo % 2 ^ n = v.toNat) :
    w.extractLsb' lo n = v := by
  apply BitVec.eq_of_toNat_eq
  rw [BitVec.extractLsb'_toNat, Nat.shiftRight_eq_div_pow, h]

/-- A bit of a host word, read as the word divided by its place. -/
theorem hostBit_eq {w : HostWord} {k : Nat} {b : Bool} (h : w.toNat / 2 ^ k % 2 = b.toNat) : w.getLsbD k = b := by
  rw [BitVec.getLsbD, Nat.testBit_eq_decide_div_mod_eq, h]
  cases b <;> rfl

theorem CmpResult.bits_lt (x : CmpResult) : x.bits < 4 := by cases x <;> decide

theorem ErrCode.code_lt (e : ErrCode) : e.code < 16 := by cases e <;> decide

/-- The STATUS word as an integer: its fields do not overlap and none is cut short (spec/10_state.md R44). -/
theorem statusWord_toNat (s : State) : (statusWord s).toNat = s.busy.toNat + 2 * s.done.toNat + 4 * s.err.toNat +
    8 * s.c.toNat + 16 * s.v.toNat + 32 * s.cmp.bits + 256 * s.errcode.code := by
  have hbusy := s.busy.toNat_lt
  have hdone := s.done.toNat_lt
  have herr := s.err.toNat_lt
  have hc := s.c.toNat_lt
  have hv := s.v.toNat_lt
  have hcmp := s.cmp.bits_lt
  have hcode := s.errcode.code_lt
  rw [statusWord, BitVec.toNat_ofNat, Nat.mod_eq_of_lt]
  omega

/-- Every field of STATUS, by its place in the word. -/
theorem statusWord_fields (s : State) :
    (statusWord s).toNat / 2 ^ 0 % 2 = s.busy.toNat ∧ (statusWord s).toNat / 2 ^ 1 % 2 = s.done.toNat ∧
    (statusWord s).toNat / 2 ^ 2 % 2 = s.err.toNat ∧ (statusWord s).toNat / 2 ^ 3 % 2 = s.c.toNat ∧
    (statusWord s).toNat / 2 ^ 4 % 2 = s.v.toNat ∧ (statusWord s).toNat / 2 ^ 5 % 2 ^ 2 = s.cmp.bits ∧
    (statusWord s).toNat / 2 ^ 7 % 2 = 0 ∧ (statusWord s).toNat / 2 ^ 8 % 2 ^ 4 = s.errcode.code ∧
    (statusWord s).toNat / 2 ^ 12 % 2 ^ 20 = 0 := by
  have hbusy := s.busy.toNat_lt
  have hdone := s.done.toNat_lt
  have herr := s.err.toNat_lt
  have hc := s.c.toNat_lt
  have hv := s.v.toNat_lt
  have hcmp := s.cmp.bits_lt
  have hcode := s.errcode.code_lt
  rw [statusWord_toNat]
  refine ⟨?_, ?_, ?_, ?_, ?_, ?_, ?_, ?_, ?_⟩ <;> omega

/-- Settles O20: the registers by the equations of the port, STATUS field by field. -/
theorem identificationAndStatus : Obligations.IdentificationAndStatus := by
  intro s hout
  obtain ⟨hbusy, hdone, herr, hc, hv, hcmp, hzero, hcode, htop⟩ := statusWord_fields s
  rw [hostRead_status (offset := 0x000C) hout rfl]
  refine ⟨hostRead_id hout rfl, hostRead_config hout rfl, hostBit_eq hbusy, hostBit_eq hdone, hostBit_eq herr,
    hostBit_eq hc, hostBit_eq hv, hostField_eq ?_, hostBit_eq hzero, hostField_eq ?_, hostField_eq htop,
    hostRead_errpc hout rfl, fun _ _ => hostWrite_readOnly⟩
  · rw [hcmp]
    cases s.cmp <;> rfl
  · rw [hcode]
    cases s.errcode <;> rfl

/-- Settles O22: the PC register's write depends on BUSY, IRQEN's does not. -/
theorem pcAndIrqenRegisters : Obligations.PcAndIrqenRegisters := by
  refine ⟨fun s data hout => ⟨hostRead_pc hout rfl, fun hidle => ?_, fun hbusy => ?_, ?_, ?_,
    hostWrite_irqen hout rfl⟩, rfl, rfl⟩
  · rw [hostWrite_pc hout rfl, pcWrite_idle hidle, BitVec.setWidth_eq_extractLsb' (by decide)]
  · rw [hostWrite_pc hout rfl, pcWrite_busy hbusy]
  · rw [hostRead_irqen hout rfl]
    cases s.doneie <;> rfl
  · rw [hostRead_irqen hout rfl]
    cases s.doneie <;> rfl

end Sys2Proof.Machine
end

section
/-! PROOFS. The invariant of the machine. Every next state is made by a few operations: the error halt, the clean halt,
the commit, START, the host's single writes and the two resets. Each keeps `State.Inv`; a step is one of them. -/

namespace Sys2Proof.Machine

/-! ### The operations of the sequencer -/

/-- An error halt establishes all of the invariant but the memories': ERR and a code that is not 0, V clear, Idle. -/
theorem haltError_inv {e : ErrCode} {s : State} (i : BitVec 8) (he : e ≠ .ok) (hdm : s.dm.wf 4096 = true)
    (hcm : s.cm.wf 2048 = true) : (haltError e i s).Inv :=
  ⟨hdm, hcm, iff_of_true rfl he, fun _ => rfl, nofun⟩

theorem haltOk_inv {s : State} (hs : s.Inv) : (haltOk s).Inv := by
  obtain ⟨hdm, hcm, herr, hv, -⟩ := hs
  exact ⟨hdm, hcm, herr, hv, nofun⟩

/-- A command commits while Running, when ERR is clear, so that V may take any value. -/
theorem commit_inv {ef : Effect} {s : State} {rs : List Region} (hs : s.Inv) (hbusy : s.busy = true)
    (hwithin : allWithin ef.writes rs) (hin : ∀ r ∈ rs, r.start + r.size ≤ 4096) : (commit ef s).Inv := by
  obtain ⟨hdm, hcm, herr, -, hrun⟩ := hs
  obtain ⟨-, hclear, -⟩ := hrun hbusy
  refine ⟨applyWrites_wf 4096 s.dm ef.writes rs hwithin hin hdm, hcm, herr, fun hset => ?_, hrun⟩
  rw [commit_err, hclear] at hset
  cases hset

/-- A command keeps the invariant of a Running core. -/
theorem exec_inv {i : Instr} {s t : State} (hs : s.Inv) (hbusy : s.busy = true) (h : exec i s = .next t) :
    t.Inv := by
  have ⟨hdm, hcm, _⟩ := hs
  by_cases hi : i = .endSeq
  · subst hi
    cases (exec_endSeq s).symm.trans h
    exact haltOk_inv (s := { s with pc := s.pc + 1 }) hs
  have hcommit : ∀ ef, regionsInRange i = true → ruleOf i s = .ok ef → (commit ef s).Inv := fun ef hr hef =>
    commit_inv hs hbusy (ruleOf_writes i s ef hef) fun r hmem =>
      regions_inRange i hr r (List.mem_append_right _ hmem)
  rcases exec_cases i s t hi h with ⟨-, rfl⟩ | ⟨-, e, he, rfl⟩ | ⟨hr, ef, hef, -, rfl⟩ | ⟨hr, ef, hef, -, rfl⟩
  case inl => exact haltError_inv s.pc (by decide) hdm hcm
  case inr.inl => exact haltError_inv s.pc (ruleOf_error i s e he).1 hdm hcm
  case inr.inr.inl =>
    obtain ⟨hdm', hcm', -⟩ := hcommit ef hr hef
    exact haltError_inv 255 (by decide) hdm' hcm'
  case inr.inr.inr => exact hcommit ef hr hef

/-- The sequencer's move: nothing while Idle, the ILLEGAL halt, or the decoded command (spec/40_sequencer.md R150). -/
theorem sequencerStep_cases {s t : State} (h : sequencerStep s = .next t) :
    (s.busy = false ∧ t = s) ∨ (s.busy = true ∧ t = haltError .illegal s.pc s) ∨
    (s.busy = true ∧ ∃ i, exec i s = .next t) := by
  unfold sequencerStep at h
  split at h
  next hbusy =>
    split at h
    next => cases h; exact .inr (.inl ⟨hbusy, rfl⟩)
    next i _ => exact .inr (.inr ⟨hbusy, i, h⟩)
  next hbusy => cases h; exact .inl ⟨by simpa using hbusy, rfl⟩

theorem sequencerStep_inv {s t : State} (hs : s.Inv) (h : sequencerStep s = .next t) : t.Inv := by
  rcases sequencerStep_cases h with ⟨-, rfl⟩ | ⟨-, rfl⟩ | ⟨hbusy, i, hexec⟩
  · exact hs
  · have ⟨hdm, hcm, _⟩ := hs
    exact haltError_inv s.pc (by decide) hdm hcm
  · exact exec_inv hs hbusy hexec

/-! ### The host and the reset input -/

/-- A host write is made while Idle where it touches what the invariant speaks of, and stays inside the memories. -/
theorem hostWrite_inv {s : State} (offset : Nat) (data : HostWord) (hs : s.Inv) :
    (hostWrite offset data s).Inv := by
  have ⟨hdm, hcm, herr, hv, hrun⟩ := hs
  have hcase := hostWrite_case offset data s
  generalize hostWrite offset data s = t at hcase ⊢
  cases hcase with
  | ignored => exact hs
  | started hout => exact ⟨hdm, hcm, iff_of_false nofun (not_not_intro rfl), nofun, fun _ => ⟨rfl, rfl, hout⟩⟩
  | acked _ hidle => exact ⟨hdm, hcm, herr, hv, fun hbusy => ⟨rfl, (hrun hbusy).2⟩⟩
  | pcSet _ => exact hs
  | irqenSet _ => exact hs
  | dmSet a hin _ => exact ⟨windowWrite_wf 4096 s.dm a data hdm hin, hcm, herr, hv, hrun⟩
  | cmSet a hin _ => exact ⟨hdm, windowWrite_wf 2048 s.cm a data hcm hin, herr, hv, hrun⟩

/-- An Idle state with ERR clear and code 0, as every reset leaves it, has the invariant when its memories are
canonical. -/
theorem inv_of_idle {s : State} (hdm : s.dm.wf 4096 = true) (hcm : s.cm.wf 2048 = true) (hidle : s.busy = false)
    (herr : s.err = false) (hcode : s.errcode = .ok) : s.Inv := by
  simp [State.Inv, hdm, hcm, hidle, herr, hcode]

/-- A warm reset keeps CM, and gives free values to bytes inside DM only. -/
theorem warmReset_inv {s : State} (hs : s.Inv) : (warmReset s).Inv := by
  obtain ⟨hdm, hcm, -⟩ := hs
  have hin : ∀ r ∈ (if s.busy then cutShortRegions s else []), r.start + r.size ≤ 4096 := by
    split
    · exact cutShortRegions_inDm s
    · simp
  exact inv_of_idle (scramble_wf 4096 s.dm s.freeCount _ hin hdm) hcm rfl rfl rfl

/-- What a byte string from address 0 makes of an empty memory is canonical, cut off at the memory's size. -/
theorem wf_of_contents (size : Nat) (bytes : List Byte) :
    (Memory.writeBytes [] 0 (bytes.take size)).wf size = true :=
  Memory.wf_writeBytes size [] 0 _ (Memory.wf_nil size) (by simp)

theorem powerOnReset_inv (dmInit cmInit : List Byte) (s : State) : (powerOnReset dmInit cmInit s).Inv :=
  inv_of_idle (wf_of_contents 4096 dmInit) (wf_of_contents 2048 cmInit) rfl rfl rfl

/-- Releasing the reset input keeps the invariant, which asks only that a Running core is not held in reset. -/
theorem release_inv {s : State} (hs : s.Inv) : State.Inv { s with inReset := false } := by
  obtain ⟨hdm, hcm, herr, hv, hrun⟩ := hs
  refine ⟨hdm, hcm, herr, hv, fun hbusy => ?_⟩
  obtain ⟨hdone, hclear, -⟩ := hrun hbusy
  exact ⟨hdone, hclear, rfl⟩

/-! ### One step -/

/-- The answer of a host write taken as a step. -/
theorem hostWriteStep_eq {offset : Nat} {lanes : BitVec 4} {data : HostWord} {s t : State}
    (h : hostWriteStep offset lanes data s = .next t) :
    t = { hostWrite offset (busWord lanes data s.freeCount) s with freeCount := s.freeCount + lanesDrawn lanes } := by
  unfold hostWriteStep at h
  split at h
  · cases h; rfl
  · cases h

/-- The answer of a host read taken as a step. -/
theorem hostReadStep_eq {offset : Nat} {s t : State} (h : hostReadStep offset s = .next t) :
    t = { s with busData := hostRead s offset } := by
  unfold hostReadStep at h
  split at h
  · cases h; rfl
  · cases h

theorem inputStep_inv {x : Input} {s t : State} (hs : s.Inv) (h : inputStep x s = .next t) : t.Inv := by
  cases x with
  | pass => exact sequencerStep_inv hs h
  | read offset =>
    rw [hostReadStep_eq h]
    exact hs
  | write offset lanes data =>
    rw [hostWriteStep_eq h]
    exact hostWrite_inv offset (busWord lanes data s.freeCount) hs
  | powerOnReset dmInit cmInit =>
    cases h
    exact powerOnReset_inv dmInit cmInit s
  | warmReset =>
    cases h
    exact warmReset_inv hs
  | releaseReset =>
    cases h
    exact release_inv hs

/-- A step is the sequencer's move where no input waits, and the first input otherwise. -/
theorem step_cases {s t : State} (h : step s = .next t) :
    (s.pending = [] ∧ sequencerStep s = .next t) ∨
    ∃ x rest, s.pending = x :: rest ∧ inputStep x { s with pending := rest } = .next t := by
  unfold step nextMove at h
  split at h
  next hp => exact .inl ⟨hp, h⟩
  next x rest hp => exact .inr ⟨x, rest, hp, h⟩

/-- Settles O7: a step is the sequencer's move or one input, and the invariant does not speak of the inputs that wait. -/
theorem stepKeepsTheInvariant : Obligations.StepKeepsTheInvariant := by
  intro s t hs h
  rcases step_cases h with ⟨-, hseq⟩ | ⟨x, rest, -, hinput⟩
  · exact sequencerStep_inv hs hseq
  · exact inputStep_inv (s := { s with pending := rest }) hs hinput

end Sys2Proof.Machine
end

section
/-! PROOFS. The flags (spec/10_state.md R48). A command other than END either halts on an error or hands an effect to
`commit` and `advance`; which flags that effect can hold is a table over the commands, `writesC`, `writesV` and
`writesCmp`, checked against every rule. -/

namespace Sys2Proof.Machine

/-! ### Which commands write which flag -/

/-- The commands that write C. -/
def writesC : Instr → Bool
  | .add _ _ _ | .sub _ _ _ => true
  | _ => false

/-- The commands that write V when they complete. -/
def writesV : Instr → Bool
  | .ecchk _ | .ecdsaVerify _ _ _ _ => true
  | _ => false

/-- The command that writes CMP. -/
def writesCmp : Instr → Bool
  | .cmp _ _ => true
  | _ => false

theorem writesC_eq_false {i : Instr} (h : ∀ d a b, i ≠ .add d a b ∧ i ≠ .sub d a b) : writesC i = false := by
  unfold writesC
  split
  next d a b => exact absurd rfl (h d a b).1
  next d a b => exact absurd rfl (h d a b).2
  next => rfl

theorem writesV_eq_false {i : Instr} (hchk : ∀ a, i ≠ .ecchk a) (hver : ∀ a b c lows, i ≠ .ecdsaVerify a b c lows) :
    writesV i = false := by
  unfold writesV
  split
  next a => exact absurd rfl (hchk a)
  next a b c lows => exact absurd rfl (hver a b c lows)
  next => rfl

theorem writesCmp_eq_false {i : Instr} (h : ∀ a b, i ≠ .cmp a b) : writesCmp i = false := by
  unfold writesCmp
  split
  next a b => exact absurd rfl (h a b)
  next => rfl

/-! ### Rules that write no flag -/

/-- If the rule gives an effect, the effect writes no flag. -/
def KeepsFlags (r : Result) : Prop := ∀ ef, r = .ok ef → ef.c = none ∧ ef.v = none ∧ ef.cmp = none

theorem keepsFlags_error (e : ErrCode) : KeepsFlags (.error e) := nofun

theorem keepsFlags_writesResult (ws : List Write) : KeepsFlags (writesResult ws) := by
  rintro _ ⟨⟩
  exact ⟨rfl, rfl, rfl⟩

theorem keepsFlags_slotResult (x : Slot) (v : Nat) : KeepsFlags (slotResult x v) :=
  keepsFlags_writesResult [putSlot x v]

/-- A rule that checks before it answers keeps the flags if both answers do. -/
theorem keepsFlags_ite {p : Prop} [Decidable p] {r r' : Result} (h : KeepsFlags r) (h' : KeepsFlags r') :
    KeepsFlags (if p then r else r') := by
  split
  · exact h
  · exact h'

/-- A check that raises an error leaves the flags to the answer behind it. -/
theorem keepsFlags_check {p : Prop} [Decidable p] {e : ErrCode} {r : Result} (h : KeepsFlags r) :
    KeepsFlags (if p then .error e else r) := keepsFlags_ite (keepsFlags_error e) h

/-- The same with the error as the second answer. -/
theorem keepsFlags_guard {p : Prop} [Decidable p] {e : ErrCode} {r : Result} (h : KeepsFlags r) :
    KeepsFlags (if p then r else .error e) := keepsFlags_ite h (keepsFlags_error e)

theorem rulePkdec_keepsFlags (d a : Slot) (l1 : Len) (s : State) : KeepsFlags (rulePkdec d a l1 s) := by
  unfold rulePkdec
  split
  · exact keepsFlags_error _
  · exact keepsFlags_writesResult _

theorem ruleEcdsaSign_keepsFlags (d a b c : Slot) (lows : Bool) (s : State) :
    KeepsFlags (ruleEcdsaSign d a b c lows s) := by
  unfold ruleEcdsaSign
  split
  · exact keepsFlags_error _
  · exact keepsFlags_writesResult _

theorem ruleChachaXor_keepsFlags (d a c : Slot) (l1 : Len) (s : State) : KeepsFlags (ruleChachaXor d a c l1 s) :=
  keepsFlags_check (keepsFlags_check (keepsFlags_ite (keepsFlags_writesResult _) (keepsFlags_writesResult _)))

/-- The rule of every command outside the table writes no flag. -/
theorem ruleOf_keepsFlags (i : Instr) (s : State) (hc : writesC i = false) (hv : writesV i = false)
    (hcmp : writesCmp i = false) : KeepsFlags (ruleOf i s) := by
  cases i <;> rw [ruleOf]
  case add | sub => cases hc
  case cmp => cases hcmp
  case ecchk | ecdsaVerify => cases hv
  case endSeq | nop => rintro _ ⟨⟩; exact ⟨rfl, rfl, rfl⟩
  case pkdec => exact rulePkdec_keepsFlags _ _ _ s
  case ecdsaSign => exact ruleEcdsaSign_keepsFlags _ _ _ _ _ s
  case chachaXor => exact ruleChachaXor_keepsFlags _ _ _ _ s
  case gcd => exact keepsFlags_slotResult _ _
  case ldc | modadd | modsub | modmul | montmul | montin | montout | modexp =>
    exact keepsFlags_check (keepsFlags_slotResult _ _)
  case modinv | modinvvt => exact keepsFlags_check (keepsFlags_guard (keepsFlags_slotResult _ _))
  case ecadd | ecdbl | ecmul | pkenc | aeadDec => exact keepsFlags_guard (keepsFlags_writesResult _)
  case sha256Update | sha256Final | keccakUpdate | keccakFinal =>
    exact keepsFlags_check (keepsFlags_check (keepsFlags_writesResult _))
  case b3Compress => exact keepsFlags_check (keepsFlags_writesResult _)
  all_goals exact keepsFlags_writesResult _

/-! ### The rules that write one -/

theorem ecdsaVerifyValue_ok {x qx qy r y : Nat} {lows verdict : Bool}
    (h : ecdsaVerifyValue x qx qy r y lows = .ok verdict) : verdict = ecdsaAccepts x (pointOf qx qy) r y lows := by
  unfold ecdsaVerifyValue at h
  split at h
  · cases h
  split at h
  · cases h
  injection h with h
  exact h.symm

theorem ruleEcdsaVerify_ok {a b c : Slot} {lows : Bool} {s : State} {ef : Effect}
    (h : ruleEcdsaVerify a b c lows s = .ok ef) :
    ef = { v := some (ecdsaAccepts (slotValue s a) (slotPoint s b) (slotValue s c) (nextSlotValue s c) lows) } := by
  unfold ruleEcdsaVerify at h
  generalize hval : ecdsaVerifyValue _ _ _ _ _ _ = value at h
  cases value with
  | error e => cases h
  | ok verdict =>
    have hef : { v := some verdict } = ef := Except.ok.inj h
    rw [← hef, ecdsaVerifyValue_ok hval, slotPoint]

/-- What every effect leaves alone: the flags its command does not write. -/
theorem ruleOf_unwritten {i : Instr} {s : State} {ef : Effect} (h : ruleOf i s = .ok ef) :
    (writesC i = false → ef.c = none) ∧ (writesV i = false → ef.v = none) ∧
      (writesCmp i = false → ef.cmp = none) := by
  by_cases hnone : writesC i = false ∧ writesV i = false ∧ writesCmp i = false
  · obtain ⟨hc, hv, hcmp⟩ := hnone
    obtain ⟨kc, kv, kcmp⟩ := ruleOf_keepsFlags i s hc hv hcmp ef h
    exact ⟨fun _ => kc, fun _ => kv, fun _ => kcmp⟩
  cases i
  case add | sub => injection h with h; subst h; exact ⟨(nomatch ·), fun _ => rfl, fun _ => rfl⟩
  case cmp => injection h with h; subst h; exact ⟨fun _ => rfl, fun _ => rfl, (nomatch ·)⟩
  case ecchk => injection h with h; subst h; exact ⟨fun _ => rfl, (nomatch ·), fun _ => rfl⟩
  case ecdsaVerify => rw [ruleOf] at h; rw [ruleEcdsaVerify_ok h]; exact ⟨fun _ => rfl, (nomatch ·), fun _ => rfl⟩
  all_goals exact absurd ⟨rfl, rfl, rfl⟩ hnone

/-! ### What a command leaves in the flags -/

theorem advance_v (s : State) : (advance s).v = if s.pc = 255 then false else s.v := by
  unfold advance; split <;> rfl

theorem advance_err (s : State) : (advance s).err = if s.pc = 255 then true else s.err := by
  unfold advance; split <;> rfl

/-- A command in range whose rule gives an effect commits it and advances. -/
theorem exec_commits {i : Instr} {s : State} {ef : Effect} (hi : i ≠ .endSeq) (hr : regionsInRange i = true)
    (h : ruleOf i s = .ok ef) : exec i s = .next (advance (commit ef s)) := by
  rw [exec_eq_runRule i s hi, runRule, if_pos hr, h, retire]

/-- A command other than END halts on an error, or commits the effect its rule gives and advances. -/
theorem exec_halted_or_committed {i : Instr} {s t : State} (hi : i ≠ .endSeq) (h : exec i s = .next t) :
    (∃ e, t = haltError e s.pc s) ∨ ∃ ef, ruleOf i s = .ok ef ∧ t = advance (commit ef s) := by
  rw [exec_eq_runRule i s hi, runRule] at h
  split at h
  next =>
    cases hrule : ruleOf i s with
    | error e => rw [hrule] at h; cases h; exact .inl ⟨e, rfl⟩
    | ok ef => rw [hrule] at h; cases h; exact .inr ⟨ef, rfl, rfl⟩
  next => cases h; exact .inl ⟨.range, rfl⟩

/-- A command keeps C and CMP if it is not one that writes them, and V too unless it ends with ERR set. -/
theorem exec_keeps_unwritten {i : Instr} {s t : State} (h : exec i s = .next t) :
    (writesC i = false → t.c = s.c) ∧ (writesCmp i = false → t.cmp = s.cmp) ∧
      (writesV i = false → t.v = s.v ∨ (t.v = false ∧ t.err = true)) := by
  by_cases hi : i = .endSeq
  · subst hi
    cases (exec_endSeq s).symm.trans h
    exact ⟨fun _ => rfl, fun _ => rfl, fun _ => .inl rfl⟩
  rcases exec_halted_or_committed hi h with ⟨e, rfl⟩ | ⟨ef, hef, rfl⟩
  · exact ⟨fun _ => rfl, fun _ => rfl, fun _ => .inr ⟨rfl, rfl⟩⟩
  obtain ⟨hc, hv, hcmp⟩ := ruleOf_unwritten hef
  refine ⟨fun hw => ?_, fun hw => ?_, fun hw => ?_⟩
  · rw [advance_c, commit_c, hc hw, Option.getD_none]
  · rw [advance_cmp, commit_cmp, hcmp hw, Option.getD_none]
  · by_cases hpc : s.pc = 255
    · exact .inr ⟨by rw [advance_v, commit_pc, if_pos hpc], by rw [advance_err, commit_pc, if_pos hpc]⟩
    · exact .inl (by rw [advance_v, commit_pc, if_neg hpc, commit_v, hv hw, Option.getD_none])

/-- Only an error halt sets ERR, and it clears V. -/
theorem exec_v_of_err_set {i : Instr} {s t : State} (h : exec i s = .next t) (hs : s.err = false)
    (ht : t.err = true) : t.v = false := by
  by_cases hi : i = .endSeq
  · subst hi
    cases (exec_endSeq s).symm.trans h
    exact absurd (hs.symm.trans ht) (by decide)
  rcases exec_halted_or_committed hi h with ⟨e, rfl⟩ | ⟨ef, -, rfl⟩
  · rfl
  · by_cases hpc : s.pc = 255
    · rw [advance_v, commit_pc, if_pos hpc]
    · rw [advance_err, commit_pc, if_neg hpc, commit_err, hs] at ht
      cases ht

/-- The V of a completed command is the one its effect holds. -/
theorem exec_v_of_completed {i : Instr} {s t : State} (hi : i ≠ .endSeq) (h : exec i s = .next t)
    (hdone : Completed s t) : ∃ ef, ruleOf i s = .ok ef ∧ t.v = ef.v.getD s.v := by
  obtain ⟨hpc, -⟩ := hdone
  rcases exec_halted_or_committed hi h with ⟨e, rfl⟩ | ⟨ef, hef, rfl⟩
  · exact absurd hpc.symm (pc_add_one_ne s.pc)
  · refine ⟨ef, hef, ?_⟩
    rw [advance_v, commit_pc, if_neg, commit_v]
    intro hlast
    rw [advance_pc, commit_pc, if_pos hlast, hlast] at hpc
    exact absurd hpc (by decide)

/-! ### The values written -/

theorem exec_add_c {d a b : Slot} {s t : State} (h : exec (.add d a b) s = .next t) :
    t.c = carryOut (slotValue s a) (slotValue s b) := by
  have hr : regionsInRange (.add d a b) = true := by
    simp [regionsInRange, readRegions, writeRegions, slotAt_inRange]
  cases (exec_commits (by nofun) hr rfl).symm.trans h
  rw [advance_c, commit_c, Option.getD_some]

theorem exec_sub_c {d a b : Slot} {s t : State} (h : exec (.sub d a b) s = .next t) :
    t.c = borrowOut (slotValue s a) (slotValue s b) := by
  have hr : regionsInRange (.sub d a b) = true := by
    simp [regionsInRange, readRegions, writeRegions, slotAt_inRange]
  cases (exec_commits (by nofun) hr rfl).symm.trans h
  rw [advance_c, commit_c, Option.getD_some]

theorem exec_cmp_cmp {a b : Slot} {s t : State} (h : exec (.cmp a b) s = .next t) :
    t.cmp = compare256 (slotValue s a) (slotValue s b) := by
  have hr : regionsInRange (.cmp a b) = true := by
    simp [regionsInRange, readRegions, writeRegions, slotAt_inRange]
  cases (exec_commits (by nofun) hr rfl).symm.trans h
  rw [advance_cmp, commit_cmp, Option.getD_some]

/-- The model's test in the natural numbers is the congruence of spec/42_curve.md R230 over the integers. -/
theorem onCurve_iff (x y : Nat) : onCurve x y = true ↔ AffineOnCurve x y := by
  have hcongr : y * y % secP = (x * x * x + 7) % secP ↔
      ((y : Int) ^ 2 - (x : Int) ^ 3 - 7) % (secP : Int) = 0 := by
    have hdiff : (y : Int) ^ 2 - (x : Int) ^ 3 - 7 = ((y * y : Nat) : Int) - ((x * x * x + 7 : Nat) : Int) := by
      push_cast
      ring
    rw [hdiff, ← Int.emod_eq_emod_iff_emod_sub_eq_zero]
    exact_mod_cast Iff.rfl
  simp only [onCurve, AffineOnCurve, Bool.and_eq_true, decide_eq_true_eq, beq_iff_eq, hcongr, and_assoc]

theorem exec_ecchk_v {a : Slot} {s t : State} (h : exec (.ecchk a) s = .next t) (hdone : Completed s t) :
    t.v = onCurve (slotValue s a) (nextSlotValue s a) := by
  obtain ⟨ef, hef, hv⟩ := exec_v_of_completed (by nofun) h hdone
  have hverdict : { v := some (onCurve (slotValue s a) (nextSlotValue s a)) } = ef := Except.ok.inj hef
  rw [hv, ← hverdict, Option.getD_some]

theorem exec_ecdsaVerify_v {a b c : Slot} {lows : Bool} {s t : State} (h : exec (.ecdsaVerify a b c lows) s = .next t)
    (hdone : Completed s t) :
    t.v = ecdsaAccepts (slotValue s a) (slotPoint s b) (slotValue s c) (nextSlotValue s c) lows := by
  obtain ⟨ef, hef, hv⟩ := exec_v_of_completed (by nofun) h hdone
  rw [ruleOf] at hef
  rw [hv, ruleEcdsaVerify_ok hef, Option.getD_some]

/-- Settles O14: what is left alone by `exec_keeps_unwritten`, then each value written by the lemma of its command. -/
theorem flagWriters : Obligations.FlagWriters := by
  intro i s t h
  obtain ⟨hc, hcmp, hv⟩ := exec_keeps_unwritten h
  refine ⟨fun hi => hc (writesC_eq_false hi), fun hi => hcmp (writesCmp_eq_false hi),
    fun hchk hver => hv (writesV_eq_false hchk hver), ?add, ?sub, ?cmp, ?ecchk, ?verify, exec_v_of_err_set h⟩
  case add => rintro d a b rfl; exact exec_add_c h
  case sub => rintro d a b rfl; exact exec_sub_c h
  case cmp => rintro a b rfl; exact exec_cmp_cmp h
  case ecchk => rintro a rfl hdone; rw [exec_ecchk_v h hdone]; exact onCurve_iff _ _
  case verify => rintro a b c lows rfl hdone; exact exec_ecdsaVerify_v h hdone

end Sys2Proof.Machine
end

section
/-! PROOFS. The interrupt line (spec/10_state.md R52). The sequencer only ever sets DONE, when a run ends, and never
touches DONEIE (`RunsOrHalts`); so what lowers the line is a reset or one of two host writes. -/

namespace Sys2Proof.Machine

/-! ### The sequencer and the line -/

/-- DONEIE is kept, and the run ends with DONE set or goes on with DONE as it was. -/
def RunsOrHalts (s t : State) : Prop :=
  t.doneie = s.doneie ∧ ((t.busy = false ∧ t.done = true) ∨ (t.busy = s.busy ∧ t.done = s.done))

/-- Every command does so, by the four ways it can end. -/
theorem exec_runsOrHalts {i : Instr} {s t : State} (h : exec i s = .next t) : RunsOrHalts s t := by
  obtain ⟨u, hu, ⟨-, hdoneie, -⟩, hend⟩ := everyCommandEndsInOneOfFourWays i s
  cases hu.symm.trans h
  refine ⟨hdoneie, ?_⟩
  rcases hend with ⟨-, -, hbusy, hdone, -⟩ | ⟨-, -, ⟨-, -, hbusy, hdone, -⟩, -⟩ |
    ⟨-, -, -, -, -, -, -, -, hbusy, hdone, -⟩ | ⟨-, -, -, -, -, -, -, hbusy, hdone, -⟩
  case inl => exact .inl ⟨hbusy, hdone⟩
  case inr.inl => exact .inr ⟨hbusy, hdone⟩
  case inr.inr.inl => exact .inl ⟨hbusy, hdone⟩
  case inr.inr.inr => exact .inl ⟨hbusy, hdone⟩

theorem sequencerStep_runsOrHalts {s t : State} (h : sequencerStep s = .next t) : RunsOrHalts s t := by
  rcases sequencerStep_cases h with ⟨-, rfl⟩ | ⟨-, rfl⟩ | ⟨-, i, hexec⟩
  · exact ⟨rfl, .inr ⟨rfl, rfl⟩⟩
  · exact ⟨rfl, .inl ⟨rfl, rfl⟩⟩
  · exact exec_runsOrHalts hexec

/-- A run that has ended shows on the line what DONEIE lets through. -/
theorem RunsOrHalts.ended {s t : State} (h : RunsOrHalts s t) (hs : s.busy = true) (ht : t.busy = false) :
    t.done = true ∧ irq t = s.doneie := by
  obtain ⟨hdoneie, ⟨-, hdone⟩ | ⟨hbusy, -⟩⟩ := h
  · exact ⟨hdone, by rw [irq, hdone, hdoneie, Bool.true_and]⟩
  · rw [ht, hs] at hbusy
    cases hbusy

theorem irq_eq_true {s : State} : irq s = true ↔ s.done = true ∧ s.doneie = true := by
  rw [irq, Bool.and_eq_true]

/-- The sequencer never lowers the line. -/
theorem RunsOrHalts.irq_kept {s t : State} (h : RunsOrHalts s t) (hs : irq s = true) : irq t = true := by
  rw [irq_eq_true] at hs ⊢
  obtain ⟨hdone, hdoneie⟩ := hs
  obtain ⟨hkept, ⟨-, hset⟩ | ⟨-, hsame⟩⟩ := h
  · exact ⟨hset, hkept.trans hdoneie⟩
  · exact ⟨hsame.trans hdone, hkept.trans hdoneie⟩

/-! ### A step while Running -/

/-- No input but a reset ends a run. -/
theorem inputStep_busy {x : Input} {s t : State} (hs : s.busy = true) (hpass : x ≠ .pass)
    (hwarm : x ≠ .warmReset) (hpower : ∀ dmInit cmInit, x ≠ .powerOnReset dmInit cmInit)
    (h : inputStep x s = .next t) : t.busy = true := by
  cases x with
  | pass => exact absurd rfl hpass
  | read offset => rw [hostReadStep_eq h]; exact hs
  | write offset lanes data =>
    obtain ⟨-, -, hkeeps⟩ := hostWrite_keeps offset (busWord lanes data s.freeCount) s
    obtain ⟨hbusy, -⟩ := hkeeps hs
    rw [hostWriteStep_eq h]
    exact hbusy
  | powerOnReset dmInit cmInit => exact absurd rfl (hpower dmInit cmInit)
  | warmReset => exact absurd rfl hwarm
  | releaseReset => cases h; exact hs

/-- A step that ends a run without a reset is the sequencer's. -/
theorem step_ended {s t : State} (hs : s.busy = true) (hwarm : ∀ rest, s.pending ≠ .warmReset :: rest)
    (hpower : ∀ dmInit cmInit rest, s.pending ≠ .powerOnReset dmInit cmInit :: rest) (h : step s = .next t)
    (ht : t.busy = false) : t.done = true ∧ irq t = s.doneie := by
  rcases step_cases h with ⟨-, hseq⟩ | ⟨x, rest, hp, hinput⟩
  · exact (sequencerStep_runsOrHalts hseq).ended hs ht
  by_cases hpass : x = .pass
  · subst hpass
    exact (sequencerStep_runsOrHalts (s := { s with pending := rest }) hinput).ended hs ht
  · have hbusy : t.busy = true := inputStep_busy (s := { s with pending := rest }) hs hpass
      (fun hx => hwarm rest (hx ▸ hp)) (fun dmInit cmInit hx => hpower dmInit cmInit rest (hx ▸ hp)) hinput
    exact absurd (hbusy.symm.trans ht) (by decide)

/-! ### Host writes and the line -/

theorem irq_of_done_false {s : State} (h : s.done = false) : irq s = false := by rw [irq, h, Bool.false_and]

theorem irq_of_doneie_false {s : State} (h : s.doneie = false) : irq s = false := by rw [irq, h, Bool.and_false]

/-- A CTRL write while Idle with START or ACK clears DONE, and so lowers the line. -/
theorem hostWrite_ctrl_irq {s : State} {data : HostWord} (hout : s.inReset = false) (hidle : s.busy = false)
    (hbits : data.getLsbD 0 = true ∨ data.getLsbD 1 = true) : irq (hostWrite 0x0008 data s) = false := by
  rw [hostWrite_ctrl hout rfl]
  by_cases hstart : data.getLsbD 0 = true
  · rw [ctrlWrite_start hidle hstart]
    exact irq_of_done_false (start_done s)
  · rw [ctrlWrite_ack hidle (by simpa using hstart) (hbits.resolve_left hstart)]
    exact irq_of_done_false rfl

/-- The host writes that lower the line: START or ACK in CTRL while Idle, or DONEIE cleared. -/
theorem hostWrite_lowers_irq {offset : Nat} {data : HostWord} {s : State} (hs : irq s = true)
    (ht : irq (hostWrite offset data s) = false) :
    (offset / 4 = 2 ∧ s.busy = false ∧ (data.getLsbD 0 = true ∨ data.getLsbD 1 = true)) ∨
    (offset / 4 = 6 ∧ data.getLsbD 0 = false) := by
  have hcase := hostWrite_case offset data s
  generalize hostWrite offset data s = t at hcase ht
  have hkept : irq t ≠ irq s := by rw [hs, ht]; decide
  cases hcase with
  | ignored => exact absurd rfl hkept
  | started _ hreg hidle hstart => exact .inl ⟨hreg, hidle, .inl hstart⟩
  | acked hreg hidle hack => exact .inl ⟨hreg, hidle, .inr hack⟩
  | pcSet _ => exact absurd rfl hkept
  | irqenSet hreg =>
    obtain ⟨hdone, -⟩ := irq_eq_true.mp hs
    rw [irq, hdone, Bool.true_and] at ht
    exact .inr ⟨hreg, ht⟩
  | dmSet _ _ _ => exact absurd rfl hkept
  | cmSet _ _ _ => exact absurd rfl hkept

/-- What lowers the line: a reset, or one of those writes. -/
def LowersIrq (s : State) (x : Input) : Prop :=
  x = .warmReset ∨ (∃ dmInit cmInit, x = .powerOnReset dmInit cmInit) ∨
    ∃ offset lanes data word, x = .write offset lanes data ∧ word = busWord lanes data s.freeCount ∧
      ((offset / 4 = 2 ∧ s.busy = false ∧ (word.getLsbD 0 = true ∨ word.getLsbD 1 = true)) ∨
        (offset / 4 = 6 ∧ word.getLsbD 0 = false))

theorem inputStep_lowers_irq {x : Input} {s t : State} (hs : irq s = true) (h : inputStep x s = .next t)
    (ht : irq t = false) : LowersIrq s x := by
  cases x with
  | pass => exact absurd ((sequencerStep_runsOrHalts h).irq_kept hs) (by rw [ht]; decide)
  | read offset =>
    rw [hostReadStep_eq h] at ht
    exact absurd (hs.symm.trans ht) (by decide)
  | write offset lanes data =>
    rw [hostWriteStep_eq h] at ht
    exact .inr (.inr ⟨offset, lanes, data, _, rfl, rfl, hostWrite_lowers_irq hs ht⟩)
  | powerOnReset dmInit cmInit => exact .inr (.inl ⟨dmInit, cmInit, rfl⟩)
  | warmReset => exact .inl rfl
  | releaseReset =>
    cases h
    exact absurd (hs.symm.trans ht) (by decide)

/-- A step that lowers the line takes an input that does. -/
theorem step_lowers_irq {s t : State} (hs : irq s = true) (h : step s = .next t) (ht : irq t = false) :
    ∃ x rest, s.pending = x :: rest ∧ LowersIrq s x := by
  rcases step_cases h with ⟨-, hseq⟩ | ⟨x, rest, hp, hinput⟩
  · exact absurd ((sequencerStep_runsOrHalts hseq).irq_kept hs) (by rw [ht]; decide)
  · exact ⟨x, rest, hp, inputStep_lowers_irq (s := { s with pending := rest }) hs hinput ht⟩

/-- Settles O23: the ends of runs by `RunsOrHalts`, the host's writes by their cases, the fall of the line by
`step_lowers_irq`. -/
theorem interruptLine : Obligations.InterruptLine := by
  refine ⟨fun _ => rfl, fun i s t hs h ht => (exec_runsOrHalts h).ended hs ht,
    fun s t hs hwarm hpower h ht => step_ended hs hwarm hpower h ht,
    fun s data hout hidle hbits => hostWrite_ctrl_irq hout hidle hbits, fun s data hout hclear => ?irqen,
    fun s t hs h ht => ?lowered, rfl⟩
  case irqen =>
    rw [hostWrite_irqen hout rfl]
    exact irq_of_doneie_false hclear
  case lowered =>
    obtain ⟨x, rest, hp, hx⟩ := step_lowers_irq hs h ht
    refine ⟨rest, ?_⟩
    rw [hp]
    rcases hx with rfl | ⟨dmInit, cmInit, rfl⟩ | ⟨offset, lanes, data, word, rfl, hword, hreg⟩
    · exact .inl rfl
    · exact .inr (.inl ⟨dmInit, cmInit, rfl⟩)
    · exact .inr (.inr ⟨offset, lanes, data, word, rfl, hword, hreg⟩)

end Sys2Proof.Machine
end

section
/-! PROOFS. The memory windows and the reserved offsets of the host port (spec/20_memory.md R86 to R91). First the words
of a memory: a window word is its four bytes, a command word is its two window words. Then one equation of the port for
each window and one for the reserved offsets; the four statements are assembled from the two. -/

namespace Sys2Proof.Machine

/-! ### The words of a memory -/

section words

variable (m : Memory) (a : Nat)

theorem le_readBytes_lt (n : Nat) : le (m.readBytes a n) < 2 ^ (8 * n) := by
  have hlt := le_lt (m.readBytes a n)
  rwa [Memory.readBytes_length, show 256 = 2 ^ 8 from rfl, ← Nat.pow_mul] at hlt

/-- The integer of a range read is that of its first `n` bytes and, above them, that of the rest. -/
theorem le_readBytes_add (n k : Nat) :
    le (m.readBytes a (n + k)) = le (m.readBytes a n) + 256 ^ n * le (m.readBytes (a + n) k) := by
  induction n generalizing a with
  | zero => simp [Memory.readBytes, le]
  | succ n ih =>
    rw [Nat.succ_add, Memory.readBytes, Memory.readBytes, le, le, ih, Nat.add_assoc a 1 n, Nat.add_comm 1 n]
    ring

theorem windowRead_toNat : (windowRead m a).toNat = le (m.readBytes a 4) :=
  Nat.mod_eq_of_lt (le_readBytes_lt m a 4)

theorem fetch_toNat (s : State) : (fetch s).toNat = le (s.cm.readBytes (8 * s.pc.toNat) 8) :=
  Nat.mod_eq_of_lt (le_readBytes_lt s.cm (8 * s.pc.toNat) 8)

/-- A byte and the string after it do not overlap as integers, so joining them is an OR. -/
theorem le_cons_eq_or (b : Byte) (bs : List Byte) : le (b :: bs) = b.toNat ||| le bs <<< 8 := by
  rw [Nat.or_comm, ← Nat.shiftLeft_add_eq_or_of_lt b.isLt, Nat.shiftLeft_eq, le]
  omega

/-- A byte in its lane of a host word loses no bit. -/
theorem laneOfByte_toNat (b : Byte) {lane : Nat} (h : lane ≤ 24) :
    ((b.setWidth 32 : HostWord) <<< lane).toNat = b.toNat <<< lane := by
  have hfit : b.toNat <<< lane < 2 ^ 32 := by
    rw [Nat.shiftLeft_eq]
    calc b.toNat * 2 ^ lane < 2 ^ 8 * 2 ^ lane := Nat.mul_lt_mul_of_pos_right b.isLt (Nat.two_pow_pos lane)
      _ ≤ 2 ^ 8 * 2 ^ 24 := Nat.mul_le_mul_left _ (Nat.pow_le_pow_right (by decide) h)
      _ = 2 ^ 32 := by decide
  rw [BitVec.toNat_shiftLeft, BitVec.toNat_setWidth_of_le (by decide), Nat.mod_eq_of_lt hfit]

/-- A window word is its four bytes in their lanes (spec/20_memory.md R87). -/
theorem windowRead_eq_or : windowRead m a =
    ((m.read a).setWidth 32 ||| (m.read (a + 1)).setWidth 32 <<< 8 |||
      (m.read (a + 2)).setWidth 32 <<< 16 ||| (m.read (a + 3)).setWidth 32 <<< 24) := by
  apply BitVec.eq_of_toNat_eq
  simp only [windowRead_toNat, BitVec.toNat_or, laneOfByte_toNat, BitVec.toNat_setWidth_of_le, Nat.reduceLeDiff,
    Memory.readBytes, le_cons_eq_or, Nat.shiftLeft_or_distrib, ← Nat.shiftLeft_add, Nat.or_assoc]
  simp [le]

/-- A window word is left alone by a write of a word apart from it. -/
theorem windowRead_windowWrite_apart {x : Nat} (data : HostWord) (h : x + 4 ≤ a ∨ a + 4 ≤ x) :
    windowRead (windowWrite m a data) x = windowRead m x := by
  rw [windowRead, windowWrite, Memory.readBytes_writeBytes_apart _ _ _ _ _ (by simpa using h), windowRead]

/-- A command word is its two window words, the high half at the higher offset (spec/20_memory.md R88). -/
theorem fetch_eq_halves (s : State) :
    fetch s = windowRead s.cm (8 * s.pc.toNat + 4) ++ windowRead s.cm (8 * s.pc.toNat) := by
  apply BitVec.eq_of_toNat_eq
  rw [BitVec.toNat_append, ← Nat.shiftLeft_add_eq_or_of_lt (BitVec.isLt _), Nat.shiftLeft_eq, fetch_toNat,
    windowRead_toNat, windowRead_toNat, le_readBytes_add s.cm (8 * s.pc.toNat) 4 4]
  omega

end words

/-! ### The halves of a command word -/

section halves

variable (s : State) (data : HostWord) (i : BitVec 8)

theorem fetch_low : (fetch s).extractLsb' 0 32 = windowRead s.cm (8 * s.pc.toNat) := by
  rw [fetch_eq_halves]
  exact BitVec.extractLsb'_append_eq_right

theorem fetch_high : (fetch s).extractLsb' 32 32 = windowRead s.cm (8 * s.pc.toNat + 4) := by
  rw [fetch_eq_halves]
  exact BitVec.extractLsb'_append_eq_left

theorem fetch_windowWrite_low :
    fetch { s with pc := i, cm := windowWrite s.cm (8 * i.toNat) data } =
      (fetch { s with pc := i }).extractLsb' 32 32 ++ data := by
  rw [fetch_high, fetch_eq_halves]
  dsimp only
  rw [windowRead_windowWrite, windowRead_windowWrite_apart _ _ _ (.inr (Nat.le_refl _))]

theorem fetch_windowWrite_high :
    fetch { s with pc := i, cm := windowWrite s.cm (8 * i.toNat + 4) data } =
      data ++ (fetch { s with pc := i }).extractLsb' 0 32 := by
  rw [fetch_low, fetch_eq_halves]
  dsimp only
  rw [windowRead_windowWrite, windowRead_windowWrite_apart _ _ _ (.inl (Nat.le_refl _))]

/-- A word written inside one command word leaves every other command word. -/
theorem fetch_windowWrite_other {j : BitVec 8} {a : Nat} (hj : j ≠ i) (hlow : 8 * i.toNat ≤ a)
    (hhigh : a + 4 ≤ 8 * i.toNat + 8) :
    fetch { s with pc := j, cm := windowWrite s.cm a data } = fetch { s with pc := j } := by
  have hne : j.toNat ≠ i.toNat := fun h => hj (BitVec.eq_of_toNat_eq h)
  simp only [fetch_eq_halves]
  rw [windowRead_windowWrite_apart _ _ _ (by omega), windowRead_windowWrite_apart _ _ _ (by omega)]

end halves

/-! ### The windows at the port -/

section windows

variable {s : State} {offset k : Nat} {data : HostWord}

theorem dmWindowWrite_busy {a : Nat} (h : s.busy = true) : dmWindowWrite a data s = s := by simp [dmWindowWrite, h]

theorem dmWindowWrite_idle {a : Nat} (h : s.busy = false) :
    dmWindowWrite a data s = { s with dm := windowWrite s.dm a data } := by simp [dmWindowWrite, h]

theorem cmWindowWrite_busy {a : Nat} (h : s.busy = true) : cmWindowWrite a data s = s := by simp [cmWindowWrite, h]

theorem cmWindowWrite_idle {a : Nat} (h : s.busy = false) :
    cmWindowWrite a data s = { s with cm := windowWrite s.cm a data } := by simp [cmWindowWrite, h]

theorem hostRead_dm (hout : s.inReset = false) (h : offset / 4 = 0x400 + k) (hk : k < 1024) :
    hostRead s offset = if s.busy then 0 else windowRead s.dm (4 * k) := by
  have hword : wordOffset offset = 0x1000 + 4 * k := by rw [wordOffset_eq h]; omega
  simp (disch := omega) only [hostRead, hword, hout, if_neg, if_pos, Bool.false_eq_true, if_false,
    Nat.add_sub_cancel_left]

theorem hostWrite_dm (hout : s.inReset = false) (h : offset / 4 = 0x400 + k) (hk : k < 1024) :
    hostWrite offset data s = dmWindowWrite (4 * k) data s := by
  have hword : wordOffset offset = 0x1000 + 4 * k := by rw [wordOffset_eq h]; omega
  simp (disch := omega) only [hostWrite, hword, hout, if_neg, if_pos, Bool.false_eq_true, if_false,
    Nat.add_sub_cancel_left]

theorem hostRead_cm (hout : s.inReset = false) (h : offset / 4 = 0x800 + k) (hk : k < 512) :
    hostRead s offset = if s.busy then 0 else windowRead s.cm (4 * k) := by
  have hword : wordOffset offset = 0x2000 + 4 * k := by rw [wordOffset_eq h]; omega
  simp (disch := omega) only [hostRead, hword, hout, if_neg, if_pos, Bool.false_eq_true, if_false,
    Nat.add_sub_cancel_left]

theorem hostWrite_cm (hout : s.inReset = false) (h : offset / 4 = 0x800 + k) (hk : k < 512) :
    hostWrite offset data s = cmWindowWrite (4 * k) data s := by
  have hword : wordOffset offset = 0x2000 + 4 * k := by rw [wordOffset_eq h]; omega
  simp (disch := omega) only [hostWrite, hword, hout, if_neg, if_pos, Bool.false_eq_true, if_false,
    Nat.add_sub_cancel_left]

/-- The offsets the core decodes to nothing: the gap after the registers, and all from the end of the CM window on
(spec/20_memory.md R89). -/
def ReservedOffset (offset : Nat) : Prop := (0x1C ≤ offset ∧ offset < 0x1000) ∨ 0x2800 ≤ offset

/-- The two low bits of an offset do not decide whether it is reserved. -/
theorem reservedOffset_wordOffset (h : ReservedOffset offset) : ReservedOffset (wordOffset offset) := by
  have hword : wordOffset offset = 4 * (offset / 4) := wordOffset_eq rfl
  unfold ReservedOffset at *
  omega

theorem hostRead_reserved (s : State) (h : ReservedOffset offset) : hostRead s offset = 0 := by
  rcases reservedOffset_wordOffset h with ⟨hlow, hhigh⟩ | hlow
  · simp (disch := omega) only [hostRead, if_neg, if_pos, ite_self]
  · simp (disch := omega) only [hostRead, if_neg, ite_self]

theorem hostWrite_reserved (s : State) (data : HostWord) (h : ReservedOffset offset) :
    hostWrite offset data s = s := by
  rcases reservedOffset_wordOffset h with ⟨hlow, hhigh⟩ | hlow
  · simp (disch := omega) only [hostWrite, if_neg, if_pos, ite_self]
  · simp (disch := omega) only [hostWrite, if_neg, ite_self]

end windows

/-! ### Host accesses as steps -/

section steps

variable {s : State} {offset : Nat} {rest : List Input}

/-- A read inside the aperture, taken as a step, drives the word read. -/
theorem step_hostRead (hin : offset < 16384) (hp : s.pending = .read offset :: rest) :
    step s = .next { s with pending := rest, busData := hostRead s offset } := by
  rw [step, nextMove, hp]
  exact if_pos hin

/-- A write inside the aperture, taken as a step, is `hostWrite` of the word on the bus, and draws the free bytes of its
disabled lanes. -/
theorem step_hostWrite {lanes : BitVec 4} {data : HostWord} (hin : offset < 16384)
    (hp : s.pending = .write offset lanes data :: rest) :
    step s = .next { hostWrite offset (busWord lanes data s.freeCount) { s with pending := rest } with
      freeCount := s.freeCount + lanesDrawn lanes } := by
  rw [step, nextMove, hp]
  exact if_pos hin

end steps

/-! ### The statements -/

/-- Settles O18: the port's equation for the DM window, then the bytes of the word by `windowRead_eq_or` and
`windowWrite_lane`. -/
theorem dmWindow : Obligations.DmWindow := by
  intro s k hk hout
  have hreg : (0x1000 + 4 * k) / 4 = 0x400 + k := by omega
  refine ⟨fun hidle => ⟨?_, fun data => ⟨windowWrite s.dm (4 * k) data, ?_, fun j hj => ?_, fun x hx => ?_⟩⟩,
    fun hbusy => ⟨?_, fun data => ?_⟩⟩
  · rw [hostRead_dm hout hreg hk, hidle]
    exact windowRead_eq_or s.dm (4 * k)
  · rw [hostWrite_dm hout hreg hk, dmWindowWrite_idle hidle]
  · exact windowWrite_lane s.dm (4 * k) j data hj
  · exact windowWrite_read s.dm (4 * k) x data hx
  · rw [hostRead_dm hout hreg hk, hbusy, if_pos rfl]
  · rw [hostWrite_dm hout hreg hk, dmWindowWrite_busy hbusy]

/-- Settles O19: the port's equation for the CM window at the words `2i` and `2i + 1`, which are the halves of
`CM[i]`. -/
theorem cmWindow : Obligations.CmWindow := by
  intro s i hout
  have hi := i.isLt
  have hreadLow : hostRead s (0x2000 + 8 * i.toNat) = if s.busy then 0 else windowRead s.cm (8 * i.toNat) := by
    rw [hostRead_cm (k := 2 * i.toNat) hout (by omega) (by omega), ← Nat.mul_assoc]
  have hreadHigh : hostRead s (0x2000 + 8 * i.toNat + 4) =
      if s.busy then 0 else windowRead s.cm (8 * i.toNat + 4) := by
    rw [hostRead_cm (k := 2 * i.toNat + 1) hout (by omega) (by omega), Nat.mul_add, ← Nat.mul_assoc]
  have hwriteLow (data : HostWord) : hostWrite (0x2000 + 8 * i.toNat) data s =
      cmWindowWrite (8 * i.toNat) data s := by
    rw [hostWrite_cm (k := 2 * i.toNat) hout (by omega) (by omega), ← Nat.mul_assoc]
  have hwriteHigh (data : HostWord) : hostWrite (0x2000 + 8 * i.toNat + 4) data s =
      cmWindowWrite (8 * i.toNat + 4) data s := by
    rw [hostWrite_cm (k := 2 * i.toNat + 1) hout (by omega) (by omega), Nat.mul_add, ← Nat.mul_assoc]
  constructor
  · intro hidle
    simp only [hreadLow, hreadHigh, hwriteLow, hwriteHigh, cmWindowWrite_idle hidle, hidle]
    exact ⟨(fetch_low { s with pc := i }).symm, (fetch_high { s with pc := i }).symm,
      fun data => ⟨_, rfl, fetch_windowWrite_low s data i, fun j hj =>
        fetch_windowWrite_other s data i hj (by omega) (by omega)⟩,
      fun data => ⟨_, rfl, fetch_windowWrite_high s data i, fun j hj =>
        fetch_windowWrite_other s data i hj (by omega) (by omega)⟩⟩
  · intro hbusy
    rw [hreadLow, hreadHigh, hbusy]
    exact ⟨rfl, rfl, fun data => ⟨(hwriteLow data).trans (cmWindowWrite_busy hbusy),
      (hwriteHigh data).trans (cmWindowWrite_busy hbusy)⟩⟩

/-- Settles O25: the step is a window write of the word on the bus, whose bytes `busWord_lane` gives lane by lane. -/
theorem byteLanes : Obligations.ByteLanes := by
  intro s k low lanes data rest hk hlow hout hidle hp
  have hstep := step_hostWrite (by omega) hp
  rw [hostWrite_dm (k := k) (s := { s with pending := rest }) hout (by omega) hk,
    dmWindowWrite_idle (s := { s with pending := rest }) hidle] at hstep
  have hlane (j : Nat) (hj : j < 4) :
      (windowWrite s.dm (4 * k) (busWord lanes data s.freeCount)).read (4 * k + j) =
        laneByte lanes data j (s.freeCount + j) := by
    rw [windowWrite_lane _ _ _ _ hj, busWord_lane _ _ _ _ hj]
  refine ⟨_, hstep, rfl, fun j hj hon => ?_, fun j hj hoff => ?_, fun x hx => windowWrite_read _ _ _ _ hx,
    rfl, rfl, rfl, rfl, rfl, rfl, ⟨rfl, rfl, rfl⟩, rfl, rfl, rfl⟩
  · exact (hlane j hj).trans (if_pos hon)
  · exact (hlane j hj).trans (if_neg (by rw [hoff]; decide))

/-- Settles O21: the reserved offsets by the port's equations, the accesses by their steps. -/
theorem reservedOffsetsAndReads : Obligations.ReservedOffsetsAndReads := by
  refine ⟨fun s offset h => ?_, fun s offset rest hin hp => step_hostRead hin hp,
    fun s offset data rest hin hp => step_wholeWordWrite hin hp⟩
  have hres : ReservedOffset offset := h.imp_right And.left
  exact ⟨hostRead_reserved s hres, fun data => hostWrite_reserved s data hres⟩

end Sys2Proof.Machine
end

section
/-! PROOFS. The command word (spec/30_encoding.md). The decoder finds the row of the opcode and checks the fields
against it; `LegalFor` is what it checks, and `decodeFields_eq_ok_iff` says once when it answers a command. Two facts about
the table then give both directions of the code: every command's fields are legal for a row that builds it again
(`exists_row_fieldsOf`), and a row builds a command whose fields are the ones the row uses (`fieldsOf_build`). -/

namespace Sys2Proof

/-! ### When the decoder answers a command -/

/-- The row is the one the decoder finds for these fields, and they pass the checks of spec/30_encoding.md R114 (1) to
(3) against it. -/
structure LegalFor (r : OpRow) (x : Fields) : Prop where
  row : opTable.find? (fun r => r.opc == x.opc) = some r
  unused : unusedFieldsZero r.use x = true
  flags : flagBitsLegal r.use x = true

theorem LegalFor.mem {r : OpRow} {x : Fields} (h : LegalFor r x) : r ∈ opTable := List.mem_of_find?_eq_some h.row

theorem LegalFor.opc_eq {r : OpRow} {x : Fields} (h : LegalFor r x) : r.opc = x.opc := by
  simpa using List.find?_some h.row

/-- The decoder answers a command exactly when the fields are legal for a row that builds it, and it is well-formed,
which is the check of spec/30_encoding.md R114 (4). -/
theorem decodeFields_eq_ok_iff {x : Fields} {i : Instr} :
    decodeFields x = .ok i ↔ ∃ r, LegalFor r x ∧ i.wellFormed = true ∧ r.build x = i := by
  unfold decodeFields
  constructor
  · intro h
    split at h
    next => cases h
    next r hrow =>
      split at h
      next => cases h
      next hunused =>
        split at h
        next => cases h
        next hflags =>
          split at h
          next => cases h
          next hwf =>
            cases h
            exact ⟨r, ⟨hrow, by simpa using hunused, by simpa using hflags⟩, by simpa using hwf, rfl⟩
  · rintro ⟨r, ⟨hrow, hunused, hflags⟩, hwf, rfl⟩
    rw [hrow]
    simp [hunused, hflags, hwf]

/-- An opcode that is in no row is reserved (spec/30_encoding.md R118). -/
theorem decodeFields_reserved {x : Fields} (h : ∀ r ∈ opTable, r.opc ≠ x.opc) :
    decodeFields x = .error .reservedOpcode := by
  have hnone : opTable.find? (fun r => r.opc == x.opc) = none := by simpa using h
  rw [decodeFields, hnone]

/-- A word that decodes to no command is refused. -/
theorem exists_error_of_not_ok {w : CmdWord} (h : ∀ i, decode w ≠ .ok i) : ∃ e, decode w = .error e := by
  cases hw : decode w with
  | error e => exact ⟨e, rfl⟩
  | ok i => exact absurd hw (h i)

/-! ### The table against `fieldsOf` -/

/-- The flag bits are legal when F is 0, or when it is 1 and the opcode uses it (spec/30_encoding.md R114 (3)). -/
theorem flagBitsLegal_iff {u : FieldUse} {x : Fields} :
    flagBitsLegal u x = true ↔ x.f = 0 ∨ (u.f = true ∧ x.f = 1) := by
  simp [flagBitsLegal]

theorem flagField_legal {u : FieldUse} {x : Fields} {f0 : Bool} (hu : u.f = true) (hx : x.f = flagField f0) :
    flagBitsLegal u x = true := by
  rw [flagBitsLegal_iff, hx]
  cases f0 with
  | false => exact .inl rfl
  | true => exact .inr ⟨hu, rfl⟩

theorem flagField_getLsbD (f0 : Bool) : (flagField f0).getLsbD 0 = f0 := by cases f0 <;> rfl

/-- Every command's fields are legal for a row that builds the command again. The checks only compute, but for the three
commands that carry a flag. -/
theorem exists_row_fieldsOf (i : Instr) : ∃ r, LegalFor r (fieldsOf i) ∧ r.build (fieldsOf i) = i := by
  cases i with
  | pkenc d a compressed =>
    exact ⟨_, ⟨rfl, rfl, flagField_legal rfl rfl⟩, congrArg (Instr.pkenc d a) (flagField_getLsbD compressed)⟩
  | ecdsaSign d a b c lows =>
    exact ⟨_, ⟨rfl, rfl, flagField_legal rfl rfl⟩, congrArg (Instr.ecdsaSign d a b c) (flagField_getLsbD lows)⟩
  | ecdsaVerify a b c lows =>
    exact ⟨_, ⟨rfl, rfl, flagField_legal rfl rfl⟩, congrArg (Instr.ecdsaVerify a b c) (flagField_getLsbD lows)⟩
  | _ => exact ⟨_, ⟨rfl, rfl, rfl⟩, rfl⟩

/-- The fields that a row uses, the others zero, under the row's own opcode. -/
def OpRow.usedFields (x : Fields) (r : OpRow) : Fields :=
  { opc := r.opc
    d := if r.use.d then x.d else 0
    a := if r.use.a then x.a else 0
    b := if r.use.b then x.b else 0
    c := if r.use.c then x.c else 0
    l1 := if r.use.l1 then x.l1 else 0
    l2 := if r.use.l2 then x.l2 else 0
    f := if r.use.f then flagField (x.f.getLsbD 0) else 0 }

/-- The command that a row builds carries the fields that the row uses: the table of spec/30_encoding.md R112 read
against the encoder, row by row. -/
theorem fieldsOf_build (x : Fields) {r : OpRow} (h : r ∈ opTable) : fieldsOf (r.build x) = r.usedFields x :=
  have htable : opTable.map (fun r => fieldsOf (r.build x)) = opTable.map (OpRow.usedFields x) := rfl
  List.map_inj_left.mp htable r h

/-- A field is what is kept of it when it is used or zero. -/
theorem ite_used_eq {n : Nat} {used : Bool} {v : BitVec n} (h : (used || v == 0) = true) :
    (if used then v else 0) = v := by
  cases used with
  | true => rfl
  | false => exact (by simpa using h : v = 0).symm

/-- Legal flag bits are F.0 alone, or zero where the opcode does not use F. -/
theorem ite_usedFlag_eq {u : FieldUse} {x : Fields} (h : flagBitsLegal u x = true) :
    (if u.f then flagField (x.f.getLsbD 0) else 0) = x.f := by
  rcases flagBitsLegal_iff.mp h with h0 | ⟨hu, h1⟩
  · rw [h0]
    exact ite_self _
  · rw [h1, hu]
    rfl

/-- Legal fields carry nothing but what their row uses (spec/30_encoding.md R114 (2), (3)). -/
theorem LegalFor.usedFields_eq {r : OpRow} {x : Fields} (h : LegalFor r x) : r.usedFields x = x := by
  have hunused := h.unused
  simp only [unusedFieldsZero, Bool.and_eq_true] at hunused
  obtain ⟨⟨⟨⟨⟨hd, ha⟩, hb⟩, hc⟩, hl1⟩, hl2⟩ := hunused
  rw [OpRow.usedFields, h.opc_eq, ite_used_eq hd, ite_used_eq ha, ite_used_eq hb, ite_used_eq hc, ite_used_eq hl1,
    ite_used_eq hl2, ite_usedFlag_eq h.flags]

/-! ### The fields of a word, as integers -/

section word

variable (w : CmdWord)

theorem splitWord_opc_toNat : (splitWord w).opc.toNat = w.toNat / 2 ^ 56 := by
  have hw := w.isLt
  simp only [splitWord, BitVec.extractLsb'_toNat, Nat.shiftRight_eq_div_pow]
  omega

theorem splitWord_l1_toNat : (splitWord w).l1.toNat = w.toNat / 2 ^ 16 % 4096 := by
  simp only [splitWord, BitVec.extractLsb'_toNat, Nat.shiftRight_eq_div_pow]

theorem splitWord_f_toNat : (splitWord w).f.toNat = w.toNat % 16 := by
  simp only [splitWord, BitVec.extractLsb'_toNat, Nat.shiftRight_zero]

/-- Joining a word's fields gives the word back: the eight fields of spec/30_encoding.md R111 cover all 64 bits. -/
theorem joinFields_splitWord : joinFields (splitWord w) = w := by
  have hw := w.isLt
  apply BitVec.eq_of_toNat_eq
  rw [joinFields_toNat]
  simp only [splitWord, BitVec.extractLsb'_toNat, Nat.shiftRight_eq_div_pow]
  omega

end word

/-! ### The code, both ways -/

/-- Settles O1: a command's word splits into its fields, and the row they are legal for builds the command. -/
theorem decodeOfEncode : Obligations.DecodeOfEncode := by
  intro i hwf
  obtain ⟨r, hlegal, hbuild⟩ := exists_row_fieldsOf i
  rw [decode_encode_fields]
  exact decodeFields_eq_ok_iff.mpr ⟨r, hlegal, hwf, hbuild⟩

/-- Settles O2: the fields of the command built are those its row uses, which are all that a legal word has. -/
theorem encodeOfDecode : Obligations.EncodeOfDecode := by
  intro w i h
  obtain ⟨r, hlegal, hwf, rfl⟩ := decodeFields_eq_ok_iff.mp h
  refine ⟨hwf, ?_⟩
  rw [encode, fieldsOf_build _ hlegal.mem, hlegal.usedFields_eq, joinFields_splitWord]

/-! ### Words that are refused -/

/-- The opcodes of the table, as spec/30_encoding.md R118 lists them. -/
theorem opTable_opcodes : opTable.map (fun r => r.opc.toNat) =
    [0x01, 0x02, 0x03, 0x10, 0x11, 0x12, 0x13, 0x14, 0x15, 0x16, 0x17, 0x18, 0x19, 0x1A, 0x1B, 0x1C, 0x1D, 0x20, 0x21,
      0x22, 0x23, 0x24, 0x25, 0x26, 0x30, 0x31, 0x40, 0x41, 0x42, 0x43, 0x44, 0x45, 0x46, 0x47, 0x48, 0x50, 0x51, 0x52,
      0x53, 0x54, 0x55] := rfl

/-- The opcodes that use F are those of PKENC, ECDSA_SIGN and ECDSA_VERIFY (spec/30_encoding.md R112). -/
theorem opcode_of_usesFlag : ∀ r ∈ opTable, r.use.f = true → r.opc.toNat ∈ [0x25, 0x30, 0x31] := by decide

/-- The flag bits of legal fields: F is 0, or it is 1 and the opcode is one that uses it. -/
theorem LegalFor.flag_cases {r : OpRow} {x : Fields} (h : LegalFor r x) :
    x.f.toNat = 0 ∨ (x.f.toNat = 1 ∧ x.opc.toNat ∈ [0x25, 0x30, 0x31]) := by
  rcases flagBitsLegal_iff.mp h.flags with h0 | ⟨huse, h1⟩
  · exact .inl (by rw [h0]; rfl)
  · exact .inr ⟨by rw [h1]; rfl, h.opc_eq ▸ opcode_of_usesFlag r h.mem huse⟩

/-- Opcode 0x03 is LDC's. -/
theorem LegalFor.build_ldc {r : OpRow} {x : Fields} (h : LegalFor r x) (hopc : x.opc = 0x03) :
    r.build x = .ldc x.d x.l1 := by
  have hrow := h.row
  rw [hopc] at hrow
  cases hrow
  rfl

/-- Settles O3: the first clause reads the opcodes off the table; in the others a command decoded would contradict what
`LegalFor` says of F, or `wellFormed` of LDC's index. -/
theorem illegalWords : Obligations.IllegalWords := by
  intro w
  have hopc := splitWord_opc_toNat w
  have hl1 := splitWord_l1_toNat w
  have hf := splitWord_f_toNat w
  refine ⟨fun hreserved => ?reserved, fun hhigh => exists_error_of_not_ok fun i h => ?highFlags,
    fun hodd hnoFlag => exists_error_of_not_ok fun i h => ?lowFlag,
    fun hldc hindex => exists_error_of_not_ok fun i h => ?ldcIndex⟩
  case reserved =>
    refine decodeFields_reserved fun r hr heq => hreserved ?_
    rw [← opTable_opcodes, ← hopc, ← heq]
    exact List.mem_map_of_mem hr
  all_goals obtain ⟨r, hlegal, hwf, hbuild⟩ := decodeFields_eq_ok_iff.mp h
  case highFlags => rcases hlegal.flag_cases with h0 | ⟨h1, -⟩ <;> omega
  case lowFlag =>
    rcases hlegal.flag_cases with h0 | ⟨-, huses⟩
    · omega
    · exact hnoFlag (hopc ▸ huses)
  case ldcIndex =>
    have hthree : (splitWord w).opc = 0x03 := BitVec.eq_of_toNat_eq (hopc.trans hldc)
    rw [← hbuild, hlegal.build_ldc hthree] at hwf
    have hle : (splitWord w).l1.toNat ≤ 4 := of_decide_eq_true hwf
    omega

/-- Settles O4: each example's encoding computes, and `decodeOfEncode` decodes it; the zero word has opcode 0, which is
reserved. -/
theorem workedExamplesDecode : Obligations.WorkedExamplesDecode := by
  have hmodmul : encode (.modmul 3 1 2 0) = 0x1606041000000000 := rfl
  have hupdate : encode (.sha256Update 4 10 11) = 0x41001000A00B0000 := rfl
  have hend : encode .endSeq = 0x0100000000000000 := rfl
  have hldc : encode (.ldc 5 1) = 0x030A000000010000 := rfl
  exact ⟨hmodmul ▸ decodeOfEncode _ rfl, hmodmul, hupdate ▸ decodeOfEncode _ rfl, hupdate,
    hend ▸ decodeOfEncode _ rfl, hldc ▸ decodeOfEncode _ rfl, (illegalWords 0).1 (by decide)⟩

end Sys2Proof

namespace Sys2Proof.Machine

/-! ### The two halts of the word: RANGE and ILLEGAL -/

theorem regionsInRange_eq_false_iff (i : Instr) :
    regionsInRange i = false ↔ ∃ r ∈ readRegions i ++ writeRegions i, 4096 < r.start + r.size := by
  simp only [regionsInRange, List.all_eq_false, Region.inRange, decide_eq_true_eq, Nat.not_le]

/-- An empty byte string is in range at every slot (spec/30_encoding.md R116). -/
theorem bytesAt_zero_inRange (x : Slot) : (bytesAt x 0).inRange = true := by
  have hx := x.isLt
  refine decide_eq_true (?_ : 32 * x.toNat + 0 ≤ 4096)
  omega

/-- Settles O16: END has no region, so a command out of range is another, and `exec_outOfRange` speaks of it. -/
theorem rangeCheck : Obligations.RangeCheck := by
  refine ⟨regionsInRange_eq_false_iff, fun i s hr => exec_outOfRange i s ?_ hr, slotsAt_inRange, bytesAt_zero_inRange⟩
  rintro rfl
  cases hr

theorem step_of_no_input {s : State} (h : s.pending = []) : step s = sequencerStep s := by
  rw [step, nextMove, h]

theorem sequencerStep_illegal {s : State} {e : DecodeError} (hbusy : s.busy = true)
    (h : decode (fetch s) = .error e) : sequencerStep s = .next (haltError .illegal s.pc s) := by
  rw [sequencerStep, if_pos hbusy, h]

/-- Settles O6: the step is the sequencer's move, and that is the error halt. -/
theorem illegalWordHalts : Obligations.IllegalWordHalts := by
  intro s e hbusy hp hillegal
  exact ⟨_, (step_of_no_input hp).trans (sequencerStep_illegal hbusy hillegal), errorHalted_haltError .illegal s⟩

end Sys2Proof.Machine
end

section
/-! PROOFS. The sequencer (spec/40_sequencer.md): the command it fetches, its own commands END, NOP and LDC, OVERRUN at
the last index, and the end of every run. The last is a measure, `stepsLeft`, that each step of a Running core lowers
until it halts. -/

namespace Sys2Proof.Machine

/-! ### The command fetched -/

theorem sequencerStep_of_decode {s : State} {i : Instr} (hbusy : s.busy = true) (h : decode (fetch s) = .ok i) :
    sequencerStep s = exec i s := by
  rw [sequencerStep, if_pos hbusy, h]

theorem sequencerStep_idle {s : State} (hidle : s.busy = false) : sequencerStep s = .next s := by
  rw [sequencerStep, hidle]
  rfl

theorem step_of_input {s : State} {x : Input} {rest : List Input} (h : s.pending = x :: rest) :
    step s = inputStep x { s with pending := rest } := by
  rw [step, nextMove, h]

/-- Settles O5: with no input, or with `pass`, the step is the sequencer's move; the input list is no part of what it
fetches. -/
theorem stepRunsTheDecodedCommand : Obligations.StepRunsTheDecodedCommand := by
  refine ⟨fun s i hbusy hdecode => ⟨fun hp => ?noInput, fun rest hp => ?pass⟩, fun s hidle hp => ?idle⟩
  case noInput => exact (step_of_no_input hp).trans (sequencerStep_of_decode hbusy hdecode)
  case pass => exact (step_of_input hp).trans (sequencerStep_of_decode (s := { s with pending := rest }) hbusy hdecode)
  case idle => exact (step_of_no_input hp).trans (sequencerStep_idle hidle)

/-! ### END and NOP -/

/-- PC moves on modulo 256 (spec/40_sequencer.md R151). -/
theorem pc_add_one_eq_ofNat (pc : BitVec 8) : pc + 1 = BitVec.ofNat 8 ((pc.toNat + 1) % 256) := by
  apply BitVec.eq_of_toNat_eq
  simp

/-- NOP commits an empty effect, which changes nothing, and leaves the rest to the sequencer. -/
theorem exec_nop (s : State) : exec .nop s = .next (advance s) := rfl

/-- Settles O26: END is one clean halt; NOP is the sequencer's `advance` alone, on each side of the last index. -/
theorem endAndNop : Obligations.EndAndNop := by
  intro s
  refine ⟨hasForm_of_fields _ _ _ rfl rfl, hasForm_of_fields _ _ _ rfl rfl, ?_, fun hpc => ?_, fun hpc => ?_⟩
  · rw [exec_endSeq, pc_add_one_eq_ofNat]
    rfl
  · rw [exec_nop, advance_of_ne_last s hpc]
  · rw [exec_nop, advance_of_last s hpc]
    rfl

/-! ### LDC -/

/-- Every constant fits a slot. -/
theorem ldcTable_getD_lt (k : Nat) : ldcTable.getD k 0 < 2 ^ 256 := by
  have hall : ∀ v ∈ ldcTable, v < 2 ^ 256 := by decide
  rw [List.getD_eq_getElem?_getD]
  cases h : ldcTable[k]? with
  | none => exact Nat.two_pow_pos 256
  | some v => exact hall v (List.mem_of_getElem? h)

theorem ruleLdc_constant (d : Slot) {index : Len} (s : State) (h : index.toNat ≤ 4) :
    ruleLdc d index s = writesResult [putSlot d (ldcTable.getD index.toNat 0)] := if_neg (Nat.not_lt.mpr h)

theorem ruleLdc_illegal (d : Slot) {index : Len} (s : State) (h : 4 < index.toNat) :
    ruleLdc d index s = .error .illegal := if_pos h

/-- RANGE cannot occur: D is one slot (spec/40_sequencer.md R157). -/
theorem ldc_inRange (d : Slot) (index : Len) : regionsInRange (.ldc d index) = true :=
  List.all_eq_true.mpr fun r hr => by rw [List.mem_singleton.mp hr]; exact slotAt_inRange d

/-- Settles O27: LDC is always in range, so its rule decides; the slot written reads back the constant of the table. -/
theorem ldcLoadsTheConstant : Obligations.LdcLoadsTheConstant := by
  intro d index s
  refine ⟨hasForm_of_fields _ _ _ rfl rfl, fun hle hpc => ?_, fun hgt => ?_⟩
  · exact exec_completesWriting _ s _ _ nofun (ldc_inRange d index) (ruleLdc_constant d s hle) hpc fun t ht =>
      slotValue_putSlot s t d _ (ldcTable_getD_lt index.toNat) ht
  · exact exec_halts _ s .illegal nofun (ldc_inRange d index) (ruleLdc_illegal d s hgt)

/-! ### OVERRUN -/

/-- At the last index a command that commits `ef` elsewhere ends as it does there, but for the halt with OVERRUN
(spec/40_sequencer.md R153). -/
theorem advance_commit_at_last (ef : Effect) {s : State} (hpc : s.pc ≠ 255) :
    advance (commit ef { s with pc := 255 }) = { advance (commit ef s) with
      pc := 255, errpc := 255, errcode := .overrun, err := true, v := false, busy := false, done := true } := by
  rw [advance_of_last (commit ef { s with pc := 255 }) rfl, advance_of_ne_last (commit ef s) hpc]
  rfl

/-- Settles O15: PC is not part of what decides the command's outcome (`exec_outcome`), so what it commits elsewhere it
commits at the last index. -/
theorem overrunAfterTheCommit : Obligations.OverrunAfterTheCommit := by
  intro i s t hi hpc h ⟨hmoved, _⟩
  rcases exec_outcome i s hi with ⟨e, -, -, hexec⟩ | ⟨ef, -, hexec⟩
  · cases (hexec s rfl).symm.trans h
    exact absurd (errorHalted_haltError e s) (not_errorHalted_of_pc_moved e s _ hmoved)
  · cases (hexec s rfl).symm.trans h
    rw [hexec { s with pc := 255 } rfl, advance_commit_at_last ef hpc]

/-! ### The end of every run -/

/-- BUSY clear and DONE set (spec/40_sequencer.md R156). -/
def Halted (s : State) : Prop := s.busy = false ∧ s.done = true

/-- An input that cuts no run short: no reset, and no access outside the aperture. -/
def KeepsRunning (x : Input) : Prop :=
  x ≠ .warmReset ∧ (∀ dmInit cmInit, x ≠ .powerOnReset dmInit cmInit) ∧
    (∀ offset, x = .read offset → offset < 0x4000) ∧
    (∀ offset lanes data, x = .write offset lanes data → offset < 0x4000)

/-- The most steps a run can still take: one for each input that waits and one for each index from PC up. -/
def stepsLeft (s : State) : Nat := s.pending.length + (256 - s.pc.toNat)

theorem stepsLeft_pos (s : State) : 0 < stepsLeft s := by
  have := s.pc.isLt
  unfold stepsLeft
  omega

/-- The run goes on in `t`, where the same inputs wait, with PC where it was. -/
def StaysAt (s t : State) : Prop := t.busy = true ∧ t.pending = s.pending ∧ t.pc = s.pc

/-- The run goes on in `t`, where the same inputs wait, at the next index. -/
def MovesOn (s t : State) : Prop := t.busy = true ∧ t.pending = s.pending ∧ s.pc ≠ 255 ∧ t.pc = s.pc + 1

/-- The run goes on in `t` with fewer steps left, and no input waits that did not wait before. -/
def Progresses (s t : State) : Prop := t.busy = true ∧ t.pending ⊆ s.pending ∧ stepsLeft t < stepsLeft s

/-- Below the last index PC does not wrap, so moving it on lowers the measure. -/
theorem MovesOn.progresses {s t : State} (h : MovesOn s t) : Progresses s t := by
  obtain ⟨hbusy, hpending, hlast, hpc⟩ := h
  have hindices : 256 - (s.pc + 1).toNat < 256 - s.pc.toNat := by bv_omega
  refine ⟨hbusy, by rw [hpending]; exact List.Subset.refl _, ?_⟩
  rw [stepsLeft, stepsLeft, hpending, hpc]
  omega

section input

variable {s t : State} {x : Input} {rest : List Input}

/-- Taking an input lowers the measure by one. -/
theorem stepsLeft_of_input (h : s.pending = x :: rest) : stepsLeft s = stepsLeft { s with pending := rest } + 1 := by
  simp only [stepsLeft, h, List.length_cons]
  omega

/-- An input taken is progress, where PC stays. -/
theorem StaysAt.progresses_of_input (hp : s.pending = x :: rest) (h : StaysAt { s with pending := rest } t) :
    Progresses s t := by
  obtain ⟨hbusy, hpending, hpc⟩ := h
  refine ⟨hbusy, by rw [hpending, hp]; exact List.subset_cons_self x rest, ?_⟩
  rw [stepsLeft_of_input hp, stepsLeft, stepsLeft, hpending, hpc]
  omega

/-- An input taken and progress without it are progress. -/
theorem Progresses.of_input (hp : s.pending = x :: rest) (h : Progresses { s with pending := rest } t) :
    Progresses s t := by
  obtain ⟨hbusy, hpending, hless⟩ := h
  refine ⟨hbusy, by rw [hp]; exact List.subset_cons_of_subset x hpending, ?_⟩
  rw [stepsLeft_of_input hp]
  omega

end input

/-- Each of the four ways a command ends halts the run or moves PC on. -/
theorem exec_halts_or_movesOn (i : Instr) {s : State} (hbusy : s.busy = true) :
    ∃ t, exec i s = .next t ∧ (Halted t ∨ MovesOn s t) := by
  obtain ⟨t, ht, ⟨-, -, -, hpending, -⟩, hend⟩ := everyCommandEndsInOneOfFourWays i s
  refine ⟨t, ht, ?_⟩
  rcases hend with ⟨-, -, hidle, hdone, -⟩ | ⟨-, hlast, ⟨hpc, -, hsame, -⟩, -⟩ |
    ⟨-, -, -, -, -, -, -, -, hidle, hdone, -⟩ | ⟨-, -, -, -, -, -, -, hidle, hdone, -⟩
  case inl => exact .inl ⟨hidle, hdone⟩
  case inr.inl => exact .inr ⟨hsame.trans hbusy, hpending, hlast, hpc⟩
  case inr.inr.inl => exact .inl ⟨hidle, hdone⟩
  case inr.inr.inr => exact .inl ⟨hidle, hdone⟩

/-- So does the sequencer's move, an illegal word being an error halt. -/
theorem sequencerStep_halts_or_movesOn {s : State} (hbusy : s.busy = true) :
    ∃ t, sequencerStep s = .next t ∧ (Halted t ∨ MovesOn s t) := by
  cases h : decode (fetch s) with
  | error e => exact ⟨_, sequencerStep_illegal hbusy h, .inl ⟨rfl, rfl⟩⟩
  | ok i =>
    rw [sequencerStep_of_decode hbusy h]
    exact exec_halts_or_movesOn i hbusy

/-- An input other than `pass` leaves a Running core where it was: host writes of PC are ignored while BUSY
(spec/10_state.md R45). -/
theorem inputStep_staysAt {x : Input} {s : State} (hbusy : s.busy = true) (hx : KeepsRunning x) (hpass : x ≠ .pass) :
    ∃ t, inputStep x s = .next t ∧ StaysAt s t := by
  obtain ⟨hwarm, hpower, hread, hwrite⟩ := hx
  cases x with
  | pass => exact absurd rfl hpass
  | read offset => exact ⟨_, if_pos (hread offset rfl), hbusy, rfl, rfl⟩
  | write offset lanes data =>
    obtain ⟨-, hpending, hrun⟩ := hostWrite_keeps offset (busWord lanes data s.freeCount) s
    obtain ⟨hstill, hpc, -⟩ := hrun hbusy
    exact ⟨_, if_pos (hwrite offset lanes data rfl), hstill, hpending, hpc⟩
  | powerOnReset dmInit cmInit => exact absurd rfl (hpower dmInit cmInit)
  | warmReset => exact absurd rfl hwarm
  | releaseReset => exact ⟨_, rfl, hbusy, rfl, rfl⟩

/-- Every step of a Running core halts the run or lowers the measure: by the index it moves PC on, by the input it
takes, or by both where the input is `pass`. -/
theorem step_halts_or_progresses {s : State} (hbusy : s.busy = true) (hinputs : ∀ x ∈ s.pending, KeepsRunning x) :
    ∃ t, step s = .next t ∧ (Halted t ∨ Progresses s t) := by
  cases hp : s.pending with
  | nil =>
    obtain ⟨t, ht, hend⟩ := sequencerStep_halts_or_movesOn hbusy
    exact ⟨t, (step_of_no_input hp).trans ht, hend.imp_right MovesOn.progresses⟩
  | cons x rest =>
    rw [step_of_input hp]
    by_cases hpass : x = .pass
    · subst hpass
      obtain ⟨t, ht, hend⟩ := sequencerStep_halts_or_movesOn (s := { s with pending := rest }) hbusy
      exact ⟨t, ht, hend.imp_right fun hmoved => hmoved.progresses.of_input hp⟩
    · have hx : KeepsRunning x := hinputs x (hp ▸ List.mem_cons_self)
      obtain ⟨t, ht, hstays⟩ := inputStep_staysAt (s := { s with pending := rest }) hbusy hx hpass
      exact ⟨t, ht, .inr (hstays.progresses_of_input hp)⟩

/-- A run of one step more goes on from the state the step gives. -/
theorem run_succ {M : Host.Core} {s t : M.State} (k : Nat) (h : M.step s = .next t) : M.run (k + 1) s = M.run k t := by
  rw [Host.Core.run, h]

/-- The run halts within its measure: induction on a bound `n` of the steps left. -/
theorem exists_run_halted (n : Nat) (s : State) (hn : stepsLeft s ≤ n) (hbusy : s.busy = true)
    (hinputs : ∀ x ∈ s.pending, KeepsRunning x) :
    ∃ k t, k ≤ n ∧ Host.Core.run core k s = .next t ∧ Halted t := by
  induction n generalizing s with
  | zero => exact absurd (stepsLeft_pos s) (by omega)
  | succ n ih =>
    obtain ⟨t, ht, hhalted | ⟨hrunning, hpending, hless⟩⟩ := step_halts_or_progresses hbusy hinputs
    · exact ⟨1, t, by omega, run_succ 0 ht, hhalted⟩
    · obtain ⟨k, u, hk, hrun, hhalted⟩ := ih t (by omega) hrunning fun x hx => hinputs x (hpending hx)
      exact ⟨k + 1, u, by omega, (run_succ k ht).trans hrun, hhalted⟩

/-- Settles O11: the bound stated is the measure `stepsLeft`. -/
theorem everyRunHalts : Obligations.EveryRunHalts :=
  fun s hbusy hinputs => exists_run_halted (stepsLeft s) s (Nat.le_refl _) hbusy hinputs

end Sys2Proof.Machine
end

section
/-! PROOFS. The engines of spec/41_bigint_modular.md, in terms of natural numbers alone: each computes the value its rule
names. Every loop has its invariant, for any number of rounds, and a measure that shows the rounds allowed are enough. -/

namespace Sys2Proof.Machine

/-- The product of two 256-bit numbers has 512 bits. -/
theorem two_pow_512 : (2 : Nat) ^ 512 = 2 ^ 256 * 2 ^ 256 := by
  rw [← pow_add]

/-! ### The residue of a difference -/

/-- The residue is the integer one (spec/00_scope.md R8). -/
theorem subMod_intCast (a b : Nat) {m : Nat} (hm : m ≠ 0) : (subMod a b m : Int) = ((a : Int) - (b : Int)) % (m : Int) :=
  Int.toNat_of_nonneg (Int.emod_nonneg _ (Int.natCast_ne_zero.mpr hm))

theorem subMod_lt (a b : Nat) {m : Nat} (hm : m ≠ 0) : subMod a b m < m := by
  have hlt : (subMod a b m : Int) < (m : Int) := by
    rw [subMod_intCast a b hm]
    exact Int.emod_lt_of_pos _ (by omega)
  exact_mod_cast hlt

/-- Modulo `m` it is the difference. -/
theorem subMod_zmodCast (a b : Nat) {m : Nat} (hm : m ≠ 0) : (subMod a b m : ZMod m) = (a : ZMod m) - (b : ZMod m) := by
  have hcast : ((subMod a b m : Int) : ZMod m) = (((a : Int) - (b : Int) : Int) : ZMod m) := by
    rw [subMod_intCast a b hm, ZMod.intCast_mod]
  exact_mod_cast hcast

/-! ### The Montgomery multiplier (R177 to R179) -/

/-- For odd `m`, `(m+1)/2` is the inverse of 2, so its powers are the inverses of the powers of 2. -/
theorem half_pow_mul_two_pow_modEq {m : Nat} (hodd : m % 2 = 1) (k : Nat) : ((m + 1) / 2) ^ k * 2 ^ k ≡ 1 [MOD m] := by
  have hhalf : (m + 1) / 2 * 2 = 1 + m := by omega
  have hone : 1 + m ≡ 1 [MOD m] := Nat.add_modEq_right
  calc ((m + 1) / 2) ^ k * 2 ^ k = (1 + m) ^ k := by rw [← mul_pow, hhalf]
    _ ≡ 1 ^ k [MOD m] := hone.pow k
    _ = 1 := one_pow k

/-- The Montgomery reduction of `x`, multiplied by `R = 2^256`, is `x` again. -/
theorem montReduce_mul_R {m : Nat} (hodd : m % 2 = 1) (x : Nat) : x * montRinv m % m * 2 ^ 256 ≡ x [MOD m] := by
  have hinv : montRinv m * 2 ^ 256 ≡ 1 [MOD m] :=
    ((Nat.mod_modEq _ m).mul_right (2 ^ 256)).trans (half_pow_mul_two_pow_modEq hodd 256)
  calc x * montRinv m % m * 2 ^ 256 ≡ x * montRinv m * 2 ^ 256 [MOD m] := (Nat.mod_modEq _ m).mul_right _
    _ = x * (montRinv m * 2 ^ 256) := Nat.mul_assoc _ _ _
    _ ≡ x * 1 [MOD m] := hinv.mul_left x
    _ = x := Nat.mul_one x

/-- `R = 2^256` may be cancelled modulo an odd number. -/
theorem modEq_of_mul_R {m x y : Nat} (hodd : m % 2 = 1) (h : x * 2 ^ 256 ≡ y * 2 ^ 256 [MOD m]) : x ≡ y [MOD m] := by
  have hcop : Nat.Coprime m (2 ^ 256) := (Nat.odd_iff.mpr hodd).coprime_two_right.pow_right 256
  exact Nat.ModEq.cancel_right_of_coprime hcop h

/-! ### The exponentiation engine (R180) -/

theorem modexpStep_lt (g e i r : Nat) {m : Nat} (hm : 0 < m) : modexpStep g e m i r < m := by
  unfold modexpStep
  split <;> exact Nat.mod_lt _ hm

/-- One bit position squares, and multiplies where the bit is set. -/
theorem modexpStep_modEq (g e m i r : Nat) : modexpStep g e m i r ≡ r ^ 2 * g ^ (e.testBit i).toNat [MOD m] := by
  have hsquare : r * r % m ≡ r ^ 2 [MOD m] := (Nat.mod_modEq _ m).trans (by rw [pow_two])
  unfold modexpStep
  cases e.testBit i with
  | true => simpa using (Nat.mod_modEq _ m).trans (hsquare.mul_right g)
  | false => simpa using hsquare

theorem modexpLoop_lt (g e : Nat) {m : Nat} (hm : 0 < m) (n r : Nat) (hr : r < m) : modexpLoop g e m n r < m := by
  induction n generalizing r with
  | zero => exact hr
  | succ n ih => exact ih _ (modexpStep_lt g e n r hm)

/-- The invariant: `n` positions raise the value so far to the power `2^n` and bring in the low `n` bits of `e`. -/
theorem modexpLoop_modEq (g e m n r : Nat) : modexpLoop g e m n r ≡ r ^ 2 ^ n * g ^ (e % 2 ^ n) [MOD m] := by
  induction n generalizing r with
  | zero => simp [modexpLoop, Nat.mod_one, Nat.ModEq.refl]
  | succ n ih =>
    calc modexpLoop g e m n (modexpStep g e m n r)
        ≡ modexpStep g e m n r ^ 2 ^ n * g ^ (e % 2 ^ n) [MOD m] := ih _
      _ ≡ (r ^ 2 * g ^ (e.testBit n).toNat) ^ 2 ^ n * g ^ (e % 2 ^ n) [MOD m] :=
        ((modexpStep_modEq g e m n r).pow _).mul_right _
      _ = r ^ 2 ^ (n + 1) * g ^ (e % 2 ^ (n + 1)) := by
        rw [Nat.mod_pow_succ, ← Nat.toNat_testBit]
        ring

/-- From 1, on a base reduced first, the loop gives the power of the low `n` bits. -/
theorem modexpLoop_one (a e : Nat) {m : Nat} (hm : 0 < m) (n : Nat) :
    modexpLoop (a % m) e m n (1 % m) = a ^ (e % 2 ^ n) % m := by
  have hpower : modexpLoop (a % m) e m n (1 % m) ≡ a ^ (e % 2 ^ n) [MOD m] :=
    calc modexpLoop (a % m) e m n (1 % m)
        ≡ (1 % m) ^ 2 ^ n * (a % m) ^ (e % 2 ^ n) [MOD m] := modexpLoop_modEq _ _ _ _ _
      _ ≡ 1 ^ 2 ^ n * a ^ (e % 2 ^ n) [MOD m] := ((Nat.mod_modEq 1 m).pow _).mul ((Nat.mod_modEq a m).pow _)
      _ = a ^ (e % 2 ^ n) := by rw [one_pow, one_mul]
  exact (Nat.mod_eq_of_lt (modexpLoop_lt _ _ hm n _ (Nat.mod_lt _ hm))).symm.trans hpower

/-- The 256 positions of the engine take in every bit of a 256-bit exponent. -/
theorem modexp_eq (a : Nat) {e m : Nat} (hm : 0 < m) (he : e < 2 ^ 256) : modexp a e m = a ^ e % m := by
  rw [modexp, modexpLoop_one a e hm, Nat.mod_eq_of_lt he]

/-! ### Stein's algorithm (R181, R482) -/

/-- Halving divides. -/
theorem oddPart_dvd (fuel x : Nat) : oddPart fuel x ∣ x := by
  induction fuel generalizing x with
  | zero => exact dvd_refl x
  | succ fuel ih =>
    unfold oddPart
    split
    · next heven => exact (ih (x / 2)).trans (Nat.div_dvd_of_dvd (Nat.dvd_of_mod_eq_zero heven))
    · exact dvd_refl x

theorem oddPart_le (fuel x : Nat) : oddPart fuel x ≤ x := by
  induction fuel generalizing x with
  | zero => exact Nat.le_refl x
  | succ fuel ih =>
    unfold oddPart
    split
    · exact (ih (x / 2)).trans (Nat.div_le_self x 2)
    · exact Nat.le_refl x

theorem oddPart_ne_zero (fuel : Nat) {x : Nat} (hx : x ≠ 0) : oddPart fuel x ≠ 0 := fun h =>
  hx (Nat.eq_zero_of_zero_dvd (h ▸ oddPart_dvd fuel x))

/-- Halving an even number takes at least the factor 2 away. -/
theorem oddPart_even_le (fuel : Nat) {x : Nat} (heven : x % 2 = 0) : 2 * oddPart (fuel + 1) x ≤ x := by
  have hle := oddPart_le fuel (x / 2)
  rw [oddPart, if_pos heven]
  omega

/-- As many halvings as the number has bits leave it odd. -/
theorem oddPart_odd (fuel : Nat) {x : Nat} (hx : x ≠ 0) (hlt : x < 2 ^ fuel) : oddPart fuel x % 2 = 1 := by
  induction fuel generalizing x with
  | zero => omega
  | succ fuel ih =>
    unfold oddPart
    split
    · exact ih (by omega) (by omega)
    · omega

/-- Halving one operand does not change the greatest common divisor with an odd one. -/
theorem gcd_oddPart (fuel : Nat) {a : Nat} (hodd : a % 2 = 1) (b : Nat) : Nat.gcd a (oddPart fuel b) = Nat.gcd a b := by
  induction fuel generalizing b with
  | zero => rfl
  | succ fuel ih =>
    unfold oddPart
    split
    · next heven =>
      have hcop : Nat.Coprime 2 a := (Nat.odd_iff.mpr hodd).coprime_two_left
      calc Nat.gcd a (oddPart fuel (b / 2)) = Nat.gcd a (b / 2) := ih (b / 2)
        _ = Nat.gcd a (2 * (b / 2)) := (Nat.Coprime.gcd_mul_left_cancel_right (b / 2) hcop).symm
        _ = Nat.gcd a b := by rw [Nat.mul_div_cancel' (Nat.dvd_of_mod_eq_zero heven)]
    · rfl

/-- Halving either operand until odd does not change it, where one is odd. -/
theorem gcd_oddPart_left (fuel : Nat) {a b : Nat} (hodd : a % 2 = 1 ∨ b % 2 = 1) :
    Nat.gcd (oddPart fuel a) b = Nat.gcd a b := by
  rcases hodd with ha | hb
  · cases fuel with
    | zero => rfl
    | succ fuel => rw [oddPart, if_neg (by omega)]
  · rw [Nat.gcd_comm, gcd_oddPart fuel hb, Nat.gcd_comm]

/-- One subtraction: of two odd numbers whose product is below `2^(n+1)`, the difference halved until odd and the smaller
have a product below `2^n`. -/
theorem stein_measure {x y n : Nat} (hx : x % 2 = 1) (hy : y % 2 = 1) (hxy : x ≤ y) (h : x * y < 2 ^ (n + 1)) :
    x * oddPart 256 (y - x) < 2 ^ n := by
  have hhalf : 2 * oddPart 256 (y - x) ≤ y := (oddPart_even_le 255 (by omega)).trans (Nat.sub_le y x)
  have hle := Nat.mul_le_mul_left x hhalf
  rw [Nat.mul_left_comm] at hle
  omega

/-- The invariant: the odd parts' product is below `2^fuel`, and the loop computes the greatest common divisor. -/
theorem steinLoop_eq_gcd (fuel : Nat) {a b : Nat} (hodd : a % 2 = 1) (ha : a < 2 ^ 256) (hb : b < 2 ^ 256)
    (hmeasure : a * oddPart 256 b < 2 ^ fuel) : steinLoop fuel a b = Nat.gcd a b := by
  induction fuel generalizing a b with
  | zero =>
    have hb0 : b = 0 := by
      by_contra hne
      have := Nat.mul_pos (by omega : 0 < a) (Nat.pos_of_ne_zero (oddPart_ne_zero 256 hne))
      omega
    rw [hb0, Nat.gcd_zero_right, steinLoop]
  | succ fuel ih =>
    unfold steinLoop
    split
    next hb0 => rw [hb0, Nat.gcd_zero_right]
    next hb0 =>
      have hodd' := oddPart_odd 256 hb0 hb
      have hlt' : oddPart 256 b < 2 ^ 256 := (oddPart_le 256 b).trans_lt hb
      rw [← gcd_oddPart 256 hodd b]
      generalize oddPart 256 b = b' at *
      dsimp only
      split
      next hless =>
        rw [ih hodd' hlt' (by omega) (stein_measure hodd' hodd hless.le (by rwa [Nat.mul_comm])),
          Nat.gcd_sub_self_right hless.le, Nat.gcd_comm]
      next hless =>
        rw [ih hodd ha (by omega) (stein_measure hodd hodd' (by omega) hmeasure), Nat.gcd_sub_self_right (by omega)]

/-- The power of 2 counted divides both. -/
theorem two_pow_commonTwos_dvd (fuel a b : Nat) : 2 ^ commonTwos fuel a b ∣ a ∧ 2 ^ commonTwos fuel a b ∣ b := by
  induction fuel generalizing a b with
  | zero => simp [commonTwos]
  | succ fuel ih =>
    unfold commonTwos
    split
    · next heven =>
      obtain ⟨ha, hb⟩ := heven
      obtain ⟨hda, hdb⟩ := ih (a / 2) (b / 2)
      rw [pow_succ']
      exact ⟨Nat.mul_dvd_of_dvd_div (Nat.dvd_of_mod_eq_zero ha) hda,
        Nat.mul_dvd_of_dvd_div (Nat.dvd_of_mod_eq_zero hb) hdb⟩
    · simp

/-- It is the largest: with as many rounds as bits, one of the quotients is odd. -/
theorem commonTwos_odd (fuel : Nat) {a : Nat} (b : Nat) (ha : a ≠ 0) (hlt : a < 2 ^ fuel) :
    a / 2 ^ commonTwos fuel a b % 2 = 1 ∨ b / 2 ^ commonTwos fuel a b % 2 = 1 := by
  induction fuel generalizing a b with
  | zero => omega
  | succ fuel ih =>
    unfold commonTwos
    split
    · rw [pow_succ', ← Nat.div_div_eq_div_mul, ← Nat.div_div_eq_div_mul]
      exact ih (b / 2) (by omega) (by omega)
    · simp only [pow_zero, Nat.div_one]
      omega

/-- The loop within 512 subtractions, from two 256-bit numbers with no common factor 2: the product of two of them is
below `2^512`. -/
theorem steinLoop_of_oddPart {a b : Nat} (ha0 : a ≠ 0) (ha : a < 2 ^ 256) (hb : b < 2 ^ 256)
    (hodd : a % 2 = 1 ∨ b % 2 = 1) : steinLoop 512 (oddPart 256 a) b = Nat.gcd a b := by
  have hlta : oddPart 256 a < 2 ^ 256 := (oddPart_le 256 a).trans_lt ha
  have hltb : oddPart 256 b < 2 ^ 256 := (oddPart_le 256 b).trans_lt hb
  have hmeasure : oddPart 256 a * oddPart 256 b < 2 ^ 512 := by
    rw [two_pow_512]
    exact Nat.mul_lt_mul'' hlta hltb
  rw [steinLoop_eq_gcd 512 (oddPart_odd 256 ha0 ha) hlta hb hmeasure, gcd_oddPart_left 256 hodd]

/-- Settles O36: the common power of 2 is divided out and multiplied back, the loop does the rest. -/
theorem steinComputesTheGcd : Obligations.SteinComputesTheGcd := by
  intro a b ha hb
  unfold steinGcd
  split
  next ha0 => rw [ha0, Nat.gcd_zero_left]
  next ha0 =>
    split
    next hb0 => rw [hb0, Nat.gcd_zero_right]
    next hb0 =>
      obtain ⟨hda, hdb⟩ := two_pow_commonTwos_dvd 256 a b
      have hodd := commonTwos_odd 256 b ha0 ha
      dsimp only
      generalize 2 ^ commonTwos 256 a b = p at *
      have hne : a / p ≠ 0 := fun h => ha0 (by rw [← Nat.div_mul_cancel hda, h, Nat.zero_mul])
      rw [steinLoop_of_oddPart hne ((Nat.div_le_self a p).trans_lt ha) ((Nat.div_le_self b p).trans_lt hb) hodd,
        ← Nat.gcd_mul_right, Nat.div_mul_cancel hda, Nat.div_mul_cancel hdb]

/-! ### The extended Euclidean algorithm (R183) -/

theorem inverseLoop_lt {m : Nat} (hm : m ≠ 0) (fuel r0 r1 s0 s1 : Nat) (h0 : s0 < m) (h1 : s1 < m) :
    inverseLoop m fuel r0 r1 s0 s1 < m := by
  induction fuel generalizing r0 r1 s0 s1 with
  | zero => exact h0
  | succ fuel ih =>
    unfold inverseLoop
    split
    · exact h0
    · exact ih _ _ _ _ h1 (subMod_lt _ _ hm)

/-- One division at least halves the product of the two remainders. -/
theorem euclid_measure {r0 r1 n : Nat} (hpos : r1 ≠ 0) (hle : r1 ≤ r0) (h : r0 * r1 < 2 ^ (n + 1)) :
    r1 * (r0 % r1) < 2 ^ n := by
  have hmod : r0 % r1 < r1 := Nat.mod_lt _ (Nat.pos_of_ne_zero hpos)
  have hdiv : r1 * 1 ≤ r1 * (r0 / r1) := Nat.mul_le_mul_left r1 (Nat.div_pos hle (Nat.pos_of_ne_zero hpos))
  have hsplit := Nat.mod_add_div r0 r1
  have hhalf : 2 * (r0 % r1) ≤ r0 := by omega
  have hprod := Nat.mul_le_mul_left r1 hhalf
  rw [Nat.mul_left_comm, Nat.mul_comm r1 r0] at hprod
  omega

/-- The invariant: each coefficient times `a` is its remainder modulo `m`, and the loop ends at the greatest common
divisor. -/
theorem inverseLoop_mul {m : Nat} (hm : m ≠ 0) (a : ZMod m) (fuel : Nat) {r0 r1 s0 s1 : Nat}
    (h0 : (s0 : ZMod m) * a = r0) (h1 : (s1 : ZMod m) * a = r1) (hpos : 0 < r0) (hle : r1 ≤ r0)
    (hmeasure : r0 * r1 < 2 ^ fuel) :
    (inverseLoop m fuel r0 r1 s0 s1 : ZMod m) * a = (Nat.gcd r0 r1 : Nat) := by
  induction fuel generalizing r0 r1 s0 s1 with
  | zero =>
    have hr1 : r1 = 0 := by
      by_contra hne
      have := Nat.mul_pos hpos (Nat.pos_of_ne_zero hne)
      omega
    rw [hr1, Nat.gcd_zero_right, inverseLoop, h0]
  | succ fuel ih =>
    unfold inverseLoop
    split
    next hr1 => rw [hr1, Nat.gcd_zero_right, h0]
    next hr1 =>
      have hnext : (subMod s0 (r0 / r1 * s1) m : ZMod m) * a = (r0 % r1 : Nat) := by
        have hdivision : ((r0 % r1 : Nat) : ZMod m) = r0 - (r0 / r1 : Nat) * r1 := by
          rw [eq_sub_iff_add_eq]
          exact_mod_cast congrArg (Nat.cast (R := ZMod m)) (by rw [Nat.mul_comm]; exact Nat.mod_add_div r0 r1)
        rw [subMod_zmodCast _ _ hm, Nat.cast_mul, sub_mul, mul_assoc, h0, h1, hdivision]
      rw [ih h1 hnext (Nat.pos_of_ne_zero hr1) (Nat.mod_lt _ (Nat.pos_of_ne_zero hr1)).le (euclid_measure hr1 hle hmeasure),
        Nat.gcd_comm, ← Nat.gcd_rec, Nat.gcd_comm]

theorem inverseMod_lt (a : Nat) {m : Nat} (hm : 2 ≤ m) : inverseMod a m < m :=
  inverseLoop_lt (by omega) _ _ _ _ _ (by omega) (by omega)

/-- 512 divisions are enough for a 256-bit modulus: the value is the inverse of an invertible operand. -/
theorem mul_inverseMod_mod (a : Nat) {m : Nat} (hm : 2 ≤ m) (hlt : m < 2 ^ 256) (hgcd : Nat.gcd (a % m) m = 1) :
    a * inverseMod a m % m = 1 := by
  have hred : a % m < m := Nat.mod_lt _ (by omega)
  have hmeasure : m * (a % m) < 2 ^ 512 := by
    rw [two_pow_512]
    exact Nat.mul_lt_mul'' hlt (hred.trans hlt)
  have hinverse : (inverseMod a m : ZMod m) * (a : ZMod m) = 1 := by
    have hmul := inverseLoop_mul (by omega) (a : ZMod m) 512 (r0 := m) (r1 := a % m) (s0 := 0) (s1 := 1)
      (by simp) (by simp) (by omega) hred.le hmeasure
    rw [inverseMod, hmul, Nat.gcd_comm, hgcd, Nat.cast_one]
  have hmodEq : a * inverseMod a m ≡ 1 [MOD m] := by
    rw [← ZMod.natCast_eq_natCast_iff]
    push_cast
    rw [mul_comm]
    exact hinverse
  rw [hmodEq, Nat.mod_eq_of_lt (by omega)]

end Sys2Proof.Machine
end

section
/-! PROOFS. The integer and modular commands (spec/41_bigint_modular.md). All but MUL and CMP write one slot: they are
always in range (`regions_of_slotWritten`), so each is settled by its rule, which raises DOMAIN on its guard and writes
one integer otherwise. What the engines compute is settled above. -/

namespace Sys2Proof.Machine

/-! ### The commands that write one slot -/

/-- The slot an integer command writes: each of R170 to R183 but MUL, which writes two, and CMP, which writes none. -/
def slotWritten : Instr → Option Slot
  | .add d _ _ | .sub d _ _ | .gcd d _ _ => some d
  | .modadd d _ _ _ | .modsub d _ _ _ | .modmul d _ _ _ | .montmul d _ _ _ | .modexp d _ _ _ => some d
  | .montin d _ _ | .montout d _ _ | .modinv d _ _ | .modinvvt d _ _ => some d
  | _ => none

/-- RANGE cannot occur: every operand is one slot. -/
theorem regions_of_slotWritten {i : Instr} {d : Slot} (h : slotWritten i = some d) :
    i ≠ .endSeq ∧ regionsInRange i = true ∧ writeRegions i = [slotsAt d 1] := by
  unfold slotWritten at h
  split at h <;> cases h <;>
    exact ⟨nofun, by simp [regionsInRange, readRegions, writeRegions, slotAt_inRange], rfl⟩

section oneSlot

variable {i : Instr} {d : Slot} {s : State} {v : Nat} {result : State → Prop}

theorem haltsWith_of_rule {e : ErrCode} (hd : slotWritten i = some d) (h : ruleOf i s = .error e) : HaltsWith i s e := by
  obtain ⟨hi, hr, -⟩ := regions_of_slotWritten hd
  exact exec_halts i s e hi hr h

/-- A command whose rule answers an integer of one slot completes, and the slot holds it. -/
theorem completesWriting_of_slotResult (hd : slotWritten i = some d) (h : ruleOf i s = slotResult d v)
    (hv : v < 2 ^ 256) (hpc : s.pc ≠ 255) (hres : ∀ t, slotValue t d = v → result t) :
    CompletesWriting i s [slotsAt d 1] result := by
  obtain ⟨hi, hr, hw⟩ := regions_of_slotWritten hd
  rw [← hw]
  exact exec_completesWriting i s _ result hi hr h hpc fun t ht => hres t (slotValue_putSlot s t d v hv ht)

/-- The same for ADD and SUB, which write C beside the slot. -/
theorem completes_of_slot_and_carry {carry : Bool} (hd : slotWritten i = some d)
    (h : ruleOf i s = .ok { writes := [putSlot d v], c := some carry }) (hv : v < 2 ^ 256) (hpc : s.pc ≠ 255) :
    ∃ t, exec i s = .next t ∧ slotValue t d = v ∧ t.c = carry ∧ t.v = s.v ∧ t.cmp = s.cmp ∧ Completed s t ∧
      SameOutside [slotsAt d 1] s.dm t.dm := by
  obtain ⟨hi, hr, hw⟩ := regions_of_slotWritten hd
  obtain ⟨t, ht, hdone, hdm, hc, hv', hcmp, hout⟩ := exec_completes i s _ hi hr h hpc
  exact ⟨t, ht, slotValue_putSlot s t d v hv hdm, hc, hv', hcmp, hdone, hw ▸ hout⟩

end oneSlot

/-- A residue modulo a slot's value fits a slot. -/
theorem mod_slotValue_lt (x : Nat) {s : State} {c : Slot} (hm : slotValue s c ≠ 0) :
    x % slotValue s c < 2 ^ 256 :=
  (Nat.mod_lt x (Nat.pos_of_ne_zero hm)).trans (slotValue_lt s c)

/-! ### What each rule answers -/

section rules

variable {a b c : Slot} {s : State} (d : Slot)

theorem ruleModadd_domain (hm : slotValue s c = 0) : ruleModadd d a b c s = .error .domain := if_pos hm

theorem ruleModadd_residue (hm : slotValue s c ≠ 0) :
    ruleModadd d a b c s = slotResult d ((slotValue s a + slotValue s b) % slotValue s c) := if_neg hm

theorem ruleModsub_domain (hm : slotValue s c = 0) : ruleModsub d a b c s = .error .domain := if_pos hm

theorem ruleModsub_residue (hm : slotValue s c ≠ 0) :
    ruleModsub d a b c s = slotResult d (subMod (slotValue s a) (slotValue s b) (slotValue s c)) := if_neg hm

theorem ruleModmul_domain (hm : slotValue s c = 0) : ruleModmul d a b c s = .error .domain := if_pos hm

theorem ruleModmul_residue (hm : slotValue s c ≠ 0) :
    ruleModmul d a b c s = slotResult d (slotValue s a * slotValue s b % slotValue s c) := if_neg hm

theorem ruleMontmul_domain (heven : slotValue s c % 2 = 0) : ruleMontmul d a b c s = .error .domain := if_pos heven

theorem ruleMontmul_reduction (hodd : slotValue s c % 2 = 1) :
    ruleMontmul d a b c s =
      slotResult d (slotValue s a * slotValue s b * montRinv (slotValue s c) % slotValue s c) :=
  if_neg (by omega)

theorem ruleMontin_domain (heven : slotValue s c % 2 = 0) : ruleMontin d a c s = .error .domain := if_pos heven

theorem ruleMontin_residue (hodd : slotValue s c % 2 = 1) :
    ruleMontin d a c s = slotResult d (slotValue s a * 2 ^ 256 % slotValue s c) := if_neg (by omega)

theorem ruleMontout_domain (heven : slotValue s c % 2 = 0) : ruleMontout d a c s = .error .domain := if_pos heven

theorem ruleMontout_reduction (hodd : slotValue s c % 2 = 1) :
    ruleMontout d a c s = slotResult d (slotValue s a * montRinv (slotValue s c) % slotValue s c) := if_neg (by omega)

theorem ruleModexp_domain (hm : slotValue s c = 0) : ruleModexp d a b c s = .error .domain := if_pos hm

theorem ruleModexp_power (hm : slotValue s c ≠ 0) :
    ruleModexp d a b c s = slotResult d (slotValue s a ^ slotValue s b % slotValue s c) := by
  rw [ruleModexp, if_neg hm, modexp_eq (slotValue s a) (Nat.pos_of_ne_zero hm) (slotValue_lt s b)]

theorem ruleModinv_domain (hm : slotValue s c < 2) : ruleModinv d a c s = .error .domain := if_pos hm

/-- MODINV checks the power it computed (R182). -/
theorem ruleModinv_checked (hm : 2 ≤ slotValue s c) :
    ruleModinv d a c s =
      if slotValue s a * (slotValue s a ^ (slotValue s c - 2) % slotValue s c) % slotValue s c = 1 then
        slotResult d (slotValue s a ^ (slotValue s c - 2) % slotValue s c)
      else .error .domain := by
  have hexponent : slotValue s c - 2 < 2 ^ 256 := (Nat.sub_le _ 2).trans_lt (slotValue_lt s c)
  rw [ruleModinv, if_neg (by omega), modexp_eq (slotValue s a) (by omega) hexponent]

theorem ruleModinvvt_domain
    (h : slotValue s c < 2 ∨ Nat.gcd (slotValue s a % slotValue s c) (slotValue s c) ≠ 1) :
    ruleModinvvt d a c s = .error .domain := by
  unfold ruleModinvvt
  split
  next => rfl
  next hm => exact if_neg (h.resolve_left hm)

theorem ruleModinvvt_inverse (hm : 2 ≤ slotValue s c)
    (hgcd : Nat.gcd (slotValue s a % slotValue s c) (slotValue s c) = 1) :
    ruleModinvvt d a c s = slotResult d (inverseMod (slotValue s a) (slotValue s c)) := by
  rw [ruleModinvvt, if_neg (by omega), if_pos hgcd]

end rules

/-! ### ADD, SUB and CMP -/

/-- Settles O28: the rule writes the sum and the carry. -/
theorem addWritesSumAndCarry : Obligations.AddWritesSumAndCarry := by
  intro d a b s
  have hlt : (slotValue s a + slotValue s b) % 2 ^ 256 < 2 ^ 256 := Nat.mod_lt _ (Nat.two_pow_pos 256)
  exact ⟨hasForm_of_fields _ _ _ rfl rfl, fun hpc => completes_of_slot_and_carry (i := .add d a b) rfl rfl hlt hpc⟩

/-- Settles O29: the rule writes the borrow and `subMod`, which is the residue over the integers. -/
theorem subWritesDifferenceAndBorrow : Obligations.SubWritesDifferenceAndBorrow := by
  intro d a b s
  have hR : (2 ^ 256 : Nat) ≠ 0 := (Nat.two_pow_pos 256).ne'
  have hlt : subMod (slotValue s a) (slotValue s b) (2 ^ 256) < 2 ^ 256 := subMod_lt _ _ hR
  refine ⟨hasForm_of_fields _ _ _ rfl rfl, fun hpc => ?_⟩
  obtain ⟨t, ht, hvalue, hrest⟩ := completes_of_slot_and_carry (i := .sub d a b) rfl rfl hlt hpc
  refine ⟨t, ht, ?_, hrest⟩
  rw [hvalue, subMod_intCast _ _ hR, Nat.cast_pow, Nat.cast_ofNat]

theorem compare256_of_eq {x y : Nat} (h : x = y) : compare256 x y = .equal := if_pos h

theorem compare256_of_lt {x y : Nat} (h : x < y) : compare256 x y = .less := by
  rw [compare256, if_neg h.ne, if_pos h]

theorem compare256_of_gt {x y : Nat} (h : y < x) : compare256 x y = .greater := by
  rw [compare256, if_neg h.ne', if_neg h.not_gt]

/-- Settles O31: the effect of CMP is its verdict and no write. -/
theorem cmpWritesTheComparison : Obligations.CmpWritesTheComparison := by
  intro a b s
  refine ⟨hasForm_of_fields _ _ _ rfl rfl, fun hpc => ?_⟩
  have hr : regionsInRange (.cmp a b) = true := by simp [regionsInRange, readRegions, writeRegions, slotAt_inRange]
  have heffect : ruleOf (.cmp a b) s = .ok { cmp := some (compare256 (slotValue s a) (slotValue s b)) } := rfl
  obtain ⟨t, ht, hdone, hdm, hc, hv, -⟩ := exec_completes (.cmp a b) s _ nofun hr heffect hpc
  have hcmp := exec_cmp_cmp ht
  refine ⟨t, ht, hdm, hc, hv, hdone, fun h => ?_, fun h => ?_, fun h => ?_⟩
  · exact hcmp.trans (compare256_of_eq h)
  · exact hcmp.trans (compare256_of_lt h)
  · exact hcmp.trans (compare256_of_gt h)

/-! ### MUL -/

theorem leBytes_add (n k v : Nat) : leBytes (n + k) v = leBytes n v ++ leBytes k (v / 256 ^ n) := by
  induction n generalizing v with
  | zero => simp [leBytes]
  | succ n ih => rw [Nat.succ_add, leBytes, ih, leBytes, List.cons_append, Nat.div_div_eq_div_mul, pow_succ']

/-- The big-endian representation over two slots: the high half comes first (spec/20_memory.md R82). -/
theorem beBytes_add (n k v : Nat) : beBytes (n + k) v = beBytes k (v / 256 ^ n) ++ beBytes n v := by
  rw [beBytes, leBytes_add, List.reverse_append, beBytes, beBytes]

/-- Two slots written as one wide integer hold its two halves. -/
theorem slotValue_putWide (s t : State) (x : Slot) {v : Nat} (hv : v < 2 ^ 512)
    (h : t.dm = applyWrites s.dm [putWide x v]) :
    slotValue t x = v / 2 ^ 256 ∧ nextSlotValue t x = v % 2 ^ 256 := by
  have hwide : memRead t (slotAddr x) 64 = beBytes 32 (v / 256 ^ 32) ++ beBytes 32 v := by
    rw [memRead, h, putWide, readBytes_applyWrites_one _ _ _ _ (beBytes_length 64 v)]
    exact beBytes_add 32 32 v
  have hhigh : memRead t (slotAddr x) 32 = beBytes 32 (v / 256 ^ 32) := by
    have hslice := slice_memRead t (slotAddr x) 64 0 32 (by decide)
    rw [hwide, slice, List.take_left' (beBytes_length _ _), List.drop_zero] at hslice
    exact hslice.symm
  have hlow : memRead t (slotAddr x + 32) 32 = beBytes 32 v := by
    have hslice := slice_memRead t (slotAddr x) 64 32 64 (by decide)
    rw [hwide, slice, List.take_of_length_le (by simp), List.drop_left' (beBytes_length _ _)] at hslice
    exact hslice.symm
  have hR : (256 : Nat) ^ 32 = 2 ^ 256 := by norm_num
  have hquot : v / 2 ^ 256 < 2 ^ 256 := by
    rwa [Nat.div_lt_iff_lt_mul (Nat.two_pow_pos 256), ← two_pow_512]
  rw [slotValue, hhigh, nextSlotValue, hlow, be_beBytes, be_beBytes, hR, Nat.mod_eq_of_lt hquot]
  exact ⟨rfl, rfl⟩

theorem mul_inRange_iff (d a b : Slot) : regionsInRange (.mul d a b) = true ↔ d.toNat ≤ 126 := by
  simp only [regionsInRange, readRegions, writeRegions, List.cons_append, List.nil_append, List.all_cons, List.all_nil,
    slotAt_inRange, Bool.true_and, Bool.and_true, slotsAt_inRange]
  omega

/-- Settles O30: the product of two 256-bit integers fits two slots; the last slot has no next. -/
theorem mulWritesTheProduct : Obligations.MulWritesTheProduct := by
  intro d a b s
  have hproduct : slotValue s a * slotValue s b < 2 ^ 512 := by
    rw [two_pow_512]
    exact Nat.mul_lt_mul'' (slotValue_lt s a) (slotValue_lt s b)
  refine ⟨hasForm_of_fields _ _ _ rfl rfl, fun hd hpc => ?_, fun hd => ?_⟩
  · exact exec_completesWriting (.mul d a b) s _ _ nofun ((mul_inRange_iff d a b).mpr hd) rfl hpc fun t ht =>
      slotValue_putWide s t d hproduct ht
  · refine exec_outOfRange (.mul d a b) s nofun (Bool.eq_false_iff.mpr fun hr => ?_)
    have := (mul_inRange_iff d a b).mp hr
    omega

/-! ### The modular commands -/

/-- Settles O32: the three rules have one guard, and write the residue. -/
theorem modularArithmetic : Obligations.ModularArithmetic := by
  intro d a b c s
  refine ⟨hasForm_of_fields _ _ _ rfl rfl, hasForm_of_fields _ _ _ rfl rfl, hasForm_of_fields _ _ _ rfl rfl,
    fun hm => ⟨?_, ?_, ?_⟩, fun hm hpc => ⟨?_, ?_, ?_⟩⟩
  · exact haltsWith_of_rule rfl (ruleModadd_domain d hm)
  · exact haltsWith_of_rule rfl (ruleModsub_domain d hm)
  · exact haltsWith_of_rule rfl (ruleModmul_domain d hm)
  · exact completesWriting_of_slotResult rfl (ruleModadd_residue d hm) (mod_slotValue_lt _ hm) hpc fun t ht => ht
  · exact completesWriting_of_slotResult rfl (ruleModsub_residue d hm) ((subMod_lt _ _ hm).trans (slotValue_lt s c)) hpc
      fun t ht => by rw [ht, subMod_intCast _ _ hm]
  · exact completesWriting_of_slotResult rfl (ruleModmul_residue d hm) (mod_slotValue_lt _ hm) hpc fun t ht => ht

/-- Settles O33: what MONTMUL and MONTOUT write is a Montgomery reduction. -/
theorem montgomeryCommands : Obligations.MontgomeryCommands := by
  intro d a b c s
  refine ⟨hasForm_of_fields _ _ _ rfl rfl, hasForm_of_fields _ _ _ rfl rfl, hasForm_of_fields _ _ _ rfl rfl,
    fun heven => ⟨?_, ?_, ?_⟩, fun hodd hpc => ?_⟩
  · exact haltsWith_of_rule rfl (ruleMontmul_domain d heven)
  · exact haltsWith_of_rule rfl (ruleMontin_domain d heven)
  · exact haltsWith_of_rule rfl (ruleMontout_domain d heven)
  · have hm : slotValue s c ≠ 0 := by omega
    have hreduced (x : Nat) (t : State) (ht : slotValue t d = x * montRinv (slotValue s c) % slotValue s c) :
        slotValue t d < slotValue s c ∧ slotValue t d * 2 ^ 256 % slotValue s c = x % slotValue s c := by
      rw [ht]
      exact ⟨Nat.mod_lt _ (Nat.pos_of_ne_zero hm), montReduce_mul_R hodd x⟩
    refine ⟨?_, ?_, ?_⟩
    · exact completesWriting_of_slotResult rfl (ruleMontmul_reduction d hodd) (mod_slotValue_lt _ hm) hpc (hreduced _)
    · exact completesWriting_of_slotResult rfl (ruleMontin_residue d hodd) (mod_slotValue_lt _ hm) hpc fun t ht => ht
    · exact completesWriting_of_slotResult rfl (ruleMontout_reduction d hodd) (mod_slotValue_lt _ hm) hpc (hreduced _)

/-- Settles O34: the engine's value is the power. -/
theorem modexpIsThePower : Obligations.ModexpIsThePower := by
  intro d a b c s
  refine ⟨hasForm_of_fields _ _ _ rfl rfl, fun hm => haltsWith_of_rule rfl (ruleModexp_domain d hm), fun hm hpc => ?_⟩
  exact completesWriting_of_slotResult rfl (ruleModexp_power d hm) (mod_slotValue_lt _ hm) hpc fun t ht => ht

/-- Settles O35: the rule writes `Nat.gcd`, which has the divisibility stated. -/
theorem gcdIsTheGreatestCommonDivisor : Obligations.GcdIsTheGreatestCommonDivisor := by
  intro d a b s
  refine ⟨hasForm_of_fields _ _ _ rfl rfl, fun hpc => ?_⟩
  have hlt : Nat.gcd (slotValue s a) (slotValue s b) < 2 ^ 256 := by
    rcases Nat.eq_zero_or_pos (slotValue s a) with hzero | hpos
    · rw [hzero, Nat.gcd_zero_left]
      exact slotValue_lt s b
    · exact (Nat.gcd_le_left _ hpos).trans_lt (slotValue_lt s a)
  have hrule : ruleGcd d a b s = slotResult d (Nat.gcd (slotValue s a) (slotValue s b)) := rfl
  refine completesWriting_of_slotResult rfl hrule hlt hpc fun t ht => ?_
  rw [ht]
  exact ⟨Nat.gcd_dvd_left _ _, Nat.gcd_dvd_right _ _, fun g => Nat.dvd_gcd⟩

/-! ### The two inverses -/

/-- Settles O37: the guard, then the check of the power. -/
theorem modinvIsTheFermatInverse : Obligations.ModinvIsTheFermatInverse := by
  intro d a c s
  refine ⟨hasForm_of_fields _ _ _ rfl rfl, fun hm => ?_, fun hm hcheck => ?_, fun hm hcheck hpc => ?_⟩
  · exact haltsWith_of_rule rfl (ruleModinv_domain d hm)
  · exact haltsWith_of_rule rfl ((ruleModinv_checked d hm).trans (if_neg hcheck))
  · exact completesWriting_of_slotResult rfl ((ruleModinv_checked d hm).trans (if_pos hcheck))
      (mod_slotValue_lt _ (by omega)) hpc fun t ht => ⟨ht, by rw [ht, hcheck]⟩

/-- Settles O38: the value is an inverse by `mul_inverseMod_mod`, so it is not 0. -/
theorem modinvvtIsTheInverse : Obligations.ModinvvtIsTheInverse := by
  intro d a c s
  refine ⟨hasForm_of_fields _ _ _ rfl rfl, fun h => ?_, fun hm hgcd hpc => ?_⟩
  · exact haltsWith_of_rule rfl (ruleModinvvt_domain d h)
  · have hlt := inverseMod_lt (slotValue s a) hm
    have hinverse := mul_inverseMod_mod (slotValue s a) hm (slotValue_lt s c) hgcd
    refine completesWriting_of_slotResult rfl (ruleModinvvt_inverse d hm hgcd) (hlt.trans (slotValue_lt s c)) hpc
      fun t ht => ?_
    rw [ht]
    refine ⟨Nat.pos_of_ne_zero fun hzero => ?_, hlt, hinverse⟩
    rw [hzero, Nat.mul_zero, Nat.zero_mod] at hinverse
    exact absurd hinverse (by decide)

/-! ### Laws over several commands -/

/-- A command that completed did not begin at the last index. -/
theorem pc_ne_last_of_completed {i : Instr} {s t : State} (hi : i ≠ .endSeq) (h : exec i s = .next t)
    (hdone : Completed s t) : s.pc ≠ 255 := by
  obtain ⟨hmoved, -⟩ := hdone
  rcases exec_halted_or_committed hi h with ⟨e, rfl⟩ | ⟨ef, -, rfl⟩
  · exact absurd hmoved.symm (pc_add_one_ne s.pc)
  · intro hlast
    rw [advance_pc, commit_pc, if_pos hlast, hlast] at hmoved
    exact absurd hmoved (by decide)

/-- A command has one next state: what it completes with holds of the state it gave. -/
theorem CompletesWriting.result_of_exec {i : Instr} {s t : State} {rs : List Region} {result : State → Prop}
    (h : CompletesWriting i s rs result) (ht : exec i s = .next t) : result t := by
  obtain ⟨t', ht', hresult, -⟩ := h
  cases ht'.symm.trans ht
  exact hresult

/-- A sum modulo `2^256`, less the second addend, is the first addend, where that fits a slot. -/
theorem eq_of_sub_of_add_mod {x y z : Nat} (hx : x < 2 ^ 256)
    (h : (z : Int) = (((x + y) % 2 ^ 256 : Nat) - (y : Int)) % 2 ^ 256) : z = x := by
  have hR : (2 : Int) ^ 256 = ((2 ^ 256 : Nat) : Int) := by rw [Nat.cast_pow, Nat.cast_ofNat]
  rw [hR] at h
  generalize 2 ^ 256 = R at *
  have hz : (z : Int) = x := by
    rw [h, Int.natCast_mod, Int.emod_sub_emod, Nat.cast_add, add_sub_cancel_right]
    exact Int.emod_eq_of_lt (by omega) (by omega)
  exact_mod_cast hz

/-- A product through Montgomery form, in the natural numbers: of the factors `R` that bring `x` and `y` into the form, one
is taken out with the product `p` and the other with the result `z`. -/
theorem montgomery_product {m x y p z : Nat} (hodd : m % 2 = 1)
    (hp : p * 2 ^ 256 % m = x * 2 ^ 256 % m * (y * 2 ^ 256 % m) % m) (hz : z * 2 ^ 256 % m = p % m) :
    z ≡ x * y [MOD m] := by
  refine modEq_of_mul_R hodd (modEq_of_mul_R hodd ?_)
  generalize 2 ^ 256 = R at *
  calc z * R * R ≡ p * R [MOD m] := Nat.ModEq.mul_right R hz
    _ ≡ x * R % m * (y * R % m) [MOD m] := hp
    _ ≡ x * R * (y * R) [MOD m] := (Nat.mod_modEq _ m).mul (Nat.mod_modEq _ m)
    _ = x * y * R * R := by ring

/-- Settles O39. The first law: SUB of the sum is ADD's first addend modulo `2^256`, and that fits a slot. The second: the
factors `R` that MONTIN brought in are the ones MONTMUL and MONTOUT take out, and `R` cancels modulo an odd number. -/
theorem arithmeticLaws : Obligations.ArithmeticLaws := by
  refine ⟨?subOfAdd, ?montgomery⟩
  case subOfAdd =>
    intro d a b e x y s t u hadd hdone hx hy hpc
    obtain ⟨-, hsum⟩ := addWritesSumAndCarry d a b s
    obtain ⟨t', ht', hvalue, -⟩ := hsum (pc_ne_last_of_completed (i := .add d a b) nofun hadd hdone)
    cases ht'.symm.trans hadd
    obtain ⟨-, hdifference⟩ := subWritesDifferenceAndBorrow e x y u
    obtain ⟨w, hw, hdiff, -⟩ := hdifference hpc
    rw [hx, hy, hvalue] at hdiff
    exact ⟨w, hw, eq_of_sub_of_add_mod (slotValue_lt s a) hdiff⟩
  case montgomery =>
    intro d a b c s1 s2 s3 s4 t1 t2 t3 hodd hc2 hc3 hc4 _ _ hin1 hdone1 hin2 hdone2 hv1 hv2 hmul hdone3 hv4 hpc
    have hpc1 := pc_ne_last_of_completed (i := .montin d a c) nofun hin1 hdone1
    have hpc2 := pc_ne_last_of_completed (i := .montin d b c) nofun hin2 hdone2
    have hpc3 := pc_ne_last_of_completed (i := .montmul d a b c) nofun hmul hdone3
    obtain ⟨-, -, -, -, hmont1⟩ := montgomeryCommands d a b c s1
    obtain ⟨-, -, -, -, hmont2⟩ := montgomeryCommands d b b c s2
    obtain ⟨-, -, -, -, hmont3⟩ := montgomeryCommands d a b c s3
    obtain ⟨-, -, -, -, hmont4⟩ := montgomeryCommands d a b c s4
    obtain ⟨-, hcompletes1, -⟩ := hmont1 hodd hpc1
    obtain ⟨-, hcompletes2, -⟩ := hmont2 (by rw [hc2]; exact hodd) hpc2
    obtain ⟨hcompletes3, -⟩ := hmont3 (by rw [hc3]; exact hodd) hpc3
    obtain ⟨-, -, w, hw, ⟨hlt4, hred4⟩, -⟩ := hmont4 (by rw [hc4]; exact hodd) hpc
    have hform1 := hcompletes1.result_of_exec hin1
    have hform2 := hcompletes2.result_of_exec hin2
    obtain ⟨-, hred3⟩ := hcompletes3.result_of_exec hmul
    rw [hv1, hv2, hform1, hform2, hc2, hc3] at hred3
    rw [hv4, hc4] at hred4
    rw [hc4] at hlt4
    refine ⟨w, hw, ?_⟩
    exact (Nat.mod_eq_of_lt hlt4).symm.trans (montgomery_product hodd hred3 hred4)

end Sys2Proof.Machine
end

section
/-! PROOFS. Points as values (spec/42_curve.md R221, R227). A sum and a scalar multiple of points whose coordinates fit
a slot have coordinates that fit a slot, and the ladder on a scalar of two bits is two steps from (O, P), whatever P
is. -/

namespace Sys2Proof.Machine

/-! ### Points that fit two slots -/

/-- Both coordinates fit a slot, so that a point command can write the point (spec/42_curve.md R222). -/
def Point.Fits (q : Point) : Prop := pointX q < 2 ^ 256 ∧ pointY q < 2 ^ 256

theorem Point.fits_infinity : Point.Fits .infinity := ⟨Nat.two_pow_pos 256, Nat.two_pow_pos 256⟩

theorem secP_lt : secP < 2 ^ 256 := by decide +kernel

theorem secP_ne_zero : secP ≠ 0 := by decide +kernel

/-- The field elements are the integers below `p`. -/
theorem Point.fits_of_lt_secP {x y : Nat} (hx : x < secP) (hy : y < secP) : Point.Fits (.affine x y) :=
  ⟨hx.trans secP_lt, hy.trans secP_lt⟩

/-- The chord and the tangent give residues modulo `p`. -/
theorem chordPoint_fits (slope x1 y1 x2 : Nat) : (chordPoint slope x1 y1 x2).Fits :=
  Point.fits_of_lt_secP (subMod_lt _ _ secP_ne_zero) (subMod_lt _ _ secP_ne_zero)

theorem pointAdd_infinity (q : Point) : pointAdd q .infinity = q := by cases q <;> rfl

theorem pointAdd_fits {q r : Point} (hq : q.Fits) (hr : r.Fits) : (pointAdd q r).Fits := by
  unfold pointAdd
  split
  · exact hr
  · exact hq
  · split
    · exact Point.fits_infinity
    · split <;> exact chordPoint_fits _ _ _ _

/-! ### The ladder on points that fit -/

theorem cswap_fits (b : Bool) {q : Point × Point} (h : q.1.Fits ∧ q.2.Fits) :
    (cswap b q).1.Fits ∧ (cswap b q).2.Fits := by
  cases b
  · exact h
  · exact h.symm

theorem addDouble_fits {q : Point × Point} (h : q.1.Fits ∧ q.2.Fits) :
    (addDouble q).1.Fits ∧ (addDouble q).2.Fits :=
  let ⟨hfirst, hsecond⟩ := h
  ⟨pointAdd_fits hfirst hfirst, pointAdd_fits hfirst hsecond⟩

theorem ladder_fits (k n : Nat) {q : Point × Point} (h : q.1.Fits ∧ q.2.Fits) :
    (ladder k n q).1.Fits ∧ (ladder k n q).2.Fits := by
  induction n generalizing q with
  | zero => exact h
  | succ n ih => exact ih (cswap_fits _ (addDouble_fits (cswap_fits _ h)))

theorem scalarMul_fits (k : Nat) {q : Point} (hq : q.Fits) : (scalarMul k q).Fits := by
  obtain ⟨hmultiple, -⟩ := ladder_fits (k % secN) 256 (q := (.infinity, q)) ⟨Point.fits_infinity, hq⟩
  unfold scalarMul
  split
  · exact Point.fits_infinity
  · exact hmultiple

/-! ### The ladder on small scalars -/

/-- A step on a zero bit keeps the pair the ladder starts from. -/
theorem ladder_start_of_zero_bit {k n : Nat} (q : Point) (h : k.testBit n = false) :
    ladder k (n + 1) (.infinity, q) = ladder k n (.infinity, q) := by
  rw [ladder, h]
  rfl

/-- The zero bits above a scalar's highest bit do nothing. -/
theorem ladder_of_lt {k m n : Nat} (q : Point) (hk : k < 2 ^ m) (hmn : m ≤ n) :
    ladder k n (.infinity, q) = ladder k m (.infinity, q) := by
  induction n, hmn using Nat.le_induction with
  | base => rfl
  | succ n hmn ih =>
    have hbit : k.testBit n = false := Nat.testBit_lt_two_pow (hk.trans_le (Nat.pow_le_pow_right two_pos hmn))
    rw [ladder_start_of_zero_bit q hbit, ih]

theorem scalarMul_infinity (k : Nat) : scalarMul k .infinity = .infinity := if_pos (.inr rfl)

theorem scalarMul_of_zero {k : Nat} (q : Point) (h : k % secN = 0) : scalarMul k q = .infinity := if_pos (.inl h)

theorem ladder_infinity (k n : Nat) : ladder k n (.infinity, .infinity) = (.infinity, .infinity) := by
  induction n with
  | zero => rfl
  | succ n ih => rw [ladder]; cases k.testBit n <;> exact ih

/-- Of a scalar of two bits only the last two steps of the ladder count. -/
theorem scalarMul_of_two_bits {k r : Nat} (q : Point) (hr : k % secN = r) (hpos : r ≠ 0) (hlt : r < 2 ^ 2) :
    scalarMul k q = (ladder r 2 (.infinity, q)).1 := by
  rcases eq_or_ne q .infinity with rfl | hq
  · rw [scalarMul_infinity, ladder_infinity]
  · rw [scalarMul, hr, if_neg (not_or.mpr ⟨hpos, hq⟩), ladder_of_lt q hlt (by decide)]

/-- The last step of the ladder, on a zero bit: the first point is doubled. -/
theorem ladder_last_zero_bit {k : Nat} (q : Point × Point) (h : k.testBit 0 = false) :
    (ladder k 1 q).1 = pointAdd q.1 q.1 := by
  rw [ladder, h]
  rfl

/-- The last step of the ladder, on a one bit: the points are added, the second first. -/
theorem ladder_last_one_bit {k : Nat} (q : Point × Point) (h : k.testBit 0 = true) :
    (ladder k 1 q).1 = pointAdd q.2 q.1 := by
  rw [ladder, h]
  rfl

/-- The first step of the ladder on a one bit: from (O, P) to (P, P + P). -/
theorem ladder_start_of_one_bit {k n : Nat} (q : Point) (h : k.testBit n = true) :
    ladder k (n + 1) (.infinity, q) = ladder k n (q, pointAdd q q) := by
  have hstep : cswap true (addDouble (cswap true (.infinity, q))) = (pointAdd q .infinity, pointAdd q q) := rfl
  rw [ladder, h, hstep, pointAdd_infinity]

theorem ladder_one (q : Point) : (ladder 1 2 (.infinity, q)).1 = q := by
  rw [ladder_start_of_zero_bit q (by decide), ladder_last_one_bit _ (by decide), pointAdd_infinity]

theorem ladder_two (q : Point) : (ladder 2 2 (.infinity, q)).1 = pointAdd q q := by
  rw [ladder_start_of_one_bit q (by decide), ladder_last_zero_bit _ (by decide)]

theorem ladder_three (q : Point) : (ladder 3 2 (.infinity, q)).1 = pointAdd (pointAdd q q) q := by
  rw [ladder_start_of_one_bit q (by decide), ladder_last_one_bit _ (by decide)]

/-- Settles O42: a multiple by 1, 2 or 3 is the last two steps of the ladder. -/
theorem ladderSmallMultiples : Obligations.LadderSmallMultiples := by
  intro k q
  refine ⟨scalarMul_of_zero q, scalarMul_infinity k, fun hk => ?_, fun hk => ?_, fun hk => ?_, ?_⟩
  · rw [scalarMul_of_two_bits q hk (by decide) (by decide), ladder_one]
  · rw [scalarMul_of_two_bits q hk (by decide) (by decide), ladder_two]
  · rw [scalarMul_of_two_bits q hk (by decide) (by decide), ladder_three]
  · rw [scalarMul, scalarMul, Nat.add_mod_right]

end Sys2Proof.Machine
end

section
/-! PROOFS. The curve commands (spec/42_curve.md R225 to R233). The model's tests of a point operand are the congruence
of R223; the point commands write one point into two slots; the SEC1 decoder is said once, form by form. -/

namespace Sys2Proof.Machine

/-! ### Point operands -/

/-- O's encoding is not on the curve: 7 is not 0 modulo `p` (spec/42_curve.md R222). -/
theorem not_affineOnCurve_zero : ¬AffineOnCurve 0 0 := by
  rw [← onCurve_iff]
  decide +kernel

theorem slotPoint_of_zero {s : State} {x : Slot} (h : slotValue s x = 0 ∧ nextSlotValue s x = 0) :
    slotPoint s x = .infinity := by
  rw [slotPoint, pointOf, if_pos h]

theorem pointOf_of_affineOnCurve {x y : Nat} (h : AffineOnCurve x y) : pointOf x y = .affine x y := by
  refine if_neg ?_
  rintro ⟨rfl, rfl⟩
  exact not_affineOnCurve_zero h

theorem validPoint_pointOf_iff (x y : Nat) : validPoint (pointOf x y) = true ↔ ValidOperand x y := by
  unfold pointOf ValidOperand
  split
  next hzero => exact iff_of_true rfl (.inl hzero)
  next hzero => rw [validPoint, onCurve_iff, or_iff_right hzero]

theorem validPoint_slotPoint {s : State} {x : Slot} :
    validPoint (slotPoint s x) = true ↔ ValidOperand (slotValue s x) (nextSlotValue s x) :=
  validPoint_pointOf_iff _ _

theorem slotPoint_fits (s : State) (x : Slot) : (slotPoint s x).Fits := by
  unfold slotPoint pointOf
  split
  · exact Point.fits_infinity
  · exact ⟨slotValue_lt s x, nextSlotValue_lt s x⟩

theorem basePoint_fits : basePoint.Fits := Point.fits_of_lt_secP (by decide +kernel) (by decide +kernel)

/-! ### The commands that write one point -/

/-- The two slots a rule wrote a point to hold that point. -/
theorem holdsPoint_putPoint {s t : State} {d : Slot} {q : Point} (hq : q.Fits)
    (h : t.dm = applyWrites s.dm (putPoint d q)) : HoldsPoint t d q :=
  let ⟨hx, hy⟩ := hq
  slotValue_putPair s t d _ _ hx hy h

/-- A command in range whose rule writes a point completes, and its slots hold the point. -/
theorem completesWriting_of_putPoint {i : Instr} {d : Slot} {q : Point} {s : State} (hi : i ≠ .endSeq)
    (hr : regionsInRange i = true) (hw : writeRegions i = [slotsAt d 2]) (h : ruleOf i s = writesResult (putPoint d q))
    (hq : q.Fits) (hpc : s.pc ≠ 255) : CompletesWriting i s [slotsAt d 2] fun t => HoldsPoint t d q := by
  rw [← hw]
  exact exec_completesWriting i s _ _ hi hr h hpc fun t ht => holdsPoint_putPoint hq ht

section pointRules

variable {d a b : Slot} {s : State}

/-- A point operand is in range up to the last slot but one. -/
theorem slotPair_inRange {x : Slot} (hx : x.toNat ≤ 126) : (slotsAt x 2).inRange = true := by
  rw [slotsAt_inRange]
  omega

theorem ecadd_inRange (ha : a.toNat ≤ 126) (hb : b.toNat ≤ 126) (hd : d.toNat ≤ 126) :
    regionsInRange (.ecadd d a b) = true := by
  simp [regionsInRange, readRegions, writeRegions, slotPair_inRange ha, slotPair_inRange hb, slotPair_inRange hd]

theorem ecdbl_inRange (ha : a.toNat ≤ 126) (hd : d.toNat ≤ 126) : regionsInRange (.ecdbl d a) = true := by
  simp [regionsInRange, readRegions, writeRegions, slotPair_inRange ha, slotPair_inRange hd]

theorem ecmul_inRange (ha : a.toNat ≤ 126) (hd : d.toNat ≤ 126) : regionsInRange (.ecmul d a b) = true := by
  simp [regionsInRange, readRegions, writeRegions, slotPair_inRange ha, slotAt_inRange, slotPair_inRange hd]

theorem ecmulg_inRange (hd : d.toNat ≤ 126) : regionsInRange (.ecmulg d b) = true := by
  simp [regionsInRange, readRegions, writeRegions, slotAt_inRange, slotPair_inRange hd]

theorem ruleEcadd_sum (ha : ValidOperand (slotValue s a) (nextSlotValue s a))
    (hb : ValidOperand (slotValue s b) (nextSlotValue s b)) :
    ruleEcadd d a b s = writesResult (putPoint d (pointAdd (slotPoint s a) (slotPoint s b))) := by
  rw [ruleEcadd, if_pos]
  rw [validPoint_slotPoint.mpr ha, validPoint_slotPoint.mpr hb, Bool.and_self]

theorem ruleEcadd_domain (h : ¬ValidOperand (slotValue s a) (nextSlotValue s a) ∨
    ¬ValidOperand (slotValue s b) (nextSlotValue s b)) : ruleEcadd d a b s = .error .domain := by
  rw [ruleEcadd, if_neg]
  rw [Bool.and_eq_true, validPoint_slotPoint, validPoint_slotPoint]
  exact not_and_or.mpr h

theorem ruleEcdbl_sum (ha : ValidOperand (slotValue s a) (nextSlotValue s a)) :
    ruleEcdbl d a s = writesResult (putPoint d (pointAdd (slotPoint s a) (slotPoint s a))) :=
  if_pos (validPoint_slotPoint.mpr ha)

theorem ruleEcdbl_domain (ha : ¬ValidOperand (slotValue s a) (nextSlotValue s a)) :
    ruleEcdbl d a s = .error .domain := if_neg (mt validPoint_slotPoint.mp ha)

theorem ruleEcmul_multiple (ha : ValidOperand (slotValue s a) (nextSlotValue s a)) :
    ruleEcmul d a b s = writesResult (putPoint d (scalarMul (slotValue s b) (slotPoint s a))) :=
  if_pos (validPoint_slotPoint.mpr ha)

theorem ruleEcmul_domain (ha : ¬ValidOperand (slotValue s a) (nextSlotValue s a)) :
    ruleEcmul d a b s = .error .domain := if_neg (mt validPoint_slotPoint.mp ha)

end pointRules

/-- Settles O40: on valid operands the rules write a sum, which fits two slots. -/
theorem pointAdderAndDoubler : Obligations.PointAdderAndDoubler := by
  intro d a b s
  refine ⟨hasForm_of_fields _ _ _ rfl rfl, hasForm_of_fields _ _ _ rfl rfl, fun ha hb hd => ?ecadd, fun ha hd => ?ecdbl⟩
  case ecadd =>
    have hr := ecadd_inRange ha hb hd
    refine ⟨fun hva hvb hpc => ?_, fun hinvalid => ?_⟩
    · exact completesWriting_of_putPoint nofun hr rfl (ruleEcadd_sum hva hvb)
        (pointAdd_fits (slotPoint_fits s a) (slotPoint_fits s b)) hpc
    · exact exec_halts _ s _ nofun hr (ruleEcadd_domain hinvalid)
  case ecdbl =>
    have hr := ecdbl_inRange ha hd
    refine ⟨fun hva hpc => ?_, fun hinvalid => ?_⟩
    · exact completesWriting_of_putPoint nofun hr rfl (ruleEcdbl_sum hva)
        (pointAdd_fits (slotPoint_fits s a) (slotPoint_fits s a)) hpc
    · exact exec_halts _ s _ nofun hr (ruleEcdbl_domain hinvalid)

/-- Settles O41: a multiple of a point that fits two slots fits two slots. -/
theorem scalarMultipliers : Obligations.ScalarMultipliers := by
  intro d a b s
  refine ⟨hasForm_of_fields _ _ _ rfl rfl, hasForm_of_fields _ _ _ rfl rfl,
    fun ha hd => ⟨fun hva hpc => ?_, fun hinvalid => ?_⟩, fun hd hpc => ?_⟩
  · exact completesWriting_of_putPoint nofun (ecmul_inRange ha hd) rfl (ruleEcmul_multiple hva)
      (scalarMul_fits _ (slotPoint_fits s a)) hpc
  · exact exec_halts _ s _ nofun (ecmul_inRange ha hd) (ruleEcmul_domain hinvalid)
  · exact completesWriting_of_putPoint (q := scalarMul (slotValue s b) basePoint) nofun (ecmulg_inRange hd) rfl rfl
      (scalarMul_fits _ basePoint_fits) hpc

/-! ### ECCHK -/

theorem ecchk_inRange_iff (a : Slot) : regionsInRange (.ecchk a) = true ↔ a.toNat ≤ 126 := by
  simp only [regionsInRange, readRegions, writeRegions, List.append_nil, List.all_cons, List.all_nil, Bool.and_true,
    slotsAt_inRange]
  omega

/-- Settles O43: the effect of ECCHK is its verdict and no write. -/
theorem ecchkWritesTheVerdict : Obligations.EcchkWritesTheVerdict := by
  intro a s
  refine ⟨hasForm_of_fields _ _ _ rfl rfl, fun ha hpc => ?_, fun ha => ?_⟩
  · have hr := (ecchk_inRange_iff a).mpr ha
    have heffect : ruleOf (.ecchk a) s = .ok { v := some (onCurve (slotValue s a) (nextSlotValue s a)) } := rfl
    obtain ⟨t, ht, hdone, hdm, hc, -, hcmp, -⟩ := exec_completes (.ecchk a) s _ nofun hr heffect hpc
    exact ⟨t, ht, by rw [exec_ecchk_v ht hdone, onCurve_iff], hdm, hc, hcmp, hdone⟩
  · refine exec_outOfRange (.ecchk a) s nofun (Bool.eq_false_iff.mpr fun hr => ?_)
    have := (ecchk_inRange_iff a).mp hr
    omega

/-! ### PKENC -/

theorem pkenc_inRange {d a : Slot} {compressed : Bool} (ha : a.toNat ≤ 126)
    (hd : 32 * d.toNat + pkencLength compressed ≤ 4096) : regionsInRange (.pkenc d a compressed) = true := by
  have hout : (bytesAt d (pkencLength compressed)).inRange = true := decide_eq_true hd
  simp [regionsInRange, readRegions, writeRegions, slotPair_inRange ha, hout]

section pkenc

variable {d a : Slot} {compressed : Bool} {s : State}

theorem rulePkenc_encoding (h : AffineOnCurve (slotValue s a) (nextSlotValue s a)) :
    rulePkenc d a compressed s =
      writesResult [putBytes d (sec1Encode compressed (slotValue s a) (nextSlotValue s a))] := by
  have hpoint : slotPoint s a = .affine (slotValue s a) (nextSlotValue s a) := pointOf_of_affineOnCurve h
  have hvalid : validPoint (.affine (slotValue s a) (nextSlotValue s a)) = true := (onCurve_iff _ _).mpr h
  rw [rulePkenc, hpoint, hvalid]
  rfl

/-- O has no encoding, and no more has an invalid point. -/
theorem rulePkenc_domain (h : ¬AffineOnCurve (slotValue s a) (nextSlotValue s a)) :
    rulePkenc d a compressed s = .error .domain := by
  rw [rulePkenc, if_neg]
  rw [Bool.and_eq_true, validPoint_slotPoint, bne_iff_ne]
  rintro ⟨hzero | hcurve, haffine⟩
  · exact haffine (slotPoint_of_zero hzero)
  · exact h hcurve

theorem sec1Encode_compressed (x y : Nat) : sec1Encode true x y = BitVec.ofNat 8 (2 + y % 2) :: beBytes 32 x := rfl

theorem sec1Encode_uncompressed (x y : Nat) :
    sec1Encode false x y = (4 : Byte) :: (beBytes 32 x ++ beBytes 32 y) := rfl

/-- A byte string written alone at a slot is read back from there. -/
theorem memRead_putBytes {t : State} {bs : List Byte} {n : Nat} (h : t.dm = applyWrites s.dm [putBytes d bs])
    (hn : bs.length = n) : memRead t (slotAddr d) n = bs := by
  rw [memRead, h]
  exact readBytes_applyWrites_one _ _ _ _ hn

end pkenc

/-- Settles O44: the encoding is written whole, and it is the byte string of its form. -/
theorem pkencWritesTheEncoding : Obligations.PkencWritesTheEncoding := by
  intro d a compressed s
  refine ⟨hasForm_of_fields _ _ _ rfl rfl, fun ha hd => ?_⟩
  have hr : regionsInRange (.pkenc d a compressed) = true := pkenc_inRange ha hd
  refine ⟨fun hcurve hpc => ?_, fun hinvalid => exec_halts _ s _ nofun hr (rulePkenc_domain hinvalid)⟩
  refine exec_completesWriting (.pkenc d a compressed) s _ _ nofun hr (rulePkenc_encoding hcurve) hpc
    fun t ht => ⟨?_, ?_⟩
  · rintro rfl
    rw [← sec1Encode_compressed]
    exact memRead_putBytes ht (sec1Encode_length true _ _)
  · rintro rfl
    rw [← sec1Encode_uncompressed]
    exact memRead_putBytes ht (sec1Encode_length false _ _)

/-! ### The SEC1 decoder -/

section decoder

variable {bs : List Byte} {x y : Nat}

theorem sec1Decode_badLength (h33 : bs.length ≠ 33) (h65 : bs.length ≠ 65) : sec1Decode bs = .error .encoding := by
  rw [sec1Decode, if_neg h33, if_neg h65]

theorem sec1Decode_compressed_badFirstByte (hlen : bs.length = 33) (h2 : byteAt bs 0 ≠ 2) (h3 : byteAt bs 0 ≠ 3) :
    sec1Decode bs = .error .encoding := by
  rw [sec1Decode, if_pos hlen, if_pos ⟨h2, h3⟩]

theorem sec1Decode_uncompressed_badFirstByte (hlen : bs.length = 65) (h4 : byteAt bs 0 ≠ 4) :
    sec1Decode bs = .error .encoding := by
  rw [sec1Decode, if_neg (by omega), if_pos hlen, if_pos h4]

section uncompressed

variable (hlen : bs.length = 65) (h4 : byteAt bs 0 = 4) (hx : x = be (slice bs 1 33)) (hy : y = be (slice bs 33 65))
include hlen h4 hx hy

theorem sec1Decode_uncompressed_point (hcurve : AffineOnCurve x y) : sec1Decode bs = .ok (x, y) := by
  rw [sec1Decode, if_neg (by omega), if_pos hlen, if_neg (not_not.mpr h4), ← hx, ← hy,
    if_pos ((onCurve_iff x y).mpr hcurve)]

theorem sec1Decode_uncompressed_domain (hcurve : ¬AffineOnCurve x y) : sec1Decode bs = .error .domain := by
  rw [sec1Decode, if_neg (by omega), if_pos hlen, if_neg (not_not.mpr h4), ← hx, ← hy,
    if_neg (mt (onCurve_iff x y).mp hcurve)]

end uncompressed

section compressed

variable {alpha beta : Nat} (hlen : bs.length = 33) (hfirst : byteAt bs 0 = 2 ∨ byteAt bs 0 = 3)
  (hx : x = be (slice bs 1 33))
include hlen hfirst hx

theorem sec1Decode_compressed_range (hrange : secP ≤ x) : sec1Decode bs = .error .domain := by
  rw [sec1Decode, if_pos hlen, if_neg (by tauto), ← hx, if_pos hrange]

variable (halpha : alpha = (x ^ 3 + 7) % secP) (hbeta : beta = alpha ^ ((secP + 1) / 4) % secP)
include halpha hbeta

/-- A compressed encoding of an `x` in range: `beta` is the candidate root of R233, and the first byte says
its parity. -/
theorem sec1Decode_compressed_root (hrange : x < secP) :
    sec1Decode bs =
      if beta ^ 2 % secP = alpha then .ok (x, if beta % 2 = (byteAt bs 0).toNat % 2 then beta else secP - beta)
      else .error .domain := by
  have hexponent : secSqrtExp = (secP + 1) / 4 := by decide +kernel
  have hroot : modexp alpha secSqrtExp secP = beta := by
    rw [hbeta, modexp_eq alpha (Nat.pos_of_ne_zero secP_ne_zero) (by decide +kernel), hexponent]
  have hcube : (x * x * x + 7) % secP = alpha := by rw [halpha, pow_three']
  have hsquare : beta * beta = beta ^ 2 := (pow_two beta).symm
  rw [sec1Decode, if_pos hlen, if_neg (by tauto), ← hx]
  simp only [if_neg hrange.not_ge, hcube, hroot, hsquare, ite_not]
  split_ifs <;> rfl

end compressed

end decoder

/-! ### PKDEC -/

section pkdec

variable {d a : Slot} {l1 : Len} {s : State} {x y : Nat} {e : ErrCode}

theorem pkdec_inRange (ha : 32 * a.toNat + l1.toNat ≤ 4096) (hd : d.toNat ≤ 126) :
    regionsInRange (.pkdec d a l1) = true := by
  have hin : (bytesAt a l1.toNat).inRange = true := decide_eq_true ha
  simp [regionsInRange, readRegions, writeRegions, slotPair_inRange hd, hin]

theorem rulePkdec_point (h : sec1Decode (memRead s (slotAddr a) l1.toNat) = .ok (x, y)) :
    rulePkdec d a l1 s = writesResult (putPoint d (.affine x y)) := by
  rw [rulePkdec, h]
  rfl

theorem rulePkdec_error (h : sec1Decode (memRead s (slotAddr a) l1.toNat) = .error e) :
    rulePkdec d a l1 s = .error e := by
  rw [rulePkdec, h]

/-- PKDEC of a byte string that decodes writes the coordinates decoded. -/
theorem pkdec_completes (hr : regionsInRange (.pkdec d a l1) = true)
    (h : sec1Decode (memRead s (slotAddr a) l1.toNat) = .ok (x, y)) (hfits : (Point.affine x y).Fits)
    (hpc : s.pc ≠ 255) :
    CompletesWriting (.pkdec d a l1) s [slotsAt d 2] fun t => slotValue t d = x ∧ nextSlotValue t d = y :=
  completesWriting_of_putPoint (i := .pkdec d a l1) nofun hr rfl (rulePkdec_point h) hfits hpc

end pkdec

/-- Settles O45: each case is one of the decoder's, with its bytes read from DM. -/
theorem pkdecReadsTheEncoding : Obligations.PkdecReadsTheEncoding := by
  intro d a l1 s
  refine ⟨hasForm_of_fields _ _ _ rfl rfl, fun ha hd => ?_⟩
  have hr : regionsInRange (.pkdec d a l1) = true := pkdec_inRange ha hd
  have halts {e : ErrCode} (h : sec1Decode (memRead s (slotAddr a) l1.toNat) = .error e) :
      HaltsWith (.pkdec d a l1) s e := exec_halts _ s e nofun hr (rulePkdec_error h)
  have hlen : (memRead s (slotAddr a) l1.toNat).length = l1.toNat := memRead_length _ _ _
  have hfirst (h : 0 < l1.toNat) : byteAt (memRead s (slotAddr a) l1.toNat) 0 = s.dm.read (32 * a.toNat) :=
    byteAt_memRead s _ _ 0 h
  have hslice {i j : Nat} (h : j ≤ l1.toNat) :
      slice (memRead s (slotAddr a) l1.toNat) i j = memRead s (32 * a.toNat + i) (j - i) := slice_memRead s _ _ i j h
  refine ⟨fun h33 h65 => ?badLength, fun h33 h2 h3 => ?badCompressed, fun h65 h4 => ?badUncompressed,
    fun h65 h4 x y hx hy => ?uncompressed, fun h33 hp x alpha beta hx halpha hbeta => ?compressed⟩
  case badLength => exact halts (sec1Decode_badLength (hlen.trans_ne h33) (hlen.trans_ne h65))
  case badCompressed =>
    rw [← hfirst (by omega)] at h2 h3
    exact halts (sec1Decode_compressed_badFirstByte (hlen.trans h33) h2 h3)
  case badUncompressed =>
    rw [← hfirst (by omega)] at h4
    exact halts (sec1Decode_uncompressed_badFirstByte (hlen.trans h65) h4)
  case uncompressed =>
    rw [← hfirst (by omega)] at h4
    rw [← hslice (i := 1) (j := 33) (by omega)] at hx
    rw [← hslice (i := 33) (j := 65) (by omega)] at hy
    refine ⟨fun hcurve hpc => ?_, fun hcurve => ?_⟩
    · obtain ⟨hxlt, hylt, -⟩ := id hcurve
      exact pkdec_completes hr (sec1Decode_uncompressed_point (hlen.trans h65) h4 hx hy hcurve)
        (Point.fits_of_lt_secP hxlt hylt) hpc
    · exact halts (sec1Decode_uncompressed_domain (hlen.trans h65) h4 hx hy hcurve)
  case compressed =>
    rw [← hfirst (by omega)] at hp ⊢
    rw [← hslice (i := 1) (j := 33) (by omega)] at hx
    have hroot := sec1Decode_compressed_root (hlen.trans h33) hp hx halpha hbeta
    refine ⟨fun hrange => ?_, fun hrange hsquare => ?_, fun hrange hsquare hpc => ?_⟩
    · exact halts (sec1Decode_compressed_range (hlen.trans h33) hp hx hrange)
    · exact halts ((hroot hrange).trans (if_neg hsquare))
    · have hbetaLt : beta < secP := hbeta ▸ Nat.mod_lt _ (Nat.pos_of_ne_zero secP_ne_zero)
      refine pkdec_completes hr ((hroot hrange).trans (if_pos hsquare)) ⟨hrange.trans secP_lt, ?_⟩ hpc
      rw [pointY]
      split
      · exact hbetaLt.trans secP_lt
      · exact (Nat.sub_le secP beta).trans_lt secP_lt

/-! ### The codec round trip -/

/-- A command that completed committed the effect of its rule. -/
theorem committed_of_completed {i : Instr} {s t : State} (hi : i ≠ .endSeq) (h : exec i s = .next t)
    (hdone : Completed s t) : ∃ ef, ruleOf i s = .ok ef ∧ t.dm = applyWrites s.dm ef.writes := by
  obtain ⟨hmoved, -⟩ := hdone
  rcases exec_halted_or_committed hi h with ⟨e, rfl⟩ | ⟨ef, hrule, rfl⟩
  · exact absurd hmoved.symm (pc_add_one_ne s.pc)
  · exact ⟨ef, hrule, by rw [advance_dm, commit_dm]⟩

/-- A PKENC that completed read a point of the curve, and its encoding stands at D. -/
theorem pkenc_of_completed {d a : Slot} {compressed : Bool} {s t : State} (h : exec (.pkenc d a compressed) s = .next t)
    (hdone : Completed s t) : AffineOnCurve (slotValue s a) (nextSlotValue s a) ∧
      memRead t (slotAddr d) (pkencLength compressed) =
        sec1Encode compressed (slotValue s a) (nextSlotValue s a) := by
  obtain ⟨ef, hrule, hdm⟩ := committed_of_completed (i := .pkenc d a compressed) nofun h hdone
  rw [ruleOf] at hrule
  have hcurve : AffineOnCurve (slotValue s a) (nextSlotValue s a) := by
    by_contra hinvalid
    cases (rulePkenc_domain hinvalid).symm.trans hrule
  cases (rulePkenc_encoding hcurve).symm.trans hrule
  exact ⟨hcurve, memRead_putBytes hdm (sec1Encode_length _ _ _)⟩

/-- The decoder undoes the uncompressed encoder. -/
theorem sec1Decode_sec1Encode {x y : Nat} (h : AffineOnCurve x y) : sec1Decode (sec1Encode false x y) = .ok (x, y) := by
  obtain ⟨hx, hy, -⟩ := id h
  have hbe {v : Nat} (hv : v < secP) : v = be (beBytes 32 v) := by
    rw [be_beBytes, Nat.mod_eq_of_lt (hv.trans (by decide +kernel))]
  have hslicex : slice (sec1Encode false x y) 1 33 = beBytes 32 x := by
    rw [slice, sec1Encode_uncompressed, List.take_succ_cons, List.take_left' (beBytes_length 32 x), List.drop_succ_cons,
      List.drop_zero]
  have hslicey : slice (sec1Encode false x y) 33 65 = beBytes 32 y := by
    rw [slice, List.take_of_length_le (by rw [sec1Encode_length]; decide), sec1Encode_uncompressed, List.drop_succ_cons,
      List.drop_left' (beBytes_length 32 x)]
  exact sec1Decode_uncompressed_point (sec1Encode_length false x y) rfl (hslicex ▸ hbe hx) (hslicey ▸ hbe hy) h

/-- Settles O46: the bytes PKDEC reads are the encoding PKENC wrote. -/
theorem pointCodecRoundTrip : Obligations.PointCodecRoundTrip := by
  intro d a e x s t u henc hdone hbytes hx he hpc
  obtain ⟨hcurve, hencoded⟩ := pkenc_of_completed henc hdone
  have hdecoded : sec1Decode (memRead u (slotAddr x) 65) = .ok (slotValue s a, nextSlotValue s a) := by
    rw [hbytes]
    exact hencoded ▸ sec1Decode_sec1Encode hcurve
  exact pkdec_completes (pkdec_inRange hx he) hdecoded ⟨slotValue_lt s a, nextSlotValue_lt s a⟩ hpc

end Sys2Proof.Machine
end

section
/-! PROOFS. The ECDSA commands (spec/43_ecdsa.md R261, R262). Each rule's tests are said in the integers of the rule: a
scalar in `[1, n-1]`, the Fermat inverse as a power, the low-s policy, and the verdict as an equation of points. -/

namespace Sys2Proof.Machine

/-! ### Scalars modulo the group order -/

theorem scalarInRange_iff (k : Nat) : scalarInRange k = true ↔ k ≠ 0 ∧ k < secN := by
  rw [scalarInRange, Bool.and_eq_true, decide_eq_true_iff, decide_eq_true_iff, Nat.one_le_iff_ne_zero]

theorem scalarInRange_eq_false_iff (k : Nat) : scalarInRange k = false ↔ k = 0 ∨ secN ≤ k := by
  rw [← Bool.not_eq_true, scalarInRange_iff]
  omega

theorem secN_pos : 0 < secN := by decide

theorem secN_lt : secN < 2 ^ 256 := by decide

/-- `n` is odd, so `HALF` and its complement are neighbours (spec/43_ecdsa.md R264). -/
theorem secN_eq_half : secN = 2 * secHalf + 1 := by decide

/-- The inverse modulo `n` is Fermat's power (spec/00_scope.md R12). -/
theorem fermatInverse_secN (a : Nat) : fermatInverse a secN = a ^ (secN - 2) % secN :=
  modexp_eq a secN_pos ((Nat.sub_le secN 2).trans_lt secN_lt)

/-! ### The low-s policy (R264) -/

theorem lowS_eq (lows : Bool) (x : Nat) : lowS lows x = if lows = true ∧ secHalf < x then secN - x else x := by
  simp only [lowS, Bool.and_eq_true, decide_eq_true_eq]

/-- The policy keeps a component in `[1, n-1]`, and under LOWS makes it low. -/
theorem lowS_inRange (lows : Bool) {x : Nat} (hpos : x ≠ 0) (hlt : x < secN) :
    1 ≤ lowS lows x ∧ lowS lows x < secN ∧ (lows = true → lowS lows x ≤ secHalf) := by
  have hhalf := secN_eq_half
  rw [lowS_eq]
  split
  next => omega
  next hkept =>
    refine ⟨by omega, hlt, fun hlows => ?_⟩
    exact Nat.le_of_not_lt fun hhigh => hkept ⟨hlows, hhigh⟩

/-! ### ECDSA_SIGN -/

theorem ecdsaSign_inRange {d a b c : Slot} {lows : Bool} (hd : d.toNat ≤ 126) :
    regionsInRange (.ecdsaSign d a b c lows) = true := by
  simp [regionsInRange, readRegions, writeRegions, slotAt_inRange, slotPair_inRange hd]

/-- The four cases of DOMAIN, in the order the rule tests them (R261). -/
theorem ecdsaSignValue_domain {e d k : Nat} {lows : Bool}
    (h : scalarInRange d = false ∨ scalarInRange k = false ∨ signR k = 0 ∨ signS e d k (signR k) = 0) :
    ecdsaSignValue e d k lows = .error .domain := by
  unfold ecdsaSignValue
  split_ifs with hkey hnonce hr hs
  · rfl
  · rfl
  · rfl
  · rfl
  · rw [Bool.not_eq_true', Bool.not_eq_false] at hkey hnonce
    simp [hkey, hnonce, hr, hs] at h

theorem ecdsaSignValue_signature {e d k : Nat} {lows : Bool} (hkey : scalarInRange d = true)
    (hnonce : scalarInRange k = true) (hr : signR k ≠ 0) (hs : signS e d k (signR k) ≠ 0) :
    ecdsaSignValue e d k lows = .ok (signR k, lowS lows (signS e d k (signR k))) := by
  rw [ecdsaSignValue, hkey, hnonce, if_neg (by decide), if_neg (by decide), if_neg hr, if_neg hs]

theorem signR_lt (k : Nat) : signR k < secN := Nat.mod_lt _ secN_pos

theorem signS_lt (e d k r : Nat) : signS e d k r < secN := Nat.mod_lt _ secN_pos

theorem signS_eq (e d k r : Nat) : signS e d k r = k ^ (secN - 2) % secN * (e + r * d) % secN := by
  rw [signS, fermatInverse_secN]

section sign

variable {d a b c : Slot} {lows : Bool} {s : State} {r x : Nat}

theorem ruleOf_ecdsaSign_error {e : ErrCode}
    (h : ecdsaSignValue (slotValue s a) (slotValue s b) (slotValue s c) lows = .error e) :
    ruleOf (.ecdsaSign d a b c lows) s = .error e := by
  rw [ruleOf, ruleEcdsaSign, h]

theorem ruleOf_ecdsaSign_pair (h : ecdsaSignValue (slotValue s a) (slotValue s b) (slotValue s c) lows = .ok (r, x)) :
    ruleOf (.ecdsaSign d a b c lows) s = writesResult [putSlot d r, putNextSlot d x] := by
  rw [ruleOf, ruleEcdsaSign, h]

/-- ECDSA_SIGN of operands that have a signature writes it. -/
theorem ecdsaSign_completes (hd : d.toNat ≤ 126)
    (h : ecdsaSignValue (slotValue s a) (slotValue s b) (slotValue s c) lows = .ok (r, x)) (hr : r < secN)
    (hx : x < secN) (hpc : s.pc ≠ 255) :
    CompletesWriting (.ecdsaSign d a b c lows) s [slotsAt d 2] fun t => slotValue t d = r ∧ nextSlotValue t d = x :=
  exec_completesWriting (.ecdsaSign d a b c lows) s _ _ nofun (ecdsaSign_inRange hd) (ruleOf_ecdsaSign_pair h) hpc
    fun t ht => slotValue_putPair s t d r x (hr.trans secN_lt) (hx.trans secN_lt) ht

end sign

/-- What is said of the result may be weakened. -/
theorem CompletesWriting.imp {i : Instr} {s : State} {rs : List Region} {result result' : State → Prop}
    (h : CompletesWriting i s rs result) (himp : ∀ t, result t → result' t) : CompletesWriting i s rs result' :=
  let ⟨t, ht, hresult, hrest⟩ := h
  ⟨t, ht, himp t hresult, hrest⟩

/-- Settles O47: the rule's signature is a pair of residues modulo `n`, and the policy keeps the second in range. -/
theorem ecdsaSign : Obligations.EcdsaSign := by
  intro d a b c lows s r x hr hx
  have hsignR : signR (slotValue s c) = r := hr.symm
  have hsignS : signS (slotValue s a) (slotValue s b) (slotValue s c) r = x := (signS_eq _ _ _ _).trans hx.symm
  refine ⟨hasForm_of_fields _ _ _ rfl rfl, fun hd => ⟨fun hdomain => ?domain, ?signature⟩⟩
  case domain =>
    refine exec_halts _ s _ nofun (ecdsaSign_inRange hd) (ruleOf_ecdsaSign_error (ecdsaSignValue_domain ?_))
    rw [scalarInRange_eq_false_iff, scalarInRange_eq_false_iff, hsignR, hsignS, or_assoc, or_assoc]
    exact hdomain
  case signature =>
    intro hb hbn hc hcn hr0 hx0 hpc
    have hvalue : ecdsaSignValue (slotValue s a) (slotValue s b) (slotValue s c) lows = .ok (r, lowS lows x) := by
      rw [ecdsaSignValue_signature ((scalarInRange_iff _).mpr ⟨hb, hbn⟩) ((scalarInRange_iff _).mpr ⟨hc, hcn⟩),
        hsignR, hsignS]
      · rwa [hsignR]
      · rwa [hsignR, hsignS]
    have hrn : r < secN := hsignR ▸ signR_lt _
    have hxn : x < secN := hsignS ▸ signS_lt _ _ _ _
    obtain ⟨hlowPos, hlowLt, hlow⟩ := lowS_inRange lows hx0 hxn
    refine (ecdsaSign_completes hd hvalue hrn hlowLt hpc).imp fun t ⟨hfirst, hsecond⟩ => ?_
    rw [hfirst, hsecond]
    exact ⟨rfl, lowS_eq lows x, Nat.one_le_iff_ne_zero.mpr hr0, hrn, hlowPos, hlowLt, hlow⟩

/-! ### ECDSA_VERIFY -/

theorem ecdsaVerify_inRange {a b c : Slot} {lows : Bool} (hb : b.toNat ≤ 126) (hc : c.toNat ≤ 126) :
    regionsInRange (.ecdsaVerify a b c lows) = true := by
  simp [regionsInRange, readRegions, writeRegions, slotAt_inRange, slotPair_inRange hb, slotPair_inRange hc]

theorem verifyPoint_eq {e r x w : Nat} (q : Point) (hw : w = x ^ (secN - 2) % secN) :
    verifyPoint e q r x = pointAdd (scalarMul (e * w % secN) basePoint) (scalarMul (r * w % secN) q) := by
  rw [verifyPoint, fermatInverse_secN, hw]

/-- The verdict: s is not high under LOWS, and the point is not O and has `r` for its x (R262, R264). -/
theorem ecdsaAccepts_iff (e : Nat) (q : Point) (r x : Nat) (lows : Bool) :
    ecdsaAccepts e q r x lows = true ↔ ¬(lows = true ∧ secHalf < x) ∧ verifyPoint e q r x ≠ .infinity ∧
      pointX (verifyPoint e q r x) % secN = r := by
  have hpolicy : (lows && decide (secHalf < x)) = true ↔ lows = true ∧ secHalf < x := by
    rw [Bool.and_eq_true, decide_eq_true_iff]
  unfold ecdsaAccepts
  simp only [hpolicy]
  split
  next hhigh => exact iff_of_false Bool.false_ne_true fun ⟨hlow, _⟩ => hlow hhigh
  next hlow =>
    rw [and_iff_right hlow]
    cases verifyPoint e q r x with
    | infinity => exact iff_of_false Bool.false_ne_true fun ⟨hfinite, _⟩ => hfinite rfl
    | affine px py => rw [beq_iff_eq, pointX, and_iff_right Point.noConfusion]

theorem ecdsaVerifyValue_domain {e qx qy r x : Nat} {lows : Bool}
    (h : scalarInRange r = false ∨ scalarInRange x = false ∨ ¬AffineOnCurve qx qy) :
    ecdsaVerifyValue e qx qy r x lows = .error .domain := by
  rw [← onCurve_iff, Bool.not_eq_true] at h
  unfold ecdsaVerifyValue
  split_ifs with hscalars hkey
  · rfl
  · rfl
  · rw [Bool.not_eq_true', Bool.not_eq_false, Bool.and_eq_true] at hscalars
    obtain ⟨-, hcurve⟩ := not_or.mp hkey
    simp [hscalars, hcurve] at h

/-- A key on the curve is not O, so nothing but the components is left to test. -/
theorem ecdsaVerifyValue_verdict {e qx qy r x : Nat} {lows : Bool} (hr : scalarInRange r = true)
    (hx : scalarInRange x = true) (hkey : AffineOnCurve qx qy) :
    ecdsaVerifyValue e qx qy r x lows = .ok (ecdsaAccepts e (.affine qx qy) r x lows) := by
  have hcurve : onCurve qx qy = true := (onCurve_iff qx qy).mpr hkey
  rw [ecdsaVerifyValue, hr, hx, pointOf_of_affineOnCurve hkey, hcurve, if_neg (by decide), if_neg (by simp)]

section verify

variable {a b c : Slot} {lows : Bool} {s : State}

theorem ruleOf_ecdsaVerify_error {e : ErrCode}
    (h : ecdsaVerifyValue (slotValue s a) (slotValue s b) (nextSlotValue s b) (slotValue s c) (nextSlotValue s c) lows =
      .error e) : ruleOf (.ecdsaVerify a b c lows) s = .error e := by
  rw [ruleOf, ruleEcdsaVerify, h]

theorem ruleOf_ecdsaVerify_verdict {verdict : Bool}
    (h : ecdsaVerifyValue (slotValue s a) (slotValue s b) (nextSlotValue s b) (slotValue s c) (nextSlotValue s c) lows =
      .ok verdict) : ruleOf (.ecdsaVerify a b c lows) s = .ok { v := some verdict } := by
  rw [ruleOf, ruleEcdsaVerify, h]

end verify

/-- Settles O48: the effect of ECDSA_VERIFY is its verdict and no write. -/
theorem ecdsaVerify : Obligations.EcdsaVerify := by
  intro a b c lows s w hw
  refine ⟨hasForm_of_fields _ _ _ rfl rfl, fun hb hc => ?_⟩
  have hrange : regionsInRange (.ecdsaVerify a b c lows) = true := ecdsaVerify_inRange hb hc
  refine ⟨fun hdomain => ?domain, ?verdict⟩
  case domain =>
    refine exec_halts _ s _ nofun hrange (ruleOf_ecdsaVerify_error (ecdsaVerifyValue_domain ?_))
    rw [scalarInRange_eq_false_iff, scalarInRange_eq_false_iff, or_assoc, or_assoc]
    exact hdomain
  case verdict =>
    intro hr hrn hx hxn hkey hpc
    have hvalue := ecdsaVerifyValue_verdict (e := slotValue s a) (lows := lows)
      ((scalarInRange_iff _).mpr ⟨hr, hrn⟩) ((scalarInRange_iff _).mpr ⟨hx, hxn⟩) hkey
    obtain ⟨t, ht, hdone, hdm, hcarry, hv, hcmp, -⟩ :=
      exec_completes (.ecdsaVerify a b c lows) s _ nofun hrange (ruleOf_ecdsaVerify_verdict hvalue) hpc
    refine ⟨t, ht, hdone, hdm, hcarry, hcmp, ?_⟩
    rw [hv, Option.getD_some, ecdsaAccepts_iff, verifyPoint_eq _ hw]

end Sys2Proof.Machine
end

section
/-! PROOFS. The SHA-256 commands (spec/44_sha256.md R286 to R291). Streaming is settled by what a context holds
(`HoldsSha256`): absorbing a message piece by piece is absorbing it whole, and UPDATE keeps the context that of the message
fed so far. -/

namespace Sys2Proof.Machine

/-! ### Commands that write part of a region -/

theorem Memory.readBytes_add (m : Memory) (a n k : Nat) :
    m.readBytes a (n + k) = m.readBytes a n ++ m.readBytes (a + n) k := by
  induction n generalizing a with
  | zero => simp [Memory.readBytes]
  | succ n ih => rw [Nat.succ_add, Memory.readBytes, Memory.readBytes, ih, List.cons_append, Nat.add_assoc, Nat.add_comm 1]

/-- A byte string written alone at the start of a longer range: the range holds it, then what it held behind it. -/
theorem memRead_of_putBytes_at_start {s t : State} {x : Slot} {bs : List Byte} {n : Nat}
    (h : t.dm = applyWrites s.dm [putBytes x bs]) (hn : bs.length ≤ n) :
    memRead t (slotAddr x) n = bs ++ (memRead s (slotAddr x) n).drop bs.length := by
  obtain ⟨k, rfl⟩ := Nat.exists_eq_add_of_le hn
  have hwritten : t.dm.readBytes (slotAddr x) bs.length = bs := memRead_putBytes h rfl
  have hbehind : t.dm.readBytes (slotAddr x + bs.length) k = s.dm.readBytes (slotAddr x + bs.length) k := by
    rw [h]
    exact Memory.readBytes_writeBytes_apart _ _ _ _ _ (.inr (Nat.le_refl _))
  rw [memRead, memRead, Memory.readBytes_add, Memory.readBytes_add, hwritten, hbehind,
    List.drop_left' (Memory.readBytes_length _ _ _)]

/-- A byte of the first of two strings written reads as written, where the second does not lie over it. -/
theorem read_applyWrites_first (dm : Memory) (x y : Slot) (bs bs' : List Byte) (k : Nat) (hk : k < bs.length)
    (hout : (bytesAt y bs'.length).has (slotAddr x + k) = false) :
    (applyWrites dm [putBytes x bs, putBytes y bs']).read (slotAddr x + k) = bs.getD k 0 := by
  have hapart : slotAddr x + k < slotAddr y ∨ slotAddr y + bs'.length ≤ slotAddr x + k :=
    (Region.has_eq_false _ _).mp hout
  show ((dm.writeBytes (slotAddr x) bs).writeBytes (slotAddr y) bs').read (slotAddr x + k) = bs.getD k 0
  rw [Memory.read_writeBytes, if_neg (by omega), Memory.read_writeBytes, if_pos (by omega), Nat.add_sub_cancel_left]

theorem zeros_append_getD (n k : Nat) (b : Byte) (hk : k < n + 1) :
    (zeros n ++ [b]).getD k 0 = if k = n then b else 0 := by
  split
  next hlast => rw [hlast, List.getD_append_right _ _ _ _ (zeros_length n).le, zeros_length, Nat.sub_self]; rfl
  next hne =>
    have hlt : k < n := by omega
    rw [List.getD_append _ _ _ _ (by rwa [zeros_length]), zeros, List.getD_replicate _ hlt]

/-- A command that halts on an error does not complete. -/
theorem HaltsWith.not_completed {i : Instr} {s t : State} {e : ErrCode} (h : HaltsWith i s e) (ht : exec i s = .next t) :
    ¬Completed s t := by
  rintro ⟨hmoved, -⟩
  obtain ⟨t', ht', hhalted⟩ := h
  cases ht'.symm.trans ht
  exact not_errorHalted_of_pc_moved e s t hmoved hhalted

/-- A command that completed was in range. -/
theorem inRange_of_completed {i : Instr} {s t : State} (hi : i ≠ .endSeq) (h : exec i s = .next t)
    (hdone : Completed s t) : regionsInRange i = true := by
  by_contra hr
  exact (exec_outOfRange i s hi (Bool.eq_false_iff.mpr hr)).not_completed h hdone

/-! ### The ranges of the four commands -/

theorem inRange_bytesAt_iff (x : Slot) (n : Nat) : (bytesAt x n).inRange = true ↔ 32 * x.toNat + n ≤ 4096 :=
  decide_eq_true_iff

theorem sha256Init_inRange_iff (c : Slot) : regionsInRange (.sha256Init c) = true ↔ c.toNat ≤ 124 := by
  simp only [regionsInRange, readRegions, writeRegions, List.nil_append, List.all_cons, List.all_nil, Bool.and_true,
    slotsAt_inRange]
  omega

theorem sha256Compress_inRange_iff (a c : Slot) : regionsInRange (.sha256Compress a c) = true ↔ a.toNat ≤ 126 := by
  simp only [regionsInRange, readRegions, writeRegions, List.cons_append, List.nil_append, List.all_cons, List.all_nil,
    slotAt_inRange, Bool.and_true, slotsAt_inRange]
  omega

theorem sha256Update_inRange_iff (a c : Slot) (l1 : Len) :
    regionsInRange (.sha256Update a c l1) = true ↔ 32 * a.toNat + l1.toNat ≤ 4096 ∧ c.toNat ≤ 124 := by
  simp only [regionsInRange, readRegions, writeRegions, List.cons_append, List.nil_append, List.all_cons, List.all_nil,
    Bool.and_true, Bool.and_eq_true, inRange_bytesAt_iff, slotsAt_inRange]
  omega

theorem sha256Final_inRange_iff (d c : Slot) : regionsInRange (.sha256Final d c) = true ↔ c.toNat ≤ 124 := by
  simp only [regionsInRange, readRegions, writeRegions, List.cons_append, List.nil_append, List.all_cons, List.all_nil,
    slotAt_inRange, Bool.and_true, Bool.and_eq_true, inRange_bytesAt_iff, slotsAt_inRange]
  omega

theorem sha256Compress_hasForm (a c : Slot) : HasForm (.sha256Compress a c) ⟨0x43, 0, a, 0, c, 0, 0, 0⟩
    [(32 * a.toNat, 64), (32 * c.toNat, 32)] := by
  refine hasForm_of_fields _ _ _ rfl (Bool.eq_iff_iff.mpr ?_)
  have hc := c.isLt
  simp only [sha256Compress_inRange_iff, List.all_cons, List.all_nil, Bool.and_true, Bool.and_eq_true, decide_eq_true_iff]
  omega

theorem sha256Update_hasForm (a c : Slot) (l1 : Len) : HasForm (.sha256Update a c l1) ⟨0x41, 0, a, 0, c, l1, 0, 0⟩
    [(32 * a.toNat, l1.toNat), (32 * c.toNat, 128)] := by
  refine hasForm_of_fields _ _ _ rfl (Bool.eq_iff_iff.mpr ?_)
  simp only [sha256Update_inRange_iff, List.all_cons, List.all_nil, Bool.and_true, Bool.and_eq_true, decide_eq_true_iff]
  omega

theorem sha256Final_hasForm (d c : Slot) : HasForm (.sha256Final d c) ⟨0x42, d, 0, 0, c, 0, 0, 0⟩
    [(32 * c.toNat, 128), (32 * d.toNat, 32)] := by
  refine hasForm_of_fields _ _ _ rfl (Bool.eq_iff_iff.mpr ?_)
  have hd := d.isLt
  simp only [sha256Final_inRange_iff, List.all_cons, List.all_nil, Bool.and_true, Bool.and_eq_true, decide_eq_true_iff]
  omega

/-! ### INIT and COMPRESS -/

theorem shaInitContext_length : shaInitContext.length = 128 := by simp [shaInitContext, shaIv]

/-- Settles O49: both rules write one byte string at C, of the whole context and of one slot. -/
theorem shaInitAndCompress : Obligations.ShaInitAndCompress := by
  intro a c s
  refine ⟨hasForm_of_fields _ _ _ rfl rfl, sha256Compress_hasForm a c, fun hc hpc => ?_, fun hc => ?_, fun ha hpc => ?_⟩
  · refine exec_completesWriting (.sha256Init c) s _ _ nofun ((sha256Init_inRange_iff c).mpr hc) rfl hpc fun t ht => ?_
    rw [memRead_putBytes ht shaInitContext_length, shaInitContext, shaIv]
    simp only [List.append_assoc, List.singleton_append]
  · refine exec_outOfRange (.sha256Init c) s nofun (Bool.eq_false_iff.mpr fun hr => ?_)
    have := (sha256Init_inRange_iff c).mp hr
    omega
  · exact exec_completesWriting (.sha256Compress a c) s _ _ nofun ((sha256Compress_inRange_iff a c).mpr ha) rfl hpc
      fun t ht => memRead_putBytes ht (by simp)

/-! ### UPDATE and FINAL -/

section shaRules

variable {d a c : Slot} {l1 : Len} {s : State} {ctx : List Byte} (hctx : ctx = memRead s (slotAddr c) 128)

include hctx

theorem ruleSha256Update_misuse (h : byteAt ctx 104 ≠ 1 ∨ 2 ^ 61 ≤ shaCount ctx + l1.toNat) :
    ruleSha256Update a c l1 s = .error .misuse := by
  subst hctx
  by_cases hactive : byteAt (memRead s (slotAddr c) 128) 104 = 1
  · exact (if_neg (not_not_intro hactive)).trans (if_pos (h.resolve_left (not_not_intro hactive)))
  · exact if_pos hactive

theorem ruleSha256Update_advances (hactive : byteAt ctx 104 = 1) (hlimit : shaCount ctx + l1.toNat < 2 ^ 61) :
    ruleSha256Update a c l1 s = writesResult [putBytes c (shaUpdated ctx (memRead s (slotAddr a) l1.toNat))] := by
  subst hctx
  exact (if_neg (not_not_intro hactive)).trans (if_neg (Nat.not_le.mpr hlimit))

theorem ruleSha256Final_misuse (h : byteAt ctx 104 ≠ 1 ∨ 2 ^ 61 ≤ shaCount ctx) :
    ruleSha256Final d c s = .error .misuse := by
  subst hctx
  by_cases hactive : byteAt (memRead s (slotAddr c) 128) 104 = 1
  · exact (if_neg (not_not_intro hactive)).trans (if_pos (h.resolve_left (not_not_intro hactive)))
  · exact if_pos hactive

theorem ruleSha256Final_consumes (hactive : byteAt ctx 104 = 1) (hlimit : shaCount ctx < 2 ^ 61) :
    ruleSha256Final d c s = writesResult [putBytes c (zeros 104 ++ [2]), putBytes d (shaDigest ctx)] := by
  subst hctx
  exact (if_neg (not_not_intro hactive)).trans (if_neg (Nat.not_le.mpr hlimit))

theorem sha256Update_halts (hr : regionsInRange (.sha256Update a c l1) = true)
    (h : byteAt ctx 104 ≠ 1 ∨ 2 ^ 61 ≤ shaCount ctx + l1.toNat) : HaltsWith (.sha256Update a c l1) s .misuse :=
  exec_halts _ s _ nofun hr (ruleSha256Update_misuse hctx h)

theorem sha256Update_completes (hr : regionsInRange (.sha256Update a c l1) = true) (hactive : byteAt ctx 104 = 1)
    (hlimit : shaCount ctx + l1.toNat < 2 ^ 61) (hpc : s.pc ≠ 255) :
    CompletesWriting (.sha256Update a c l1) s [bytesAt c 104] fun t =>
      memRead t (slotAddr c) 128 = shaUpdated ctx (memRead s (slotAddr a) l1.toNat) ++ ctx.drop 104 := by
  have hlen : (shaUpdated ctx (memRead s (slotAddr a) l1.toNat)).length = 104 := shaUpdated_length _ _ (by simp [hctx])
  refine exec_completesWriting (.sha256Update a c l1) s _ _ nofun hr (ruleSha256Update_advances hctx hactive hlimit) hpc
    fun t ht => ?_
  rw [memRead_of_putBytes_at_start ht (by omega), hlen, ← hctx]

theorem sha256Final_completes (hr : regionsInRange (.sha256Final d c) = true) (hactive : byteAt ctx 104 = 1)
    (hlimit : shaCount ctx < 2 ^ 61) (hpc : s.pc ≠ 255) :
    CompletesWriting (.sha256Final d c) s [bytesAt c 105, slotsAt d 1] fun t =>
      memRead t (slotAddr d) 32 = shaDigest ctx ∧
      ∀ k, k < 105 → (slotsAt d 1).has (slotAddr c + k) = false →
        t.dm.read (slotAddr c + k) = if k = 104 then 2 else 0 := by
  have hlen : (shaDigest ctx).length = 32 := shaDigest_length ctx (by simp [hctx])
  refine exec_completesWriting (.sha256Final d c) s _ _ nofun hr (ruleSha256Final_consumes hctx hactive hlimit) hpc
    fun t ht => ⟨?digest, fun k hk hout => ?consumed⟩
  case digest =>
    rw [memRead, ht]
    exact readBytes_applyWrites_last s.dm [putBytes c (zeros 104 ++ [2])] _ _ _ hlen
  case consumed =>
    rw [ht, read_applyWrites_first _ _ _ _ _ _ (by simpa using hk) (by rw [hlen]; exact hout)]
    exact zeros_append_getD 104 k 2 hk

end shaRules

/-- Settles O50: each rule's two checks, then what it writes. -/
theorem shaUpdateAndFinal : Obligations.ShaUpdateAndFinal := by
  intro d a c l1 s ctx hctx
  refine ⟨sha256Update_hasForm a c l1, sha256Final_hasForm d c, fun hc ha => ?update, fun hc => ?final⟩
  case update =>
    have hr := (sha256Update_inRange_iff a c l1).mpr ⟨ha, hc⟩
    exact ⟨sha256Update_halts hctx hr, sha256Update_completes hctx hr⟩
  case final =>
    have hr := (sha256Final_inRange_iff d c).mpr hc
    exact ⟨fun h => exec_halts _ s _ nofun hr (ruleSha256Final_misuse hctx h), sha256Final_completes hctx hr⟩

/-! ### Absorbing in pieces -/

/-- Absorb every whole block of the data: the state after them and the bytes left over (spec/44_sha256.md R287). -/
def shaAbsorbAll (hs : List W32) (data : List Byte) : List W32 × List Byte := shaAbsorb (data.length / 64) hs data

theorem shaAbsorb_add (n k : Nat) (hs : List W32) (data : List Byte) :
    shaAbsorb (n + k) hs data = shaAbsorb k (shaAbsorb n hs data).1 (shaAbsorb n hs data).2 := by
  induction n generalizing hs data with
  | zero => rw [Nat.zero_add, shaAbsorb]
  | succ n ih => rw [Nat.succ_add, shaAbsorb, shaAbsorb, ih]

/-- Bytes behind the blocks absorbed are left over. -/
theorem shaAbsorb_append (n : Nat) (hs : List W32) (data more : List Byte) (h : 64 * n ≤ data.length) :
    shaAbsorb n hs (data ++ more) = ((shaAbsorb n hs data).1, (shaAbsorb n hs data).2 ++ more) := by
  induction n generalizing hs data with
  | zero => rfl
  | succ n ih =>
    rw [shaAbsorb, shaAbsorb, List.take_append_of_le_length (by omega), List.drop_append_of_le_length (by omega),
      ih _ _ (by rw [List.length_drop]; omega)]

theorem shaAbsorbAll_length {hs : List W32} (data : List Byte) (h : hs.length = 8) :
    (shaAbsorbAll hs data).1.length = 8 ∧ (shaAbsorbAll hs data).2.length = data.length % 64 := by
  obtain ⟨hstate, hleft⟩ := shaAbsorb_length (data.length / 64) hs data h
  exact ⟨hstate, hleft.trans (by omega)⟩

/-- Absorbing a message in two pieces is absorbing it whole, whatever the split (spec/44_sha256.md R291). -/
theorem shaAbsorbAll_append {hs : List W32} (data more : List Byte) (h : hs.length = 8) :
    shaAbsorbAll hs (data ++ more) =
      shaAbsorbAll (shaAbsorbAll hs data).1 ((shaAbsorbAll hs data).2 ++ more) := by
  have hleft := (shaAbsorbAll_length data h).2
  have hblocks : (data ++ more).length / 64 =
      data.length / 64 + ((shaAbsorbAll hs data).2 ++ more).length / 64 := by
    rw [List.length_append, List.length_append, hleft]
    omega
  calc shaAbsorbAll hs (data ++ more)
      = shaAbsorb (data.length / 64 + ((shaAbsorbAll hs data).2 ++ more).length / 64) hs (data ++ more) := by
        rw [shaAbsorbAll, hblocks]
    _ = shaAbsorbAll (shaAbsorbAll hs data).1 ((shaAbsorbAll hs data).2 ++ more) := by
        rw [shaAbsorb_add, shaAbsorb_append _ _ _ _ (by omega)]
        rfl

/-! ### What a context holds -/

theorem be32Words_cons_of_length {bs : List Byte} (rest : List Byte) (h : bs.length = 4) :
    be32Words (bs ++ rest) = BitVec.ofNat 32 (be bs) :: be32Words rest := by
  obtain ⟨b0, b1, b2, b3, rfl⟩ := List.length_eq_four.mp h
  rfl

theorem be32Words_wordsBe32 (ws : List W32) : be32Words (wordsBe32 ws) = ws := by
  induction ws with
  | nil => rfl
  | cons w ws ih =>
    have hw : BitVec.ofNat 32 (be (beBytes 4 w.toNat)) = w := by
      rw [be_beBytes, Nat.mod_eq_of_lt (show w.toNat < 256 ^ 4 from w.isLt), BitVec.ofNat_toNat, BitVec.setWidth_eq]
    rw [wordsBe32, List.flatMap_cons, be32Words_cons_of_length _ (beBytes_length 4 _), hw]
    exact congrArg _ ih

theorem byteAt_eq_drop (bs : List Byte) (i : Nat) : byteAt bs i = (bs.drop i).getD 0 0 := by
  simp [byteAt, List.getD_eq_getElem?_getD]

/-- The layout of a context (spec/44_sha256.md R284): the state, the buffered bytes and zeros up to 64, the count, and
the bytes from the tag on. -/
def shaContext (hs : List W32) (buffered : List Byte) (count : Nat) (rest : List Byte) : List Byte :=
  wordsBe32 hs ++ buffered ++ zeros (64 - buffered.length) ++ beBytes 8 count ++ rest

theorem shaInitContext_eq : shaInitContext = shaContext shaIv [] 0 ((1 : Byte) :: zeros 23) := by
  rw [shaInitContext, shaContext, List.append_nil, List.length_nil]

theorem shaUpdated_append (ctx data rest : List Byte) : shaUpdated ctx data ++ rest =
    shaContext (shaAbsorbAll (be32Words (ctx.take 32)) (shaBuffered ctx ++ data)).1
      (shaAbsorbAll (be32Words (ctx.take 32)) (shaBuffered ctx ++ data)).2 (shaCount ctx + data.length) rest := rfl

section layout

variable {hs : List W32} {buffered : List Byte} {count : Nat} {rest : List Byte}

theorem shaContext_state (hhs : hs.length = 8) : be32Words ((shaContext hs buffered count rest).take 32) = hs := by
  rw [shaContext, List.append_assoc, List.append_assoc, List.append_assoc, List.take_left' (by simp [hhs]),
    be32Words_wordsBe32]

section fields

variable (hhs : hs.length = 8) (hbuf : buffered.length ≤ 64)

include hhs hbuf

theorem shaContext_front_length : (wordsBe32 hs ++ buffered ++ zeros (64 - buffered.length)).length = 96 := by
  simp only [List.length_append, wordsBe32_length, zeros_length, hhs]
  omega

theorem shaContext_rest : (shaContext hs buffered count rest).drop 104 = rest := by
  refine List.drop_left' ?_
  rw [List.length_append, shaContext_front_length hhs hbuf, beBytes_length]

theorem shaContext_tag : byteAt (shaContext hs buffered count rest) 104 = rest.getD 0 0 := by
  rw [byteAt_eq_drop, shaContext_rest hhs hbuf]

theorem shaContext_count (hcount : count < 2 ^ 64) : shaCount (shaContext hs buffered count rest) = count := by
  have hfront := shaContext_front_length hhs hbuf
  have hslice : slice (shaContext hs buffered count rest) 96 104 = beBytes 8 count := by
    rw [slice, shaContext, List.take_left' (by rw [List.length_append, hfront, beBytes_length]), List.drop_left' hfront]
  rw [shaCount, hslice, be_beBytes]
  exact Nat.mod_eq_of_lt hcount

end fields

/-- The count says how many of the 64 bytes are buffered. -/
theorem shaContext_buffered (hhs : hs.length = 8) (hcount : count < 2 ^ 64) (hbuf : buffered.length = count % 64) :
    shaBuffered (shaContext hs buffered count rest) = buffered := by
  have hwords : (wordsBe32 hs).length = 32 := by simp [hhs]
  rw [shaBuffered, shaContext_count hhs (by omega) hcount, slice, shaContext, List.append_assoc, List.append_assoc,
    List.take_left' (by rw [List.length_append, hwords, hbuf]), List.drop_left' hwords]

end layout

/-- The bytes hold the message as an Active context: its blocks compressed, the rest of it buffered, its length counted
(spec/44_sha256.md R284, R285). -/
def HoldsSha256 (message ctx : List Byte) : Prop :=
  message.length < 2 ^ 61 ∧ ∃ rest, rest.getD 0 0 = (1 : Byte) ∧
    ctx = shaContext (shaAbsorbAll shaIv message).1 (shaAbsorbAll shaIv message).2 message.length rest

/-- What the commands read of a context that holds a message. -/
theorem HoldsSha256.fields {message ctx : List Byte} (h : HoldsSha256 message ctx) :
    byteAt ctx 104 = 1 ∧ shaCount ctx = message.length ∧ message.length < 2 ^ 61 ∧
      be32Words (ctx.take 32) = (shaAbsorbAll shaIv message).1 ∧ shaBuffered ctx = (shaAbsorbAll shaIv message).2 := by
  obtain ⟨hlimit, rest, htag, rfl⟩ := h
  obtain ⟨hstate, hleft⟩ := shaAbsorbAll_length (hs := shaIv) message rfl
  have hbuf : (shaAbsorbAll shaIv message).2.length ≤ 64 := by omega
  have hcount : message.length < 2 ^ 64 := by omega
  exact ⟨(shaContext_tag hstate hbuf).trans htag, shaContext_count hstate hbuf hcount, hlimit, shaContext_state hstate,
    shaContext_buffered hstate hcount hleft⟩

theorem holdsSha256_init : HoldsSha256 [] shaInitContext := ⟨by decide, _, rfl, shaInitContext_eq⟩

/-- An update of the context of a message makes it the context of the message and the data. -/
theorem HoldsSha256.updated {message ctx : List Byte} (h : HoldsSha256 message ctx) (data : List Byte)
    (hlimit : shaCount ctx + data.length < 2 ^ 61) :
    HoldsSha256 (message ++ data) (shaUpdated ctx data ++ ctx.drop 104) := by
  obtain ⟨htag, hcount, -, hstate, hbuffered⟩ := h.fields
  rw [hcount] at hlimit
  refine ⟨by rwa [List.length_append], ctx.drop 104, byteAt_eq_drop ctx 104 ▸ htag, ?_⟩
  rw [shaUpdated_append, hstate, hbuffered, hcount, List.length_append, shaAbsorbAll_append message data rfl]

/-- The digest of the context of a message is the one-shot digest of the message (spec/44_sha256.md R291). -/
theorem HoldsSha256.digest {message ctx : List Byte} (h : HoldsSha256 message ctx) : shaDigest ctx = sha256 message := by
  obtain ⟨-, hcount, -, hstate, hbuffered⟩ := h.fields
  calc shaDigest ctx
      = wordsBe32 (shaAbsorbAll (be32Words (ctx.take 32)) (shaBuffered ctx ++ shaPadding (shaCount ctx))).1 := rfl
    _ = wordsBe32 (shaAbsorbAll shaIv (message ++ shaPadding message.length)).1 := by
        rw [hstate, hbuffered, hcount, shaAbsorbAll_append message _ rfl]
    _ = sha256 message := rfl

/-! ### Streaming -/

theorem sha256Init_of_completed {c : Slot} {s t : State} (h : exec (.sha256Init c) s = .next t) (hdone : Completed s t) :
    c.toNat ≤ 124 ∧ memRead t (slotAddr c) 128 = shaInitContext := by
  obtain ⟨ef, hrule, hdm⟩ := committed_of_completed (i := .sha256Init c) nofun h hdone
  cases hrule
  exact ⟨(sha256Init_inRange_iff c).mp (inRange_of_completed nofun h hdone), memRead_putBytes hdm shaInitContext_length⟩

/-- An UPDATE that completed found the context within the limit, and advanced it. -/
theorem sha256Update_of_completed {a c : Slot} {l1 : Len} {s t : State} {ctx : List Byte}
    (hctx : ctx = memRead s (slotAddr c) 128) (h : exec (.sha256Update a c l1) s = .next t) (hdone : Completed s t) :
    shaCount ctx + l1.toNat < 2 ^ 61 ∧
      memRead t (slotAddr c) 128 = shaUpdated ctx (memRead s (slotAddr a) l1.toNat) ++ ctx.drop 104 := by
  have hr := inRange_of_completed (i := .sha256Update a c l1) nofun h hdone
  have hpc := pc_ne_last_of_completed (i := .sha256Update a c l1) nofun h hdone
  by_cases hmisuse : byteAt ctx 104 ≠ 1 ∨ 2 ^ 61 ≤ shaCount ctx + l1.toNat
  · exact absurd hdone ((sha256Update_halts hctx hr hmisuse).not_completed h)
  · obtain ⟨hactive, hlimit⟩ := not_or.mp hmisuse
    have hlimit := Nat.not_le.mp hlimit
    exact ⟨hlimit, (sha256Update_completes hctx hr (not_not.mp hactive) hlimit hpc).result_of_exec h⟩

/-- A context made and fed holds the message fed, and it is in range. -/
theorem holdsSha256_of_fed {c : Slot} {s : State} {message : List Byte}
    (h : Fed (.sha256Init c) (fun a l1 => .sha256Update a c l1) c 128 s message) :
    c.toNat ≤ 124 ∧ HoldsSha256 message (memRead s (slotAddr c) 128) := by
  induction h with
  | made s t u hexec hdone hkept =>
    obtain ⟨hc, hread⟩ := sha256Init_of_completed hexec hdone
    rw [hkept, hread]
    exact ⟨hc, holdsSha256_init⟩
  | piece s t u message a l1 _ hexec hdone hkept ih =>
    obtain ⟨hc, hholds⟩ := ih
    obtain ⟨hlimit, hread⟩ := sha256Update_of_completed rfl hexec hdone
    rw [hkept, hread]
    exact ⟨hc, hholds.updated _ (by rwa [memRead_length])⟩

/-- Settles O51: the context holds the message, so FINAL's checks pass and its digest is the one-shot digest. -/
theorem shaStreamingIsOneShot : Obligations.ShaStreamingIsOneShot := by
  intro c d s message hfed _ hpc
  obtain ⟨hc, hholds⟩ := holdsSha256_of_fed hfed
  obtain ⟨hactive, hcount, hlimit, -⟩ := hholds.fields
  obtain ⟨t, ht, ⟨hdigest, -⟩, hdone, -⟩ :=
    sha256Final_completes (d := d) rfl ((sha256Final_inRange_iff d c).mpr hc) hactive (hcount ▸ hlimit) hpc
  exact ⟨t, ht, hdone, hdigest.trans hholds.digest⟩

end Sys2Proof.Machine
end

section
/-! PROOFS. The Keccak commands (spec/45_keccak.md R314 to R320). The sponge absorbs byte by byte, so feeding a message in
pieces is a fold over their concatenation; what a context holds (`HoldsKeccak`) is kept by UPDATE. -/

namespace Sys2Proof.Machine

/-! ### The ranges of the four commands -/

theorem keccakInit_inRange_iff (c : Slot) : regionsInRange (.keccakInit c) = true ↔ c.toNat ≤ 121 := by
  simp only [regionsInRange, readRegions, writeRegions, List.nil_append, List.all_cons, List.all_nil, Bool.and_true,
    slotsAt_inRange]
  omega

/-- 200 bytes from a slot on reach into its seventh slot, so they are in DM exactly where a whole context is. -/
theorem keccakf_inRange_iff (c : Slot) : regionsInRange (.keccakf c) = true ↔ c.toNat ≤ 121 := by
  simp only [regionsInRange, readRegions, writeRegions, List.cons_append, List.nil_append, List.all_cons, List.all_nil,
    Bool.and_true, Bool.and_self, inRange_bytesAt_iff]
  omega

theorem keccakUpdate_inRange_iff (a c : Slot) (l1 : Len) :
    regionsInRange (.keccakUpdate a c l1) = true ↔ 32 * a.toNat + l1.toNat ≤ 4096 ∧ c.toNat ≤ 121 := by
  simp only [regionsInRange, readRegions, writeRegions, List.cons_append, List.nil_append, List.all_cons, List.all_nil,
    Bool.and_true, Bool.and_eq_true, inRange_bytesAt_iff, slotsAt_inRange]
  omega

theorem keccakFinal_inRange_iff (d c : Slot) : regionsInRange (.keccakFinal d c) = true ↔ c.toNat ≤ 121 := by
  simp only [regionsInRange, readRegions, writeRegions, List.cons_append, List.nil_append, List.all_cons, List.all_nil,
    slotAt_inRange, Bool.and_true, Bool.and_eq_true, inRange_bytesAt_iff, slotsAt_inRange]
  omega

theorem keccakUpdate_hasForm (a c : Slot) (l1 : Len) : HasForm (.keccakUpdate a c l1) ⟨0x45, 0, a, 0, c, l1, 0, 0⟩
    [(32 * a.toNat, l1.toNat), (32 * c.toNat, 224)] := by
  refine hasForm_of_fields _ _ _ rfl (Bool.eq_iff_iff.mpr ?_)
  simp only [keccakUpdate_inRange_iff, List.all_cons, List.all_nil, Bool.and_true, Bool.and_eq_true, decide_eq_true_iff]
  omega

theorem keccakFinal_hasForm (d c : Slot) : HasForm (.keccakFinal d c) ⟨0x46, d, 0, 0, c, 0, 0, 0⟩
    [(32 * c.toNat, 224), (32 * d.toNat, 32)] := by
  refine hasForm_of_fields _ _ _ rfl (Bool.eq_iff_iff.mpr ?_)
  have hd := d.isLt
  simp only [keccakFinal_inRange_iff, List.all_cons, List.all_nil, Bool.and_true, Bool.and_eq_true, decide_eq_true_iff]
  omega

theorem keccakf_hasForm (c : Slot) : HasForm (.keccakf c) ⟨0x47, 0, 0, 0, c, 0, 0, 0⟩ [(32 * c.toNat, 200)] := by
  refine hasForm_of_fields _ _ _ rfl (Bool.eq_iff_iff.mpr ?_)
  simp only [keccakf_inRange_iff, List.all_cons, List.all_nil, Bool.and_true, decide_eq_true_iff]
  omega

/-! ### INIT and the permutation -/

theorem keccakInitContext_length : keccakInitContext.length = 224 := by simp [keccakInitContext]

theorem keccakInitContext_eq : keccakInitContext = zeros 200 ++ [0, 1] ++ zeros 22 := by
  rw [List.append_assoc]
  rfl

/-- Settles O52: both rules write one byte string at C, of the whole context and of the 200 bytes of the state. -/
theorem keccakInitAndPermutation : Obligations.KeccakInitAndPermutation := by
  intro c s
  refine ⟨hasForm_of_fields _ _ _ rfl rfl, keccakf_hasForm c, fun hc hpc => ⟨?init, ?permutation⟩, fun hc => ?outOfRange⟩
  case init =>
    exact exec_completesWriting (.keccakInit c) s _ _ nofun ((keccakInit_inRange_iff c).mpr hc) rfl hpc
      fun t ht => (memRead_putBytes ht keccakInitContext_length).trans keccakInitContext_eq
  case permutation =>
    exact exec_completesWriting (.keccakf c) s _ _ nofun ((keccakf_inRange_iff c).mpr hc) rfl hpc
      fun t ht => memRead_putBytes ht (keccakPermute_length _)
  case outOfRange =>
    have hout : ¬c.toNat ≤ 121 := Nat.not_le.mpr hc
    exact ⟨exec_outOfRange _ s nofun (Bool.eq_false_iff.mpr ((keccakInit_inRange_iff c).not.mpr hout)),
      exec_outOfRange _ s nofun (Bool.eq_false_iff.mpr ((keccakf_inRange_iff c).not.mpr hout))⟩

/-! ### UPDATE and FINAL -/

/-- Two checks that raise the same error, in order: either of them raises it. -/
theorem twoChecks_error {p q : Prop} [Decidable p] [Decidable q] {e : ErrCode} {r : Result} (h : p ∨ q) :
    (if p then .error e else if q then .error e else r) = Except.error e := by
  by_cases hp : p
  · exact if_pos hp
  · exact (if_neg hp).trans (if_pos (h.resolve_left hp))

/-- The bytes FINAL leaves of a context (spec/45_keccak.md R317): zeros, and the tag 2 as the last of them. -/
theorem consumedContext_getD {k : Nat} (hk : k < 202) :
    (zeros 200 ++ [0, 2]).getD k 0 = if k = 201 then (2 : Byte) else 0 := by
  have hzeros : zeros 200 ++ [0, 2] = zeros 201 ++ [2] := rfl
  rw [hzeros]
  exact zeros_append_getD 201 k 2 hk

section keccakRules

variable {d a c : Slot} {l1 : Len} {s : State} {ctx : List Byte} (hctx : ctx = memRead s (slotAddr c) 224)

include hctx

theorem ruleKeccakUpdate_misuse (h : byteAt ctx 201 ≠ 1 ∨ 136 ≤ keccakPos ctx) :
    ruleKeccakUpdate a c l1 s = .error .misuse := by
  subst hctx
  exact twoChecks_error h

theorem ruleKeccakUpdate_absorbs (hactive : byteAt ctx 201 = 1) (hpos : keccakPos ctx < 136) :
    ruleKeccakUpdate a c l1 s = writesResult [putBytes c (keccakUpdated ctx (memRead s (slotAddr a) l1.toNat))] := by
  subst hctx
  exact (if_neg (not_not_intro hactive)).trans (if_neg (Nat.not_le.mpr hpos))

theorem ruleKeccakFinal_misuse (h : byteAt ctx 201 ≠ 1 ∨ 136 ≤ keccakPos ctx) :
    ruleKeccakFinal d c s = .error .misuse := by
  subst hctx
  exact twoChecks_error h

theorem ruleKeccakFinal_squeezes (hactive : byteAt ctx 201 = 1) (hpos : keccakPos ctx < 136) :
    ruleKeccakFinal d c s =
      writesResult [putBytes c (zeros 200 ++ [0, 2]), putBytes d (keccakSqueeze (ctx.take 200) (keccakPos ctx))] := by
  subst hctx
  exact (if_neg (not_not_intro hactive)).trans (if_neg (Nat.not_le.mpr hpos))

theorem keccakUpdate_halts (hr : regionsInRange (.keccakUpdate a c l1) = true)
    (h : byteAt ctx 201 ≠ 1 ∨ 136 ≤ keccakPos ctx) : HaltsWith (.keccakUpdate a c l1) s .misuse :=
  exec_halts _ s _ nofun hr (ruleKeccakUpdate_misuse hctx h)

theorem keccakUpdate_completes (hr : regionsInRange (.keccakUpdate a c l1) = true) (hactive : byteAt ctx 201 = 1)
    (hpos : keccakPos ctx < 136) (hpc : s.pc ≠ 255) :
    CompletesWriting (.keccakUpdate a c l1) s [bytesAt c 201] fun t =>
      memRead t (slotAddr c) 224 = keccakUpdated ctx (memRead s (slotAddr a) l1.toNat) ++ ctx.drop 201 := by
  have hlen : (keccakUpdated ctx (memRead s (slotAddr a) l1.toNat)).length = 201 :=
    keccakUpdated_length _ _ (by simp [hctx])
  refine exec_completesWriting (.keccakUpdate a c l1) s _ _ nofun hr (ruleKeccakUpdate_absorbs hctx hactive hpos) hpc
    fun t ht => ?_
  rw [memRead_of_putBytes_at_start ht (by omega), hlen, ← hctx]

theorem keccakFinal_completes (hr : regionsInRange (.keccakFinal d c) = true) (hactive : byteAt ctx 201 = 1)
    (hpos : keccakPos ctx < 136) (hpc : s.pc ≠ 255) :
    CompletesWriting (.keccakFinal d c) s [bytesAt c 202, slotsAt d 1] fun t =>
      memRead t (slotAddr d) 32 = keccakSqueeze (ctx.take 200) (keccakPos ctx) ∧
      ∀ k, k < 202 → (slotsAt d 1).has (slotAddr c + k) = false →
        t.dm.read (slotAddr c + k) = if k = 201 then 2 else 0 := by
  have hlen := keccakSqueeze_length (ctx.take 200) (keccakPos ctx)
  refine exec_completesWriting (.keccakFinal d c) s _ _ nofun hr (ruleKeccakFinal_squeezes hctx hactive hpos) hpc
    fun t ht => ⟨?digest, fun k hk hout => ?consumed⟩
  case digest =>
    rw [memRead, ht]
    exact readBytes_applyWrites_last s.dm [putBytes c (zeros 200 ++ [0, 2])] _ _ _ hlen
  case consumed =>
    rw [ht, read_applyWrites_first _ _ _ _ _ _ (by simpa using hk) (by rw [hlen]; exact hout)]
    exact consumedContext_getD hk

end keccakRules

/-- Settles O53: each rule's two checks, then what it writes. -/
theorem keccakUpdateAndFinal : Obligations.KeccakUpdateAndFinal := by
  intro d a c l1 s ctx hctx
  refine ⟨keccakUpdate_hasForm a c l1, keccakFinal_hasForm d c, fun hc ha => ?update, fun hc => ?final⟩
  case update =>
    have hr := (keccakUpdate_inRange_iff a c l1).mpr ⟨ha, hc⟩
    exact ⟨keccakUpdate_halts hctx hr, keccakUpdate_completes hctx hr⟩
  case final =>
    have hr := (keccakFinal_inRange_iff d c).mpr hc
    exact ⟨fun h => exec_halts _ s _ nofun hr (ruleKeccakFinal_misuse hctx h), keccakFinal_completes hctx hr⟩

/-! ### Absorbing in pieces -/

/-- Absorbing a message in two pieces is absorbing it whole, whatever the split (spec/45_keccak.md R320). -/
theorem keccakAbsorb_append (x : List Byte × Nat) (data more : List Byte) :
    keccakAbsorb x (data ++ more) = keccakAbsorb (keccakAbsorb x data) more := List.foldl_append

theorem keccakAbsorbByte_pos_lt {x : List Byte × Nat} (b : Byte) (h : x.2 < 136) : (keccakAbsorbByte x b).2 < 136 := by
  unfold keccakAbsorbByte
  split
  next => exact Nat.zero_lt_succ 135
  next hroom => exact Nat.lt_of_le_of_ne h hroom

/-- The position stays inside the rate block (spec/45_keccak.md R314). -/
theorem keccakAbsorb_pos_lt {x : List Byte × Nat} (data : List Byte) (h : x.2 < 136) : (keccakAbsorb x data).2 < 136 := by
  induction data generalizing x with
  | nil => exact h
  | cons b data ih => exact ih (keccakAbsorbByte_pos_lt b h)

/-! ### What a context holds -/

/-- The sponge after the message: the state and position that absorbing it from the empty sponge gives. -/
def keccakSponge (message : List Byte) : List Byte × Nat := keccakAbsorb (zeros 200, 0) message

theorem keccak256_eq (message : List Byte) :
    keccak256 message = keccakSqueeze (keccakSponge message).1 (keccakSponge message).2 := rfl

theorem keccakSponge_append (message data : List Byte) :
    keccakSponge (message ++ data) = keccakAbsorb (keccakSponge message) data := keccakAbsorb_append _ _ _

theorem keccakSponge_length (message : List Byte) : (keccakSponge message).1.length = 200 :=
  keccakAbsorb_length _ _ (zeros_length 200)

theorem keccakSponge_pos_lt (message : List Byte) : (keccakSponge message).2 < 136 :=
  keccakAbsorb_pos_lt message (Nat.zero_lt_succ 135)

/-- The context of a message fed so far (spec/45_keccak.md R314): Active, with the state and position of the sponge. -/
def HoldsKeccak (message ctx : List Byte) : Prop :=
  byteAt ctx 201 = 1 ∧ (ctx.take 200, keccakPos ctx) = keccakSponge message

/-- The context of a message passes the two checks of UPDATE and FINAL (spec/45_keccak.md R316, R317). -/
theorem HoldsKeccak.checks {message ctx : List Byte} (h : HoldsKeccak message ctx) :
    byteAt ctx 201 = 1 ∧ keccakPos ctx < 136 := by
  obtain ⟨hactive, hsponge⟩ := h
  have hpos : keccakPos ctx = (keccakSponge message).2 := congrArg Prod.snd hsponge
  exact ⟨hactive, hpos ▸ keccakSponge_pos_lt message⟩

theorem holdsKeccak_init : HoldsKeccak [] keccakInitContext := ⟨rfl, rfl⟩

/-- A context written as a state, a position and the bytes from the tag on is read back in those parts. -/
theorem keccakContext_parts {st : List Byte} {pos : Nat} (rest : List Byte) (hst : st.length = 200) (hpos : pos < 256) :
    ((st ++ [BitVec.ofNat 8 pos] ++ rest).take 200, keccakPos (st ++ [BitVec.ofNat 8 pos] ++ rest)) = (st, pos) ∧
      byteAt (st ++ [BitVec.ofNat 8 pos] ++ rest) 201 = rest.getD 0 0 := by
  have hstate : (st ++ [BitVec.ofNat 8 pos] ++ rest).take 200 = st := by rw [List.append_assoc, List.take_left' hst]
  have hbehind : (st ++ [BitVec.ofNat 8 pos] ++ rest).drop 200 = BitVec.ofNat 8 pos :: rest := by
    rw [List.append_assoc, List.drop_left' hst, List.singleton_append]
  have htag : (st ++ [BitVec.ofNat 8 pos] ++ rest).drop 201 = rest := List.drop_left' (by simp [hst])
  have hposition : keccakPos (st ++ [BitVec.ofNat 8 pos] ++ rest) = pos := by
    rw [keccakPos, byteAt_eq_drop, hbehind, List.getD_cons_zero, BitVec.toNat_ofNat, Nat.mod_eq_of_lt hpos]
  exact ⟨Prod.ext hstate hposition, by rw [byteAt_eq_drop, htag]⟩

/-- An update of the context of a message makes it the context of the message and the data. -/
theorem HoldsKeccak.updated {message ctx : List Byte} (h : HoldsKeccak message ctx) (data : List Byte) :
    HoldsKeccak (message ++ data) (keccakUpdated ctx data ++ ctx.drop 201) := by
  obtain ⟨hactive, hsponge⟩ := h
  have hwritten : keccakUpdated ctx data =
      (keccakSponge (message ++ data)).1 ++ [BitVec.ofNat 8 (keccakSponge (message ++ data)).2] := by
    rw [keccakUpdated, hsponge, keccakSponge_append]
  have hpos := keccakSponge_pos_lt (message ++ data)
  obtain ⟨hparts, htag⟩ := keccakContext_parts (ctx.drop 201) (keccakSponge_length (message ++ data))
    (pos := (keccakSponge (message ++ data)).2) (by omega)
  rw [hwritten]
  exact ⟨by rw [htag, ← byteAt_eq_drop, hactive], hparts⟩

/-- The digest of the context of a message is the one-shot digest of the message (spec/45_keccak.md R320). -/
theorem HoldsKeccak.digest {message ctx : List Byte} (h : HoldsKeccak message ctx) :
    keccakSqueeze (ctx.take 200) (keccakPos ctx) = keccak256 message := by
  obtain ⟨-, hsponge⟩ := h
  rw [keccak256_eq, ← hsponge]

/-! ### Streaming -/

theorem keccakInit_of_completed {c : Slot} {s t : State} (h : exec (.keccakInit c) s = .next t) (hdone : Completed s t) :
    c.toNat ≤ 121 ∧ memRead t (slotAddr c) 224 = keccakInitContext := by
  obtain ⟨ef, hrule, hdm⟩ := committed_of_completed (i := .keccakInit c) nofun h hdone
  cases hrule
  exact ⟨(keccakInit_inRange_iff c).mp (inRange_of_completed nofun h hdone),
    memRead_putBytes hdm keccakInitContext_length⟩

/-- An UPDATE that completed passed its two checks, and advanced the context. -/
theorem keccakUpdate_of_completed {a c : Slot} {l1 : Len} {s t : State} {ctx : List Byte}
    (hctx : ctx = memRead s (slotAddr c) 224) (h : exec (.keccakUpdate a c l1) s = .next t) (hdone : Completed s t) :
    memRead t (slotAddr c) 224 = keccakUpdated ctx (memRead s (slotAddr a) l1.toNat) ++ ctx.drop 201 := by
  have hr := inRange_of_completed (i := .keccakUpdate a c l1) nofun h hdone
  have hpc := pc_ne_last_of_completed (i := .keccakUpdate a c l1) nofun h hdone
  by_cases hmisuse : byteAt ctx 201 ≠ 1 ∨ 136 ≤ keccakPos ctx
  · exact absurd hdone ((keccakUpdate_halts hctx hr hmisuse).not_completed h)
  · obtain ⟨hactive, hpos⟩ := not_or.mp hmisuse
    exact (keccakUpdate_completes hctx hr (not_not.mp hactive) (Nat.not_le.mp hpos) hpc).result_of_exec h

/-- A context made and fed holds the message fed, and it is in range. -/
theorem holdsKeccak_of_fed {c : Slot} {s : State} {message : List Byte}
    (h : Fed (.keccakInit c) (fun a l1 => .keccakUpdate a c l1) c 224 s message) :
    c.toNat ≤ 121 ∧ HoldsKeccak message (memRead s (slotAddr c) 224) := by
  induction h with
  | made s t u hexec hdone hkept =>
    obtain ⟨hc, hread⟩ := keccakInit_of_completed hexec hdone
    rw [hkept, hread]
    exact ⟨hc, holdsKeccak_init⟩
  | piece s t u message a l1 _ hexec hdone hkept ih =>
    obtain ⟨hc, hholds⟩ := ih
    rw [hkept, keccakUpdate_of_completed rfl hexec hdone]
    exact ⟨hc, hholds.updated _⟩

/-- Settles O54: the context holds the message, so FINAL's checks pass and its digest is the one-shot digest. -/
theorem keccakStreamingIsOneShot : Obligations.KeccakStreamingIsOneShot := by
  intro c d s message hfed hpc
  obtain ⟨hc, hholds⟩ := holdsKeccak_of_fed hfed
  obtain ⟨hactive, hpos⟩ := hholds.checks
  obtain ⟨t, ht, ⟨hdigest, -⟩, hdone, -⟩ :=
    keccakFinal_completes (d := d) rfl ((keccakFinal_inRange_iff d c).mpr hc) hactive hpos hpc
  exact ⟨t, ht, hdone, hdigest.trans hholds.digest⟩

end Sys2Proof.Machine
end

section
/-! PROOFS. The BLAKE3 node command (spec/46_blake3.md R344, R345): its ranges, the parameters it reads at C, and its
rule. -/

namespace Sys2Proof.Machine

/-! ### The regions -/

theorem b3Compress_inRange_iff (d a b c : Slot) :
    regionsInRange (.b3Compress d a b c) = true ↔ b.toNat ≤ 126 ∧ d.toNat ≤ 126 := by
  simp only [regionsInRange, readRegions, writeRegions, List.cons_append, List.nil_append, List.all_cons, List.all_nil,
    slotAt_inRange, Bool.true_and, Bool.and_true, Bool.and_eq_true, slotsAt_inRange]
  omega

theorem b3Compress_hasForm (d a b c : Slot) : HasForm (.b3Compress d a b c) ⟨0x48, d, a, b, c, 0, 0, 0⟩
    [(32 * a.toNat, 32), (32 * b.toNat, 64), (32 * c.toNat, 32), (32 * d.toNat, 64)] := by
  refine hasForm_of_fields _ _ _ rfl (Bool.eq_iff_iff.mpr ?_)
  have ha := a.isLt
  have hc := c.isLt
  simp only [b3Compress_inRange_iff, List.all_cons, List.all_nil, Bool.and_true, Bool.and_eq_true, decide_eq_true_iff]
  omega

/-! ### The parameters -/

/-- The block length is the parameters' byte 8 (spec/46_blake3.md R344). -/
theorem b3Params_blockLength (s : State) (c : Slot) :
    byteAt (memRead s (slotAddr c) 32) 8 = s.dm.read (32 * c.toNat + 8) :=
  byteAt_memRead s _ 32 8 (by decide)

/-- The domain flags are the parameters' byte 9 (spec/46_blake3.md R344). -/
theorem b3Params_domainFlags (s : State) (c : Slot) :
    byteAt (memRead s (slotAddr c) 32) 9 = s.dm.read (32 * c.toNat + 9) :=
  byteAt_memRead s _ 32 9 (by decide)

/-- The counter is the parameters' first 8 bytes (spec/46_blake3.md R344). -/
theorem b3Params_counter (s : State) (c : Slot) : slice (memRead s (slotAddr c) 32) 0 8 = memRead s (slotAddr c) 8 :=
  slice_memRead s _ 32 0 8 (by decide)

/-! ### The rule -/

section b3Rules

variable {d a b c : Slot} {s : State}

theorem ruleB3Compress_encoding (h : 64 < (s.dm.read (32 * c.toNat + 8)).toNat) :
    ruleB3Compress d a b c s = .error .encoding := by
  rw [← b3Params_blockLength] at h
  exact if_pos h

theorem ruleB3Compress_node (h : (s.dm.read (32 * c.toNat + 8)).toNat ≤ 64) :
    ruleB3Compress d a b c s = writesResult [putBytes d (wordsLe32 (b3CompressWords
      (le32Words (memRead s (slotAddr a) 32)) (le32Words (memRead s (slotAddr b) 64)) (le (memRead s (slotAddr c) 8))
      (s.dm.read (32 * c.toNat + 8)).toNat (s.dm.read (32 * c.toNat + 9)).toNat))] := by
  rw [← b3Params_blockLength] at h
  rw [← b3Params_blockLength, ← b3Params_domainFlags, ← b3Params_counter]
  exact if_neg (Nat.not_lt.mpr h)

end b3Rules

/-- A node's output is 16 words of four bytes each. -/
theorem b3Node_length (s : State) (a : Slot) (m : List W32) (t n f : Nat) :
    (wordsLe32 (b3CompressWords (le32Words (memRead s (slotAddr a) 32)) m t n f)).length = 64 := by
  rw [wordsLe32_length, b3CompressWords_length _ _ _ _ _ (by simp)]

/-- Settles O55: the rule checks the block length, then writes the node's output as one string at D. -/
theorem blake3Node : Obligations.Blake3Node := by
  intro d a b c s
  refine ⟨b3Compress_hasForm d a b c, fun hb hd => ?_⟩
  have hr := (b3Compress_inRange_iff d a b c).mpr ⟨hb, hd⟩
  refine ⟨fun hlong => ?encoding, fun hfits hpc => ?node⟩
  case encoding => exact exec_halts _ s _ nofun hr (ruleB3Compress_encoding hlong)
  case node =>
    exact exec_completesWriting (.b3Compress d a b c) s _ _ nofun hr (ruleB3Compress_node hfits) hpc
      fun t ht => memRead_putBytes ht (b3Node_length s a _ _ _ _)

end Sys2Proof.Machine
end

section
/-! PROOFS. The ChaCha20 commands (spec/47_chacha20.md R373 to R376): what a key context holds, what each rule answers,
and, for CHACHA_XOR, which of its queued writes stands where the text lies over the context. -/

namespace Sys2Proof.Machine

/-! ### The key context -/

section keyContext

variable (s : State) (c : Slot)

theorem ctxKey_memRead : ctxKey (memRead s (slotAddr c) 64) = memRead s (slotAddr c) 32 :=
  slice_memRead s _ 64 0 32 (by decide)

theorem ctxCounter_memRead : ctxCounter (memRead s (slotAddr c) 64) = le (memRead s (slotAddr c + 32) 4) :=
  congrArg le (slice_memRead s _ 64 32 36 (by decide))

theorem ctxNonce_memRead : ctxNonce (memRead s (slotAddr c) 64) = memRead s (slotAddr c + 36) 12 :=
  slice_memRead s _ 64 36 48 (by decide)

/-- EXH is byte 48 of the context. -/
theorem ctxExh_memRead : byteAt (memRead s (slotAddr c) 64) 48 = s.dm.read (slotAddr c + 48) :=
  byteAt_memRead s _ 64 48 (by decide)

theorem counter_lt : le (memRead s (slotAddr c + 32) 4) < 2 ^ 32 := by
  have h := le_lt (memRead s (slotAddr c + 32) 4)
  rwa [memRead_length] at h

end keyContext

/-! ### The quarter round and the block -/

theorem chachaQr_inRange (d a : Slot) : regionsInRange (.chachaQr d a) = true := by
  have hd := d.isLt
  have ha := a.isLt
  simp only [regionsInRange, readRegions, writeRegions, List.cons_append, List.nil_append, List.all_cons, List.all_nil,
    Bool.and_true, Bool.and_eq_true, inRange_bytesAt_iff]
  omega

theorem chachaBlock_inRange {d c : Slot} (hc : c.toNat ≤ 126) (hd : d.toNat ≤ 126) :
    regionsInRange (.chachaBlock d c) = true := by
  simp [regionsInRange, readRegions, writeRegions, slotPair_inRange hc, slotPair_inRange hd]

/-- CHACHA_QR writes the quarter round of the words it reads. -/
theorem ruleChachaQr_words {d a : Slot} {s : State} {x0 x1 x2 x3 y0 y1 y2 y3 : W32}
    (hx : le32Words (memRead s (slotAddr a) 16) = [x0, x1, x2, x3]) (hy : quarterRound x0 x1 x2 x3 = (y0, y1, y2, y3)) :
    ruleChachaQr d a s = writesResult [putBytes d (wordsLe32 [y0, y1, y2, y3])] := by
  simp only [ruleChachaQr, hx, List.getD_cons_zero, List.getD_cons_succ, hy]

theorem ruleChachaBlock_block (d c : Slot) (s : State) :
    ruleChachaBlock d c s = writesResult [putBytes d (chachaBlock (memRead s (slotAddr c) 32)
      (le (memRead s (slotAddr c + 32) 4)) (memRead s (slotAddr c + 36) 12))] := by
  rw [ruleChachaBlock, ctxKey_memRead, ctxCounter_memRead, ctxNonce_memRead]

/-- The words of 16 bytes are four. -/
theorem exists_four_words {bs : List Byte} (h : bs.length = 16) : ∃ x0 x1 x2 x3, le32Words bs = [x0, x1, x2, x3] :=
  List.length_eq_four.mp (by rw [le32Words_length, h])

/-- Settles O56: each rule writes one byte string at D, of four words and of one block. -/
theorem chachaQuarterRoundAndBlock : Obligations.ChachaQuarterRoundAndBlock := by
  intro d a c s
  refine ⟨hasForm_of_fields _ _ _ rfl rfl, hasForm_of_fields _ _ _ rfl rfl, fun hpc => ?quarterRound,
    fun hc hd hpc => ?block⟩
  case quarterRound =>
    obtain ⟨x0, x1, x2, x3, hx⟩ := exists_four_words (memRead_length s (slotAddr a) 16)
    obtain ⟨y0, y1, y2, y3, hy⟩ : ∃ y0 y1 y2 y3, quarterRound x0 x1 x2 x3 = (y0, y1, y2, y3) := ⟨_, _, _, _, rfl⟩
    refine exec_completesWriting (.chachaQr d a) s _ _ nofun (chachaQr_inRange d a) (ruleChachaQr_words hx hy) hpc
      fun t ht x0' x1' x2' x3' y0' y1' y2' y3' hx' hy' => ?_
    cases hx.symm.trans hx'
    cases hy.symm.trans hy'
    exact memRead_putBytes ht (wordsLe32_length _)
  case block =>
    exact exec_completesWriting (.chachaBlock d c) s _ _ nofun (chachaBlock_inRange hc hd) (ruleChachaBlock_block d c s)
      hpc fun t ht => memRead_putBytes ht (chachaBlock_length _ _ _ (memRead_length _ _ _) (memRead_length _ _ _))

/-! ### The writes of CHACHA_XOR -/

/-- A command whose writes stay in some regions completes within them, where its rule's list of regions is wider. -/
theorem exec_completesWriting_within {i : Instr} {s : State} {ws : List Write} {rs : List Region}
    {result : State → Prop} (hi : i ≠ .endSeq) (hr : regionsInRange i = true) (h : ruleOf i s = writesResult ws)
    (hpc : s.pc ≠ 255) (hw : allWithin ws rs) (hres : ∀ t, t.dm = applyWrites s.dm ws → result t) :
    CompletesWriting i s rs result := by
  obtain ⟨t, ht, hdone, hdm, hc, hv, hcmp, -⟩ := exec_completes i s { writes := ws } hi hr h hpc
  exact ⟨t, ht, hres t hdm, hdone, ⟨hc, hv, hcmp⟩, hdm ▸ applyWrites_outside s.dm ws rs hw⟩

/-- A byte apart from the last of the writes reads as the others leave it. -/
theorem read_applyWrites_last_apart (dm : Memory) (ws : List Write) (w : Write) (x : Nat)
    (h : x < w.addr ∨ w.addr + w.bytes.length ≤ x) :
    (applyWrites dm (ws ++ [w])).read x = (applyWrites dm ws).read x := by
  rw [applyWrites, List.foldl_append]
  show ((applyWrites dm ws).writeBytes w.addr w.bytes).read x = _
  rw [Memory.read_writeBytes, if_neg (by omega)]

/-- What CHACHA_XOR queues for its context when the counter moves to `next` (spec/47_chacha20.md R376): the counter,
and EXH when the last counter value was used. -/
def contextWrites (c : Slot) (next : Nat) : List Write :=
  ⟨slotAddr c + 32, leBytes 4 (next % 2 ^ 32)⟩ :: if next = 2 ^ 32 then [⟨slotAddr c + 48, [1]⟩] else []

theorem contextWrites_last (c : Slot) : contextWrites c (2 ^ 32) =
    [⟨slotAddr c + 32, leBytes 4 (2 ^ 32 % 2 ^ 32)⟩] ++ [⟨slotAddr c + 48, [1]⟩] := rfl

theorem contextWrites_not_last (c : Slot) {next : Nat} (h : next ≠ 2 ^ 32) :
    contextWrites c next = [⟨slotAddr c + 32, leBytes 4 (next % 2 ^ 32)⟩] := by
  rw [contextWrites, if_neg h]

theorem chachaXorWrites_eq (d c : Slot) (ctx input : List Byte) : chachaXorWrites d c ctx input =
    contextWrites c (ctxCounter ctx + blocksFor input.length) ++ [putBytes d (xorBytes input
      (keystream (ctxKey ctx) (ctxNonce ctx) (ctxCounter ctx) (blocksFor input.length)))] := rfl

/-- The counter's write alone. -/
theorem counterWrite_read (dm : Memory) (c : Slot) (next : Nat) {k : Nat} (hk : k < 4) :
    (applyWrites dm [⟨slotAddr c + 32, leBytes 4 next⟩]).read (slotAddr c + 32 + k) =
      BitVec.ofNat 8 (next / 256 ^ k) := by
  show (dm.writeBytes (slotAddr c + 32) (leBytes 4 next)).read (slotAddr c + 32 + k) = _
  rw [Memory.read_writeBytes, if_pos (by rw [leBytes_length]; omega), Nat.add_sub_cancel_left, leBytes_getD _ _ _ hk]

/-- EXH's write does not touch the counter. -/
theorem contextWrites_counter (dm : Memory) (c : Slot) (next : Nat) {k : Nat} (hk : k < 4) :
    (applyWrites dm (contextWrites c next)).read (slotAddr c + 32 + k) = BitVec.ofNat 8 (next % 2 ^ 32 / 256 ^ k) := by
  by_cases hlast : next = 2 ^ 32
  · rw [hlast, contextWrites_last, read_applyWrites_last_apart _ _ _ _ (.inl (by dsimp only; omega)),
      counterWrite_read dm c _ hk]
  · rw [contextWrites_not_last c hlast, counterWrite_read dm c _ hk]

theorem contextWrites_exh (dm : Memory) (c : Slot) :
    (applyWrites dm (contextWrites c (2 ^ 32))).read (slotAddr c + 48) = 1 := by
  have hread : (applyWrites dm (contextWrites c (2 ^ 32))).readBytes (slotAddr c + 48) 1 = [1] :=
    readBytes_applyWrites_last dm [⟨slotAddr c + 32, leBytes 4 (2 ^ 32 % 2 ^ 32)⟩] _ 1 [1] rfl
  exact List.head_eq_of_cons_eq hread

/-- The writes of the context and of the text stay in their regions, EXH's among them only when it is written. -/
theorem xorWrites_within (d c : Slot) {next n : Nat} {out : List Byte} (hn : out.length = n) :
    allWithin (contextWrites c next ++ [putBytes d out])
      ([appendedAt c 32 4, bytesAt d n] ++ if next = 2 ^ 32 then [appendedAt c 48 1] else []) := by
  have hcounter : (⟨slotAddr c + 32, leBytes 4 (next % 2 ^ 32)⟩ : Write).within (appendedAt c 32 4) :=
    ⟨Nat.le_refl _, by rw [leBytes_length]; exact Nat.le_refl _⟩
  have hexh : (⟨slotAddr c + 48, [1]⟩ : Write).within (appendedAt c 48 1) := ⟨Nat.le_refl _, Nat.le_refl _⟩
  have htext : (putBytes d out).within (bytesAt d n) := putBytes_within d out n hn.le
  by_cases hlast : next = 2 ^ 32
  · rw [hlast, contextWrites_last, if_pos rfl]
    exact allWithin_cons _ _ _ ⟨_, by simp, hlast ▸ hcounter⟩ (allWithin_cons _ _ _ ⟨_, by simp, hexh⟩
      (allWithin_cons _ _ _ ⟨_, by simp, htext⟩ (allWithin_nil _)))
  · rw [contextWrites_not_last c hlast, if_neg hlast]
    exact allWithin_cons _ _ _ ⟨_, by simp, hcounter⟩ (allWithin_cons _ _ _ ⟨_, by simp, htext⟩ (allWithin_nil _))

/-! ### CHACHA_XOR -/

theorem inRange_appendedAt_iff (x : Slot) (l n : Nat) :
    (appendedAt x l n).inRange = true ↔ 32 * x.toNat + l + n ≤ 4096 := decide_eq_true_iff

theorem chachaXor_inRange_iff (d a c : Slot) (l1 : Len) : regionsInRange (.chachaXor d a c l1) = true ↔
    32 * a.toNat + l1.toNat ≤ 4096 ∧ c.toNat ≤ 126 ∧ 32 * d.toNat + l1.toNat ≤ 4096 := by
  simp only [regionsInRange, readRegions, writeRegions, List.cons_append, List.nil_append, List.all_cons, List.all_nil,
    Bool.and_true, Bool.and_eq_true, inRange_bytesAt_iff, slotsAt_inRange, inRange_appendedAt_iff]
  omega

theorem chachaXor_hasForm (d a c : Slot) (l1 : Len) : HasForm (.chachaXor d a c l1) ⟨0x52, d, a, 0, c, l1, 0, 0⟩
    [(32 * a.toNat, l1.toNat), (32 * c.toNat, 64), (32 * d.toNat, l1.toNat)] := by
  refine hasForm_of_fields _ _ _ rfl (Bool.eq_iff_iff.mpr ?_)
  simp only [chachaXor_inRange_iff, List.all_cons, List.all_nil, Bool.and_true, Bool.and_eq_true, decide_eq_true_iff]
  omega

/-- The blocks of a text cover it. -/
theorem le_blocksFor (n : Nat) : n ≤ 64 * blocksFor n := by
  rw [blocksFor]
  omega

theorem blocksFor_pos {n : Nat} (h : n ≠ 0) : 0 < blocksFor n := by
  have hcover := le_blocksFor n
  omega

section chachaXor

variable {d a c : Slot} {l1 : Len} {s : State} {counter blocks : Nat}

/-- The rule's checks, in the bytes of the context. -/
theorem ruleChachaXor_eq : ruleChachaXor d a c l1 s =
    if 0 < blocksFor l1.toNat ∧ s.dm.read (slotAddr c + 48) ≠ 0 then .error .misuse
    else if 2 ^ 32 < le (memRead s (slotAddr c + 32) 4) + blocksFor l1.toNat then .error .misuse
    else if 0 < blocksFor l1.toNat then
      writesResult (chachaXorWrites d c (memRead s (slotAddr c) 64) (memRead s (slotAddr a) l1.toNat))
    else writesResult [] := by
  rw [ruleChachaXor, ctxCounter_memRead, ctxExh_memRead]

/-- An empty text needs no block, and no counter value is above the last. -/
theorem ruleChachaXor_nothing (h : l1.toNat = 0) : ruleChachaXor d a c l1 s = writesResult [] := by
  have hblocks : blocksFor l1.toNat = 0 := by rw [h]; rfl
  have hnone : ¬ 0 < blocksFor l1.toNat := hblocks ▸ Nat.lt_irrefl 0
  have hlimit : ¬ 2 ^ 32 < le (memRead s (slotAddr c + 32) 4) + blocksFor l1.toNat := by
    rw [hblocks]
    exact Nat.lt_asymm (counter_lt s c)
  rw [ruleChachaXor_eq, if_neg fun hused => hnone hused.1, if_neg hlimit, if_neg hnone]

section someText

variable (hcounter : counter = le (memRead s (slotAddr c + 32) 4)) (hblocks : blocks = blocksFor l1.toNat)
  (htext : l1.toNat ≠ 0)

include hcounter hblocks htext

theorem ruleChachaXor_misuse (h : s.dm.read (slotAddr c + 48) ≠ 0 ∨ 2 ^ 32 < counter + blocks) :
    ruleChachaXor d a c l1 s = .error .misuse := by
  subst hcounter hblocks
  rw [ruleChachaXor_eq]
  exact twoChecks_error (h.imp_left fun hexh => ⟨blocksFor_pos htext, hexh⟩)

theorem ruleChachaXor_streams (hexh : s.dm.read (slotAddr c + 48) = 0) (hlimit : counter + blocks ≤ 2 ^ 32) :
    ruleChachaXor d a c l1 s = writesResult (contextWrites c (counter + blocks) ++
      [putBytes d (xorBytes (memRead s (slotAddr a) l1.toNat)
        (keystream (memRead s (slotAddr c) 32) (memRead s (slotAddr c + 36) 12) counter blocks))]) := by
  subst hcounter hblocks
  rw [ruleChachaXor_eq, if_neg fun hused => hused.2 hexh, if_neg (Nat.not_lt.mpr hlimit),
    if_pos (blocksFor_pos htext), chachaXorWrites_eq, ctxCounter_memRead, ctxKey_memRead, ctxNonce_memRead,
    memRead_length]

theorem chachaXor_completes (hr : regionsInRange (.chachaXor d a c l1) = true)
    (hexh : s.dm.read (slotAddr c + 48) = 0) (hlimit : counter + blocks ≤ 2 ^ 32) (hpc : s.pc ≠ 255) :
    CompletesWriting (.chachaXor d a c l1) s
      ([appendedAt c 32 4, bytesAt d l1.toNat] ++
        if counter + blocks = 2 ^ 32 then [appendedAt c 48 1] else []) fun t =>
      memRead t (slotAddr d) l1.toNat = xorBytes (memRead s (slotAddr a) l1.toNat)
        (keystream (memRead s (slotAddr c) 32) (memRead s (slotAddr c + 36) 12) counter blocks) ∧
      (∀ k, k < 4 → (bytesAt d l1.toNat).has (slotAddr c + 32 + k) = false →
        t.dm.read (slotAddr c + 32 + k) = BitVec.ofNat 8 ((counter + blocks) % 2 ^ 32 / 256 ^ k)) ∧
      (counter + blocks = 2 ^ 32 → (bytesAt d l1.toNat).has (slotAddr c + 48) = false →
        t.dm.read (slotAddr c + 48) = 1) := by
  have hrule := ruleChachaXor_streams (d := d) (a := a) hcounter hblocks htext hexh hlimit
  have hlen : (xorBytes (memRead s (slotAddr a) l1.toNat)
      (keystream (memRead s (slotAddr c) 32) (memRead s (slotAddr c + 36) 12) counter blocks)).length = l1.toNat := by
    rw [xorBytes_length, keystream_length _ _ _ _ (memRead_length _ _ _) (memRead_length _ _ _), memRead_length,
      hblocks]
    exact Nat.min_eq_left (le_blocksFor l1.toNat)
  generalize xorBytes (memRead s (slotAddr a) l1.toNat) _ = out at hrule hlen ⊢
  have hbehind : ∀ x, (bytesAt d l1.toNat).has x = false →
      (applyWrites s.dm (contextWrites c (counter + blocks) ++ [putBytes d out])).read x =
        (applyWrites s.dm (contextWrites c (counter + blocks))).read x := fun x hx =>
    read_applyWrites_last_apart _ _ _ _ (by rw [putBytes, hlen]; exact (Region.has_eq_false _ _).mp hx)
  refine exec_completesWriting_within (i := .chachaXor d a c l1) nofun hr hrule hpc (xorWrites_within d c hlen)
    fun t ht => ⟨?text, fun k hk hout => ?counter, fun hlast hout => ?exh⟩
  case text => rw [memRead, ht]; exact readBytes_applyWrites_last _ _ _ _ _ hlen
  case counter => rw [ht, hbehind _ hout, contextWrites_counter _ _ _ hk]
  case exh => rw [ht, hbehind _ hout, hlast, contextWrites_exh]

end someText

end chachaXor

/-- Settles O57: no text, a text the context cannot serve, and a text it streams. -/
theorem chachaXor : Obligations.ChachaXor := by
  intro d a c l1 s counter blocks hcounter hblocks
  refine ⟨chachaXor_hasForm d a c l1, fun ha hc hd => ?_⟩
  have hr := (chachaXor_inRange_iff d a c l1).mpr ⟨ha, hc, hd⟩
  refine ⟨fun hempty hpc => ?nothing, fun htext hmisuse => ?misuse, fun htext hexh hlimit hpc => ?streams⟩
  case nothing =>
    obtain ⟨t, ht, hdone, hdm, h1, h2, h3, -⟩ :=
      exec_completes (.chachaXor d a c l1) s {} nofun hr (ruleChachaXor_nothing hempty) hpc
    exact ⟨t, ht, hdone, ⟨h1, h2, h3⟩, hdm⟩
  case misuse =>
    exact exec_halts (.chachaXor d a c l1) s _ nofun hr (ruleChachaXor_misuse hcounter hblocks htext hmisuse)
  case streams => exact chachaXor_completes hcounter hblocks htext hr hexh hlimit hpc

end Sys2Proof.Machine
end

section
/-! PROOFS. POLY1305 and the AEAD (spec/48_poly1305_aead.md R402 to R408). AEAD_ENC writes ciphertext and tag as one
byte string, which is read back in two parts; AEAD_DEC's comparison of tags is their equality, and XOR with the same
keystream twice gives the text back. -/

namespace Sys2Proof.Machine

/-! ### The comparison of tags (R407) -/

theorem foldl_or_eq_zero_iff (bs : List Byte) (acc : Byte) :
    bs.foldl (fun acc b => acc ||| b) acc = 0 ↔ acc = 0 ∧ ∀ b ∈ bs, b = 0 := by
  induction bs generalizing acc with
  | nil => simp
  | cons b bs ih =>
    have hor : acc ||| b = 0 ↔ acc = 0 ∧ b = 0 := BitVec.or_eq_zero_iff
    rw [List.foldl_cons, ih, hor, List.forall_mem_cons, and_assoc]

/-- The XOR of two byte strings of one length is zero throughout exactly when they are equal. -/
theorem xorBytes_eq_zero_iff {x y : List Byte} (h : x.length = y.length) : (∀ b ∈ xorBytes x y, b = 0) ↔ x = y := by
  induction x generalizing y with
  | nil => simp [xorBytes, List.length_eq_zero_iff.mp h.symm]
  | cons u x ih =>
    cases y with
    | nil => cases h
    | cons v y =>
      have hcons : xorBytes (u :: x) (v :: y) = (u ^^^ v) :: xorBytes x y := rfl
      have hxor : u ^^^ v = 0 ↔ u = v := BitVec.xor_eq_zero_iff
      rw [hcons, List.forall_mem_cons, hxor, ih (Nat.succ.inj h), List.cons.injEq]

theorem ctEqual_iff {x y : List Byte} (h : x.length = y.length) : ctEqual x y = true ↔ x = y := by
  rw [ctEqual, beq_iff_eq, foldl_or_eq_zero_iff, xorBytes_eq_zero_iff h, and_iff_right rfl]

/-! ### The keystream of the AEAD -/

section keystreamLaws

variable {key nonce : List Byte} (hkey : key.length = 32) (hnonce : nonce.length = 12) (text : List Byte)

include hkey hnonce

theorem aeadXor_length : (aeadXor key nonce text).length = text.length := xor_keystream_length _ _ _ _ hkey hnonce

/-- Opening undoes sealing (R408 (1)). -/
theorem aeadXor_aeadXor : aeadXor key nonce (aeadXor key nonce text) = text := by
  have hlen := aeadXor_length hkey hnonce text
  have hcover : text.length ≤ (keystream key nonce 1 (blocksFor text.length)).length := by
    rw [keystream_length _ _ _ _ hkey hnonce]
    exact le_blocksFor text.length
  rw [aeadXor, hlen]
  exact xorBytes_xorBytes _ _ hcover

end keystreamLaws

/-! ### The ranges of the three commands -/

theorem poly1305_inRange_iff (d a c : Slot) (l1 : Len) :
    regionsInRange (.poly1305 d a c l1) = true ↔ 32 * a.toNat + l1.toNat ≤ 4096 := by
  have hd := d.isLt
  simp only [regionsInRange, readRegions, writeRegions, List.cons_append, List.nil_append, List.all_cons, List.all_nil,
    slotAt_inRange, Bool.true_and, Bool.and_true, Bool.and_eq_true, inRange_bytesAt_iff]
  omega

theorem aeadEnc_inRange_iff (d a b c : Slot) (l1 l2 : Len) : regionsInRange (.aeadEnc d a b c l1 l2) = true ↔
    32 * a.toNat + l1.toNat ≤ 4096 ∧ 32 * b.toNat + l2.toNat ≤ 4096 ∧ c.toNat ≤ 126 ∧
      32 * d.toNat + l1.toNat + 16 ≤ 4096 := by
  simp only [regionsInRange, readRegions, writeRegions, List.cons_append, List.nil_append, List.all_cons, List.all_nil,
    Bool.and_true, Bool.and_eq_true, inRange_bytesAt_iff, slotsAt_inRange]
  omega

theorem aeadDec_inRange_iff (d a b c : Slot) (l1 l2 : Len) : regionsInRange (.aeadDec d a b c l1 l2) = true ↔
    32 * a.toNat + l1.toNat + 16 ≤ 4096 ∧ 32 * b.toNat + l2.toNat ≤ 4096 ∧ c.toNat ≤ 126 ∧
      32 * d.toNat + l1.toNat ≤ 4096 := by
  simp only [regionsInRange, readRegions, writeRegions, List.cons_append, List.nil_append, List.all_cons, List.all_nil,
    Bool.and_true, Bool.and_eq_true, inRange_bytesAt_iff, slotsAt_inRange, inRange_appendedAt_iff]
  omega

/-- The ciphertext and the tag behind it are one region. -/
theorem aeadDec_hasForm (d a b c : Slot) (l1 l2 : Len) :
    HasForm (.aeadDec d a b c l1 l2) ⟨0x55, d, a, b, c, l1, l2, 0⟩
      [(32 * a.toNat, l1.toNat + 16), (32 * b.toNat, l2.toNat), (32 * c.toNat, 64), (32 * d.toNat, l1.toNat)] := by
  refine hasForm_of_fields _ _ _ rfl (Bool.eq_iff_iff.mpr ?_)
  simp only [aeadDec_inRange_iff, List.all_cons, List.all_nil, Bool.and_true, Bool.and_eq_true, decide_eq_true_iff]
  omega

/-! ### Sealing and opening -/

theorem poly1305_completes {d a c : Slot} {l1 : Len} {s : State} (ha : 32 * a.toNat + l1.toNat ≤ 4096)
    (hpc : s.pc ≠ 255) : CompletesWriting (.poly1305 d a c l1) s [bytesAt d 16] fun t =>
      memRead t (slotAddr d) 16 = poly1305Tag (memRead s (slotAddr c) 32) (memRead s (slotAddr a) l1.toNat) :=
  exec_completesWriting (.poly1305 d a c l1) s _ _ nofun ((poly1305_inRange_iff d a c l1).mpr ha) rfl hpc
    fun _ ht => memRead_putBytes ht (poly1305Tag_length _ _)

/-- With key, nonce and text read from DM, the output is as long as the text. -/
theorem aeadXor_operands_length (s : State) (k m x n : Nat) :
    (aeadXor (memRead s k 32) (memRead s m 12) (memRead s x n)).length = n := by
  rw [aeadXor_length (memRead_length s k 32) (memRead_length s m 12), memRead_length]

/-- Two byte strings written as one are read back apart. -/
theorem memRead_putBytes_append {s t : State} {d : Slot} {bs bs' : List Byte} {n k : Nat}
    (h : t.dm = applyWrites s.dm [putBytes d (bs ++ bs')]) (hn : bs.length = n) (hk : bs'.length = k) :
    memRead t (slotAddr d) n = bs ∧ memRead t (slotAddr d + n) k = bs' := by
  have hwhole : memRead t (slotAddr d) (n + k) = bs ++ bs' :=
    memRead_putBytes h (by rw [List.length_append, hn, hk])
  exact List.append_inj ((Memory.readBytes_add _ _ _ _).symm.trans hwhole) (by rw [memRead_length, hn])

section aead

variable {d a b c : Slot} {l1 l2 : Len} {s : State} {key nonce aad text : List Byte}
  (hkey : key = memRead s (slotAddr c) 32) (hnonce : nonce = memRead s (slotAddr c + 36) 12)
  (haad : aad = memRead s (slotAddr b) l2.toNat) (htext : text = memRead s (slotAddr a) l1.toNat)

include hkey hnonce haad htext

theorem ruleAeadEnc_seals : ruleAeadEnc d a b c l1 l2 s =
    writesResult [putBytes d (aeadXor key nonce text ++ aeadTag key nonce aad (aeadXor key nonce text))] := by
  rw [ruleAeadEnc, ctxKey_memRead, ctxNonce_memRead, ← hkey, ← hnonce, ← haad, ← htext]

theorem aeadEnc_completes (hr : regionsInRange (.aeadEnc d a b c l1 l2) = true) (hpc : s.pc ≠ 255) :
    CompletesWriting (.aeadEnc d a b c l1 l2) s [bytesAt d (l1.toNat + 16)] fun t =>
      memRead t (slotAddr d) l1.toNat = aeadXor key nonce text ∧
      memRead t (slotAddr d + l1.toNat) 16 = aeadTag key nonce aad (aeadXor key nonce text) := by
  have hlen : (aeadXor key nonce text).length = l1.toNat := by
    rw [hkey, hnonce, htext, aeadXor_operands_length]
  exact exec_completesWriting (.aeadEnc d a b c l1 l2) s _ _ nofun hr (ruleAeadEnc_seals hkey hnonce haad htext) hpc
    fun t ht => memRead_putBytes_append ht hlen (poly1305Tag_length _ _)

/-- AEAD_DEC tests that the tag received behind the ciphertext is the tag recomputed over it. -/
theorem ruleAeadDec_eq : ruleAeadDec d a b c l1 l2 s =
    if memRead s (slotAddr a + l1.toNat) 16 = aeadTag key nonce aad text then
      writesResult [putBytes d (aeadXor key nonce text)]
    else .error .auth := by
  have htag : ctEqual (aeadTag key nonce aad text) (memRead s (slotAddr a + l1.toNat) 16) = true ↔
      memRead s (slotAddr a + l1.toNat) 16 = aeadTag key nonce aad text := by
    rw [ctEqual_iff (by rw [memRead_length]; exact poly1305Tag_length _ _), eq_comm]
  rw [ruleAeadDec, ctxKey_memRead, ctxNonce_memRead, ← hkey, ← hnonce, ← haad, ← htext]
  exact if_congr htag rfl rfl

theorem aeadDec_opens (hr : regionsInRange (.aeadDec d a b c l1 l2) = true)
    (htag : memRead s (slotAddr a + l1.toNat) 16 = aeadTag key nonce aad text) (hpc : s.pc ≠ 255) :
    CompletesWriting (.aeadDec d a b c l1 l2) s [bytesAt d l1.toNat] fun t =>
      memRead t (slotAddr d) l1.toNat = aeadXor key nonce text := by
  have hrule := (ruleAeadDec_eq (d := d) hkey hnonce haad htext).trans (if_pos htag)
  have hlen : (aeadXor key nonce text).length = l1.toNat := by
    rw [hkey, hnonce, htext, aeadXor_operands_length]
  exact exec_completesWriting (.aeadDec d a b c l1 l2) s _ _ nofun hr hrule hpc fun t ht => memRead_putBytes ht hlen

theorem aeadDec_halts (hr : regionsInRange (.aeadDec d a b c l1 l2) = true)
    (htag : memRead s (slotAddr a + l1.toNat) 16 ≠ aeadTag key nonce aad text) :
    HaltsWith (.aeadDec d a b c l1 l2) s .auth :=
  exec_halts (.aeadDec d a b c l1 l2) s _ nofun hr ((ruleAeadDec_eq hkey hnonce haad htext).trans (if_neg htag))

end aead

/-- The keystream's length is that of the text read. -/
theorem aeadXor_memRead (key nonce : List Byte) (s : State) (x n : Nat) : aeadXor key nonce (memRead s x n) =
    xorBytes (memRead s x n) (keystream key nonce 1 ((n + 63) / 64)) := by
  rw [aeadXor, memRead_length]
  rfl

/-- Settles O58: the tag is written whole; ciphertext and tag are written as one string and read back apart. -/
theorem polyTagAndAeadSeal : Obligations.PolyTagAndAeadSeal := by
  rintro d a b c l1 l2 s key nonce text hkey rfl rfl
  refine ⟨hasForm_of_fields _ _ _ rfl rfl, hasForm_of_fields _ _ _ rfl rfl, fun ha hpc => ?tag,
    fun ha hb hc hd hpc => ?sealed⟩
  case tag => exact hkey ▸ poly1305_completes ha hpc
  case sealed =>
    have hr := (aeadEnc_inRange_iff d a b c l1 l2).mpr ⟨ha, hb, hc, hd⟩
    refine (aeadEnc_completes hkey rfl rfl rfl hr hpc).imp fun t ⟨htext, htag⟩ => ⟨?_, ?_⟩
    · rw [htext, aeadXor_memRead]
    · rw [htag, htext]
      rfl

/-- Settles O59: the comparison of tags decides between the two ends. -/
theorem aeadOpen : Obligations.AeadOpen := by
  rintro d a b c l1 l2 s key nonce text hkey hnonce rfl
  refine ⟨aeadDec_hasForm d a b c l1 l2, fun ha hb hc hd => ?_⟩
  have hr := (aeadDec_inRange_iff d a b c l1 l2).mpr ⟨ha, hb, hc, hd⟩
  refine ⟨fun htag hpc => ?_, fun htag => aeadDec_halts hkey hnonce rfl rfl hr htag⟩
  rw [← aeadXor_memRead]
  exact aeadDec_opens hkey hnonce rfl rfl hr htag hpc

/-- An AEAD_ENC that completed left the ciphertext and its tag at D. -/
theorem aeadEnc_of_completed {d a b c : Slot} {l1 l2 : Len} {s t : State} {key nonce aad text : List Byte}
    (hkey : key = memRead s (slotAddr c) 32) (hnonce : nonce = memRead s (slotAddr c + 36) 12)
    (haad : aad = memRead s (slotAddr b) l2.toNat) (htext : text = memRead s (slotAddr a) l1.toNat)
    (h : exec (.aeadEnc d a b c l1 l2) s = .next t) (hdone : Completed s t) :
    memRead t (slotAddr d) l1.toNat = aeadXor key nonce text ∧
      memRead t (slotAddr d + l1.toNat) 16 = aeadTag key nonce aad (aeadXor key nonce text) :=
  (aeadEnc_completes hkey hnonce haad htext (inRange_of_completed (i := .aeadEnc d a b c l1 l2) nofun h hdone)
    (pc_ne_last_of_completed (i := .aeadEnc d a b c l1 l2) nofun h hdone)).result_of_exec h

/-- Settles O60: AEAD_DEC recomputes the tag AEAD_ENC left, so the tag received decides, and its keystream undoes the
sealing. -/
theorem aeadRoundTrip : Obligations.AeadRoundTrip := by
  intro d a b c d' b' c' l1 l2 s t u henc hdone hr haad hkey hnonce hct
  obtain ⟨hsealed, htag⟩ := aeadEnc_of_completed hkey hnonce haad rfl henc hdone
  have hreceived : aeadXor _ _ _ = memRead u (slotAddr d) l1.toNat := (hct.trans hsealed).symm
  rw [htag]
  refine ⟨fun hsame hpc => ?_, fun haltered => aeadDec_halts rfl rfl rfl hreceived hr haltered⟩
  rw [← aeadXor_aeadXor (memRead_length u (slotAddr c') 32) (memRead_length u (slotAddr c' + 36) 12)
    (memRead s (slotAddr a) l1.toNat)]
  exact aeadDec_opens rfl rfl rfl hreceived hr hsame hpc

end Sys2Proof.Machine
end

section
/-! PROOFS. Recovery from an error halt (spec/60_exceptions.md R439). DM alone decides what a command commits
(`exec_outcome`), and an error halt followed by START has moved neither PC nor C nor CMP. -/

namespace Sys2Proof.Machine

theorem fetch_congr {s t : State} (hcm : t.cm = s.cm) (hpc : t.pc = s.pc) : fetch t = fetch s := by
  rw [fetch, fetch, hcm, hpc]

/-- A command that completed completes, with the same effect, on every state of the same DM below the last index. -/
theorem completes_alike {i : Instr} {s s' t : State} (hi : i ≠ .endSeq) (h : exec i s = .next t)
    (hdone : Completed s t) (hdm : s.dm = s'.dm) (hpc : s'.pc ≠ 255) :
    ∃ ef, t = advance (commit ef s) ∧ exec i s' = .next (advance (commit ef s')) ∧
      Completed s' (advance (commit ef s')) := by
  rcases exec_outcome i s hi with ⟨e, -, -, hexec⟩ | ⟨ef, -, hexec⟩
  · cases (hexec s rfl).symm.trans h
    obtain ⟨hmoved, -⟩ := hdone
    exact absurd hmoved.symm (pc_add_one_ne s.pc)
  · cases (hexec s rfl).symm.trans h
    refine ⟨ef, rfl, hexec s' hdm, ?_⟩
    rcases advance_commit_cases ef s' with ⟨-, hdone'⟩ | ⟨hlast, -⟩
    · exact hdone'
    · exact absurd hlast hpc

/-- Settles O24: the halt and START leave PC, C and CMP alone, so the command commits on the corrected DM what it would
have committed there. -/
theorem recoveryByStart : Obligations.RecoveryByStart := by
  intro i s t e h hhalted
  have hi : i ≠ .endSeq := by
    rintro rfl
    cases (exec_endSeq s).symm.trans h
    exact not_errorHalted_of_pc_moved e s _ rfl hhalted
  obtain ⟨-, -, -, -, -, -, hpc, hdm, hc, hcmp, hcm, -⟩ := hhalted
  refine ⟨hpc, hdm, fetch_congr hcm hpc, rfl, rfl, rfl, rfl, fun m u hu hdone => ?_⟩
  have hbelow : s.pc ≠ 255 := pc_ne_last_of_completed (s := { s with dm := m }) hi hu hdone
  obtain ⟨ef, rfl, hexec, hdone'⟩ :=
    completes_alike (s' := { start t with dm := m }) hi hu hdone rfl (fun hlast => hbelow (hpc.symm.trans hlast))
  have ⟨hmoved, _⟩ := hdone
  have ⟨hmoved', _⟩ := hdone'
  refine ⟨_, hexec, hdone', ?dm, ?pc, ?c, ?cmp⟩
  case dm => simp only [advance_dm, commit_dm]
  case pc => exact hmoved'.trans ((congrArg (· + 1) hpc).trans hmoved.symm)
  case c => simp only [advance_c, commit_c, start_c, hc]
  case cmp => simp only [advance_cmp, commit_cmp, start_cmp, hcmp]

end Sys2Proof.Machine
end

section
/-! PROOFS. Reset (spec/70_reset_and_hazards.md R470 to R472): the registers and the port while the input is asserted,
and what DM and CM hold afterwards. -/

namespace Sys2Proof.Machine

/-- Settles O8: contents given at power-on are canonical memories, and the registers are those of an Idle core. -/
theorem powerOnHasTheInvariant : Obligations.PowerOnHasTheInvariant := by
  have hpowerOn : ∀ dmInit cmInit : List Byte, (State.powerOn dmInit cmInit).Inv := fun dmInit cmInit =>
    inv_of_idle (wf_of_contents 4096 dmInit) (wf_of_contents 2048 cmInit) rfl rfl rfl
  exact ⟨hpowerOn, powerOn_nil ▸ hpowerOn [] []⟩

/-! ### The registers and the port -/

theorem hostRead_inReset {s : State} (h : s.inReset = true) (offset : Nat) : hostRead s offset = 0 := if_pos h

theorem hostWrite_inReset {s : State} (h : s.inReset = true) (offset : Nat) (data : HostWord) :
    hostWrite offset data s = s := if_pos h

/-- A core whose reset input is asserted (R470): the registers of R471, with what a reset does not fix left open. -/
def heldInReset (dm cm : Memory) (pending : List Input) (busData : HostWord) (freeCount : Nat) : State :=
  { State.reset with dm, cm, inReset := true, pending, busData, freeCount }

/-- Both kinds of reset leave the core held in reset. -/
theorem exists_heldInReset {s t : State} (h : t = warmReset s ∨ ∃ dmInit cmInit, t = powerOnReset dmInit cmInit s) :
    ∃ dm cm pending busData freeCount, t = heldInReset dm cm pending busData freeCount := by
  rcases h with rfl | ⟨dmInit, cmInit, rfl⟩ <;> exact ⟨_, _, _, _, _, rfl⟩

/-- Settles O9: a core held in reset has the registers of `State.reset`, each read on release by its own equation. -/
theorem resetValues : Obligations.ResetValues := by
  intro s t ht
  obtain ⟨dm, cm, pending, busData, freeCount, rfl⟩ := exists_heldInReset ht
  exact ⟨rfl, rfl, rfl, rfl, rfl, rfl, rfl, rfl, rfl, rfl, rfl, hostRead_id rfl rfl, hostRead_config rfl rfl,
    hostRead_ctrl rfl rfl, hostRead_status rfl rfl, hostRead_pc rfl rfl, hostRead_errpc rfl rfl,
    hostRead_irqen rfl rfl, hostRead_inReset rfl, hostWrite_inReset rfl⟩

/-! ### The memories -/

/-- What a memory of given contents reads as, up to its size. -/
theorem read_contents {size a : Nat} {bytes : List Byte} (h : a < bytes.length) (ha : a < size) :
    (Memory.writeBytes [] 0 (bytes.take size)).read a = bytes.getD a 0 := by
  have hin : 0 ≤ a ∧ a < 0 + (bytes.take size).length := ⟨Nat.zero_le a, by rw [List.length_take]; omega⟩
  rw [Memory.read_writeBytes, if_pos hin, Nat.sub_zero, List.getD_eq_getElem?_getD, List.getD_eq_getElem?_getD,
    List.getElem?_take_of_lt ha]

/-- DM after a warm reset: free values over the regions cut short, which an Idle core has none of. -/
theorem warmReset_dm (s : State) :
    (warmReset s).dm = scramble s.dm s.freeCount (if s.busy then cutShortRegions s else []) := rfl

theorem warmReset_freeCount (s : State) :
    (warmReset s).freeCount = s.freeCount + regionBytes (if s.busy then cutShortRegions s else []) := rfl

theorem warmReset_dm_idle {s : State} (h : s.busy = false) : (warmReset s).dm = s.dm := by
  rw [warmReset_dm, h]
  rfl

/-- The regions cut short are those of the command that the word at PC names; a reserved opcode names none. -/
theorem cutShortRegions_eq (s : State) : cutShortRegions s =
    (namedCommand (fetch s)).elim [] fun i => (listedWriteRegions i).map Region.inDm := by
  unfold cutShortRegions
  cases namedCommand (fetch s) <;> rfl

/-- Running, a warm reset gives free values to the regions of the command in progress, as far as they lie in DM. -/
theorem warmReset_running {s : State} {i : Instr} (hbusy : s.busy = true) (h : namedCommand (fetch s) = some i) :
    (warmReset s).dm = scramble s.dm s.freeCount ((listedWriteRegions i).map Region.inDm) ∧
      (warmReset s).freeCount = s.freeCount + regionBytes ((listedWriteRegions i).map Region.inDm) := by
  rw [warmReset_dm, warmReset_freeCount, if_pos hbusy, cutShortRegions_eq, h]
  exact ⟨rfl, rfl⟩

/-- Where the word names no command, nothing is cut short, Running or Idle. -/
theorem warmReset_dm_unnamed {s : State} (h : namedCommand (fetch s) = none) : (warmReset s).dm = s.dm := by
  rw [warmReset_dm, cutShortRegions_eq, h, Option.elim_none, ite_self]
  rfl

/-- Outside the regions is outside their parts in DM. -/
theorem sameOutside_of_inDm {rs : List Region} {before after : Memory}
    (h : SameOutside (rs.map Region.inDm) before after) : SameOutside rs before after := by
  refine fun a ha => h a fun q hq => ?_
  obtain ⟨r, hr, rfl⟩ := List.mem_map.mp hq
  rw [Region.inDm_has, ha r hr, Bool.false_and]

/-- A warm reset while Running keeps what lies outside the command's regions and draws what lies inside
(spec/70_reset_and_hazards.md R472). -/
theorem warmReset_cutShort {s : State} {i : Instr} (hbusy : s.busy = true) (h : namedCommand (fetch s) = some i) :
    SameOutside (listedWriteRegions i) s.dm (warmReset s).dm ∧
      ∀ a, a < 4096 → (∃ r ∈ listedWriteRegions i, r.has a = true) →
        ∃ j, s.freeCount + j < (warmReset s).freeCount ∧
          (warmReset s).dm.read a = Config.freeByte (s.freeCount + j) := by
  obtain ⟨hdm, hcount⟩ := warmReset_running hbusy h
  rw [hdm, hcount]
  refine ⟨sameOutside_of_inDm (scramble_outside s.dm s.freeCount _), fun a ha ⟨r, hr, hin⟩ => ?_⟩
  have hpart : r.inDm.has a = true := by rw [Region.inDm_has, hin, decide_eq_true ha, Bool.true_and]
  obtain ⟨j, hj, hread⟩ := scramble_inside s.dm s.freeCount _ a ⟨_, List.mem_map_of_mem hr, hpart⟩
  exact ⟨j, Nat.add_lt_add_left hj _, hread⟩

/-- Settles O10: the memories after power-on read as the contents given; after a warm reset the command in progress, if
the word names one, decides which bytes are drawn. -/
theorem resetMemories : Obligations.ResetMemories := by
  refine ⟨fun dmInit cmInit s hdm hcm => ⟨fun a ha => ?_, fun a ha => ?_⟩, fun s => ⟨rfl, warmReset_dm_idle⟩,
    fun s i hbusy hnamed => warmReset_cutShort hbusy hnamed, fun s => warmReset_dm_unnamed, namedCommand_of_decode⟩
  · exact read_contents (size := 4096) (hdm ▸ ha) ha
  · exact read_contents (size := 2048) (hcm ▸ ha) ha

end Sys2Proof.Machine
end
